-- ==== Sys2Proof/Word.lean ====
section
/-! DEFINITION. The word of FBK-1: every register, memory element and command is one 32-bit word
(`20_memory.md` R61, `30_encoding.md` R90). A value of `F` in a word is its binary32 pattern (R7). -/

namespace Sys2Proof

/-- One 32-bit word (R61): a `u32`, an `i32` or the pattern of a value of `F`. -/
abbrev Word := BitVec 32

/-- A host word index, 19 bits (R60). -/
abbrev HostAddr := BitVec 19

/-- A byte address of the bus wrapper, relative to the block's base: `4 x a + b` (R61, R63). -/
abbrev ByteAddr := BitVec 21

end Sys2Proof
end

