-- ==== Sys2Proof/Syntax.lean ====
section
/-! DEFINITION. The fourteen commands of FBK-1 (`30_encoding.md` R93), one constructor per row of
`spec/opcode_table.json`. Operand fields are the unsigned field values of R91. -/

namespace Sys2Proof

/-- A command (R93). `nch` and `r` are the selector field, `len` the immediate field (R90, R94). -/
inductive Instr where
  | nop
  | prepare
  | release
  | process (nch len : Nat)
  | latch
  | push
  | estimate
  | rreset (r : Nat)
  | rset (r : Nat)
  | rnext (r : Nat)
  | afreq
  | oscnext
  | sample
  | gainstg (len : Nat)
  deriving DecidableEq, Repr

/-- The streaming commands: every command except `NOP`, `PREPARE`, `RELEASE` (R214). -/
def Instr.isStreaming : Instr → Bool
  | .nop => false
  | .prepare => false
  | .release => false
  | .process _ _ => true
  | .latch => true
  | .push => true
  | .estimate => true
  | .rreset _ => true
  | .rset _ => true
  | .rnext _ => true
  | .afreq => true
  | .oscnext => true
  | .sample => true
  | .gainstg _ => true

end Sys2Proof
end

