-- ==== Sys2Proof/WellFormed.lean ====
section
/-! DEFINITION. Which commands a command word can express: the selector has 4 bits and the immediate
20 (`30_encoding.md` R90). Whether an operand is in the command's range (R94) is a check of the
machine (`BADOPER`), not of the encoding. -/

namespace Sys2Proof

/-- A value fits the 4-bit `sel` field (R90). -/
def fitsSel (n : Nat) : Bool := decide (n < 2 ^ 4)

/-- A value fits the 20-bit `imm` field (R90). -/
def fitsImm (n : Nat) : Bool := decide (n < 2 ^ 20)

/-- Every operand of the command fits its field of the word (R90, R94). -/
def Instr.wellFormed : Instr → Bool
  | .nop => true
  | .prepare => true
  | .release => true
  | .process nch len => fitsSel nch && fitsImm len
  | .latch => true
  | .push => true
  | .estimate => true
  | .rreset r => fitsSel r
  | .rset r => fitsSel r
  | .rnext r => fitsSel r
  | .afreq => true
  | .oscnext => true
  | .sample => true
  | .gainstg len => fitsImm len

end Sys2Proof
end

