-- ==== Sys2Proof/Decode.lean ====
section
/-! DEFINITION. Decoding and encoding of command words (`30_encoding.md` R90 to R96). -/

namespace Sys2Proof

/-- Why a word is illegal (R92 steps 1 and 2, R95). Both record the fault `ILLCMD`. -/
inductive DecodeError where
  /-- `op` is not an assigned opcode (step 1). -/
  | unassignedOpcode
  /-- A must-be-zero field of an assigned opcode is not zero (step 2). -/
  | nonzeroField
  deriving DecidableEq, Repr

/-- The opcode field, bits 31:24 (R90). -/
def opField (w : Word) : Nat := (w.extractLsb' 24 8).toNat

/-- The selector field, bits 23:20 (R90). -/
def selField (w : Word) : Nat := (w.extractLsb' 20 4).toNat

/-- The immediate field, bits 19:0 (R90). -/
def immField (w : Word) : Nat := (w.extractLsb' 0 20).toNat

/-- Step 2 of R92: the fields that must be zero are zero, else the word is illegal. -/
def requireZero (fieldsAreZero : Bool) (i : Instr) : Except DecodeError Instr :=
  if fieldsAreZero then .ok i else .error .nonzeroField

/-- Decode, total on all `2^32` words (R92 steps 1 and 2, R93, R94, R95). -/
def decode (w : Word) : Except DecodeError Instr :=
  let sel := selField w
  let imm := immField w
  match opField w with
  | 0x00 => requireZero (sel == 0 && imm == 0) .nop
  | 0x01 => requireZero (sel == 0 && imm == 0) .prepare
  | 0x02 => requireZero (sel == 0 && imm == 0) .release
  | 0x03 => .ok (.process sel imm)
  | 0x04 => requireZero (sel == 0 && imm == 0) .latch
  | 0x10 => requireZero (sel == 0 && imm == 0) .push
  | 0x11 => requireZero (sel == 0 && imm == 0) .estimate
  | 0x20 => requireZero (imm == 0) (.rreset sel)
  | 0x21 => requireZero (imm == 0) (.rset sel)
  | 0x22 => requireZero (imm == 0) (.rnext sel)
  | 0x30 => requireZero (sel == 0 && imm == 0) .afreq
  | 0x31 => requireZero (sel == 0 && imm == 0) .oscnext
  | 0x40 => requireZero (sel == 0 && imm == 0) .sample
  | 0x41 => requireZero (sel == 0) (.gainstg imm)
  | _ => .error .unassignedOpcode

/-- The command word `op x 2^24 + sel x 2^20 + imm` (R90). -/
def assemble (op sel imm : Nat) : Word :=
  BitVec.ofNat 8 op ++ BitVec.ofNat 4 sel ++ BitVec.ofNat 20 imm

/-- The word of a command (R93, R94). -/
def encode : Instr → Word
  | .nop => assemble 0x00 0 0
  | .prepare => assemble 0x01 0 0
  | .release => assemble 0x02 0 0
  | .process nch len => assemble 0x03 nch len
  | .latch => assemble 0x04 0 0
  | .push => assemble 0x10 0 0
  | .estimate => assemble 0x11 0 0
  | .rreset r => assemble 0x20 r 0
  | .rset r => assemble 0x21 r 0
  | .rnext r => assemble 0x22 r 0
  | .afreq => assemble 0x30 0 0
  | .oscnext => assemble 0x31 0 0
  | .sample => assemble 0x40 0 0
  | .gainstg len => assemble 0x41 0 len

/-- The mask of the command's row of the opcode table: `op` and every must-be-zero field (R95). -/
def rowMask : Instr → Word
  | .nop => 0xFFFFFFFF#32
  | .prepare => 0xFFFFFFFF#32
  | .release => 0xFFFFFFFF#32
  | .process _ _ => 0xFF000000#32
  | .latch => 0xFFFFFFFF#32
  | .push => 0xFFFFFFFF#32
  | .estimate => 0xFFFFFFFF#32
  | .rreset _ => 0xFF0FFFFF#32
  | .rset _ => 0xFF0FFFFF#32
  | .rnext _ => 0xFF0FFFFF#32
  | .afreq => 0xFFFFFFFF#32
  | .oscnext => 0xFFFFFFFF#32
  | .sample => 0xFFFFFFFF#32
  | .gainstg _ => 0xFFF00000#32

/-- The match word of the command's row of the opcode table (R94, R95). -/
def rowMatch : Instr → Word
  | .nop => 0x00000000#32
  | .prepare => 0x01000000#32
  | .release => 0x02000000#32
  | .process _ _ => 0x03000000#32
  | .latch => 0x04000000#32
  | .push => 0x10000000#32
  | .estimate => 0x11000000#32
  | .rreset _ => 0x20000000#32
  | .rset _ => 0x21000000#32
  | .rnext _ => 0x22000000#32
  | .afreq => 0x30000000#32
  | .oscnext => 0x31000000#32
  | .sample => 0x40000000#32
  | .gainstg _ => 0x41000000#32

/-- The fourteen rows of the opcode table as (mask, match) pairs, in the table's order (R95). -/
def opcodeRows : List (Word × Word) :=
  [.nop, .prepare, .release, .process 0 0, .latch, .push, .estimate, .rreset 0, .rset 0, .rnext 0,
    .afreq, .oscnext, .sample, .gainstg 0].map (fun i => (rowMask i, rowMatch i))

/-- A word belongs to some row of the opcode table: `w AND mask = match` (R95). -/
def matchesSomeRow (w : Word) : Bool := opcodeRows.any (fun r => w &&& r.1 == r.2)

/-- What the decoder reads from a word given as the opcode table numbers its bits: the low `nbits`
bits of `w`, every bit above them zero. A command is one word (R90, R96). -/
def decodeTableWord (nbits w : Nat) : Option Instr :=
  match decode (BitVec.ofNat 32 (w % 2 ^ nbits)) with
  | .ok i => some i
  | .error _ => none

end Sys2Proof
end

