-- ==== Sys2Proof/Config.lean ====
section
/-! DEFINITION. What is fixed when the block is built, and the free values: the configuration record
`CFG` of `00_scope.md` R5, and the opaque constants that stand for what the spec leaves open. -/

namespace Sys2Proof

/-- The static parameters of R5. `CFG` is not state (R17). -/
structure Cfg where
  /-- `LOG2N`, log2 of the frame size. -/
  log2n : Nat
  /-- `T`, the wavetable size. -/
  t : Nat
  /-- `INTERP`: the table read is interpolated. -/
  interp : Bool
  /-- `TOLSCALE`, a value of `F`. -/
  tolscale : Word
  /-- `DUR_FREQ`, ramp 0's duration in seconds, a value of `F`. -/
  durFreq : Word
  /-- `DUR_FB`, ramp 1's duration in seconds, a value of `F`. -/
  durFb : Word
  /-- `BUFCAP`, samples per channel region of `BUF`. -/
  bufcap : Nat
  /-- `NCHMAX`, channel regions of `BUF`. -/
  nchmax : Nat
  /-- `SINTAB` (R11). -/
  sintab : Nat → Word
  /-- `HANNTAB` (R12). -/
  hanntab : Nat → Word
  /-- `SEMIPOW` (R13). -/
  semipow : Nat → Word
  /-- `FFTMAG` (R14): the `N` magnitudes of a frame of `N` values. -/
  fftmag : List Word → List Word

/-- `N = 2^LOG2N`, the frame size (R5). -/
def Cfg.n (c : Cfg) : Nat := 2 ^ c.log2n

/-- A pattern of `F` that is finite and not below zero (`-0.0` included), as R5 asks of
`TOLSCALE`, `DUR_FREQ` and `DUR_FB`. -/
def finiteNonneg (w : Word) : Bool := decide (w.toNat < 0x7F800000) || w == 0x80000000#32

/-- The constraints of R5 on the scalar parameters: a configuration that violates one is not an FBK-1.
Those on the four table and transform fields are in `Machine/Legal.lean`. -/
def Cfg.scalarsLegal (c : Cfg) : Bool :=
  decide (2 ≤ c.log2n) && decide (c.log2n ≤ 16) && decide (2 ≤ c.t) && decide (c.t ≤ 65536) &&
  finiteNonneg c.tolscale && finiteNonneg c.durFreq && finiteNonneg c.durFb &&
  decide (1 ≤ c.bufcap) && decide (c.nchmax * c.bufcap ≤ 262144) &&
  decide (1 ≤ c.nchmax) && decide (c.nchmax ≤ 15)

/-- The arithmetic primitives of R8. -/
inductive FloatOp where
  | add | sub | mul | div
  deriving DecidableEq, Repr

/-- FREE VALUE (R8, U4). The sign (bit 22) and payload (bits 21:0) of the NaN that a primitive
returns, for each primitive and each pair of operands. -/
opaque Config.nanBits : FloatOp → Word → Word → BitVec 23

/-- FREE VALUE (R14 P5, U3). The magnitude of bin `k`, `0 <= k <= N/2`, of a frame that holds a NaN
or an infinity. -/
opaque Config.nonFiniteBin : List Word → Nat → Word

/-- FREE VALUE (R42, U6, U7). The pattern that an unspecified element shows: the first argument is
the number of the draw (the model's own counter `State.draws`), the second names the element by its
word index, or by a number above the host space for an element that no port reaches. -/
opaque Config.unspecified : Nat → Nat → Word

end Sys2Proof
end

