-- ==== Sys2Proof/Machine/State.lean ====
section
/-! DEFINITION. The state of FBK-1 (`10_state.md`), as plain data, and its value after hardware reset
(R41, R260). -/

namespace Sys2Proof.Machine

/-- Why the machine stops. No condition of the block stops it: a refused command records a fault in
`STATUS` and the next command executes normally (R219, R230, R232), so there is no constructor. -/
inductive Fault : Type
  deriving DecidableEq, Repr

/-- Why a command has no meaning. -/
inductive Refusal where
  /-- Raised by an arm of `exec` for a command whose meaning is not written yet; safe, since nothing
  is claimed of it. No arm raises it: every command has its meaning. -/
  | notModelled (mnemonic : String)
  deriving DecidableEq, Repr

/-- `LC`, the lifecycle state (R22). -/
inductive Lifecycle where
  | uninitialized
  | prepared
  | processing
  | released
  deriving DecidableEq, Repr

/-- The encoding of `LC` in `STATUS[1:0]` (R22). -/
def Lifecycle.code : Lifecycle → Word
  | .uninitialized => 0#32
  | .prepared => 1#32
  | .processing => 2#32
  | .released => 3#32

/-- The four fault causes (R231). -/
inductive Cause where
  | illcmd
  | badoper
  | cviol
  | pfail
  deriving DecidableEq, Repr

/-- The cause codes of R231. -/
def Cause.code : Cause → Word
  | .illcmd => 1#32
  | .badoper => 2#32
  | .cviol => 3#32
  | .pfail => 4#32

/-- A memory of words: (index, word) pairs, indices strictly rising. An index that is not listed is
unspecified (R42): it holds no value. Words, not bytes: DESIGN CHOICE, log entry 5. -/
abbrev Memory := List (Nat × Word)

/-- The sticky bits of `STATUS` and the record of the first fault (R23, R24). -/
structure FaultRecord where
  /-- `STATUS[3]`. -/
  illcmd : Bool
  /-- `STATUS[4]`. -/
  badoper : Bool
  /-- `STATUS[5]`. -/
  cviol : Bool
  /-- `STATUS[6]`. -/
  pfail : Bool
  /-- `FAULTCMD`. -/
  cmd : Word
  /-- `FAULTCAUSE`. -/
  cause : Word
  deriving DecidableEq, Repr

/-- The five parameter cells (R28), any patterns. -/
structure Cells where
  gainOut : Word
  fbGain : Word
  offset : Word
  tol : Word
  detune : Word
  deriving DecidableEq, Repr

/-- The snapshot registers `S_*` (R29). -/
structure Snapshot where
  gainOut : Word
  fbGain : Word
  offset : Word
  tol : Word
  detune : Word
  deriving DecidableEq, Repr

/-- The analyzer's state (R30 to R33). -/
structure Analyzer where
  /-- `FIFO[0..N)`. -/
  fifo : Memory
  /-- `FIFOIDX`, of `LOG2N + 1` bits. -/
  fifoIdx : Nat
  /-- `WORK[0..2N)`; `WORK[0..N)` is `SPEC`. -/
  work : Memory
  /-- `DETFREQ`. -/
  detFreq : Word
  /-- `FRAMECNT`. -/
  frameCnt : Word
  deriving DecidableEq, Repr

/-- One ramp (R35). -/
structure Ramp where
  /-- `RCUR`. -/
  cur : Word
  /-- `RTGT`. -/
  tgt : Word
  /-- `RSTEP`. -/
  step : Word
  /-- `RREM`, a `u32`. -/
  rem : Word
  /-- `RLEN`, a `u32`. -/
  len : Word
  deriving DecidableEq, Repr

/-- The oscillator's registers (R37). -/
structure Oscillator where
  /-- `PHASE`. -/
  phase : Word
  /-- `PHASEINC`. -/
  phaseInc : Word
  deriving DecidableEq, Repr

/-- The gain state (R39). -/
structure Gain where
  /-- `CURGAIN`. -/
  cur : Word
  /-- `PREVGAIN`. -/
  prev : Word
  deriving DecidableEq, Repr

/-- An operation of the control port (R67). -/
inductive CtlOp where
  /-- `CtlWrite(c, v)`. -/
  | write (c : Nat) (v : Word)
  /-- `CtlRead(c)`. -/
  | read (c : Nat)
  deriving DecidableEq, Repr

/-- What other agents do while one command executes (R17, R68, R70). -/
structure Meanwhile where
  /-- Control operations: group `j`, counted from 0, completes just before load `j` of the
  command's `LatchParams`; groups 5 and up, and all groups of a command that does not latch, complete
  after the command's last load and before the next operation. -/
  ctl : List (List CtlOp) := []
  /-- Reads of `STATUS` by a second bus master that see the fields as they were before the command. -/
  statusEarly : Nat := 0
  /-- Reads of `STATUS` by a second bus master that see the command's lifecycle or fault update. -/
  statusLate : Nat := 0
  deriving DecidableEq, Repr

/-- One operation from outside the block. -/
inductive Event where
  /-- `HostWrite(a, v)`; a write to `CMD` executes `v` (R67). -/
  | hostWrite (a : HostAddr) (v : Word) (m : Meanwhile)
  /-- `HostRead(a)` (R66). -/
  | hostRead (a : HostAddr)
  /-- A control-port operation between two host operations (R67, R70). -/
  | ctl (op : CtlOp)
  /-- A write of `size` bytes through the byte-addressed bus wrapper (R63, R64). -/
  | busWrite (addr : ByteAddr) (size : Nat) (v : Word) (m : Meanwhile)
  /-- A read of `size` bytes through the bus wrapper (R63, R64). -/
  | busRead (addr : ByteAddr) (size : Nat)
  /-- Hardware reset (R260). -/
  | reset
  deriving DecidableEq, Repr

/-- A value that a read returned to an agent (R219). -/
inductive Output where
  /-- The result of `HostRead(a)`. -/
  | host (a : HostAddr) (v : Word)
  /-- The result of `CtlRead(c)`. -/
  | ctl (c : Nat) (v : Word)
  /-- What a second bus master read from `STATUS` while a command executed. -/
  | status (v : Word)
  /-- What the bus wrapper answered to a read it refused (R64). -/
  | busRefused (addr : ByteAddr) (v : Word)
  deriving DecidableEq, Repr

/-- The state of the block. The last four fields are the model's own (DESIGN CHOICE, log entries 2, 4
and 9). -/
structure State where
  /-- `LC` (R22). -/
  lc : Lifecycle
  /-- `BUSY`, `STATUS[2]`: a command is executing (R23). -/
  busy : Bool
  /-- The sticky bits, `FAULTCMD` and `FAULTCAUSE` (R23, R24). -/
  faults : FaultRecord
  /-- `OPA` (R20). -/
  opa : Word
  /-- `RES` (R20). -/
  res : Word
  /-- `SAMPLERATE`, a value of `F` (R25). -/
  sampleRate : Word
  /-- `MAXBLK`, a `u32` (R25). -/
  maxBlk : Word
  /-- `SR`, the latched sample rate (R26). -/
  sr : Word
  /-- `MB`, the latched maximum block size (R26). -/
  mb : Word
  /-- The parameter cells (R28). -/
  cells : Cells
  /-- The parameter snapshot (R29). -/
  snap : Snapshot
  /-- The analyzer (R30 to R33). -/
  an : Analyzer
  /-- `HANN[0..N)` (R34). -/
  hann : Memory
  /-- Ramp 0, the frequency ramp (R35). -/
  ramp0 : Ramp
  /-- Ramp 1, the feedback-gain ramp (R35). -/
  ramp1 : Ramp
  /-- The oscillator (R37). -/
  osc : Oscillator
  /-- `SINE[0..T)` (R38). -/
  sine : Memory
  /-- The gain state (R39). -/
  gain : Gain
  /-- `BUF[0 .. NCHMAX x BUFCAP)` (R40). -/
  buf : Memory
  /-- How many draws of an unspecified value have been made (R42). -/
  draws : Nat
  /-- The operations still to come from outside, the next one first (R17, R219). -/
  pending : List Event
  /-- The groups of control operations still to come during the executing command. -/
  race : List (List CtlOp)
  /-- The results of all reads so far, the latest first (R219). -/
  outputs : List Output
  deriving DecidableEq, Repr

/-- A session is open: a `PREPARE` has succeeded and no `RELEASE` or reset has followed (R216). Outside
a session every element that R41 lists as unspecified, `BUF` apart, is unspecified (R42). -/
def State.inSession (s : State) : Bool :=
  match s.lc with
  | .uninitialized => false
  | .prepared => true
  | .processing => true
  | .released => false

/-- A ramp at rest at `+0.0` with length 0. -/
def Ramp.zero : Ramp := { cur := 0#32, tgt := 0#32, step := 0#32, rem := 0#32, len := 0#32 }

/-- The machine right after hardware reset (R41, R260). The fields R41 calls unspecified hold the
values of log entry 3 (DESIGN CHOICE, unsafe), which no read shows (R42). -/
def State.reset : State where
  lc := .uninitialized
  busy := false
  faults := { illcmd := false, badoper := false, cviol := false, pfail := false, cmd := 0#32,
              cause := 0#32 }
  opa := 0#32
  res := 0#32
  sampleRate := 0#32
  maxBlk := 0#32
  sr := 0#32
  mb := 0#32
  cells := { gainOut := 0#32, fbGain := 0#32, offset := 0#32, tol := 0#32, detune := 0#32 }
  snap := { gainOut := 0#32, fbGain := 0#32, offset := 0#32, tol := 0#32, detune := 0#32 }
  an := { fifo := [], fifoIdx := 0, work := [], detFreq := 0#32, frameCnt := 0#32 }
  hann := []
  ramp0 := Ramp.zero
  ramp1 := Ramp.zero
  osc := { phase := 0#32, phaseInc := 0#32 }
  sine := []
  gain := { cur := 0#32, prev := 0#32 }
  buf := []
  draws := 0
  pending := []
  race := []
  outputs := []

end Sys2Proof.Machine
end

