-- ==== Sys2Proof/Machine/Flags.lean ====
section
/-! DEFINITION. Flags. The block has no arithmetic flags (R238); its only flag bits are the sticky
fault bits of `STATUS` (`10_state.md` R23, `60_exceptions.md` R231). -/

namespace Sys2Proof.Machine

/-- The `STATUS` bit number of a cause: `2 + code` (R231, R232). -/
def Cause.bit : Cause → Nat
  | .illcmd => 3
  | .badoper => 4
  | .cviol => 5
  | .pfail => 6

/-- The sticky bits with the bit of one cause set (R232). -/
def FaultRecord.setSticky (f : FaultRecord) : Cause → FaultRecord
  | .illcmd => { f with illcmd := true }
  | .badoper => { f with badoper := true }
  | .cviol => { f with cviol := true }
  | .pfail => { f with pfail := true }

/-- The sticky bit of one cause (R231). -/
def FaultRecord.sticky (f : FaultRecord) : Cause → Bool
  | .illcmd => f.illcmd
  | .badoper => f.badoper
  | .cviol => f.cviol
  | .pfail => f.pfail

/-- The fault record after `Fault(cause, w)`: the sticky bit is set; the first fault since reset is
also kept in `FAULTCMD` and `FAULTCAUSE` (R24, R232). -/
def FaultRecord.record (f : FaultRecord) (cause : Cause) (w : Word) : FaultRecord :=
  if f.cause = 0#32 then { f.setSticky cause with cmd := w, cause := cause.code }
  else f.setSticky cause

/-- One bit of a word, at position `k`. -/
def bitAt (b : Bool) (k : Nat) : Word := if b then 1#32 <<< k else 0#32

/-- The word read from `STATUS` (R23). -/
def statusWord (s : State) : Word :=
  s.lc.code ||| bitAt s.busy 2 ||| bitAt s.faults.illcmd 3 ||| bitAt s.faults.badoper 4 |||
    bitAt s.faults.cviol 5 ||| bitAt s.faults.pfail 6

end Sys2Proof.Machine
end

