-- ==== Sys2Proof/Machine/Float.lean ====
section
/-! DEFINITION. The value type `F` (binary32) and its primitives (`00_scope.md` R7 to R10, R15).
Every finite value is an integer number of units of `2^-149`; results are computed exactly over the
integers and rounded once, to nearest, ties to even. -/

namespace Sys2Proof.Machine

/-- `+0.0`. -/
def fZero : Word := 0x00000000#32
/-- `0.5`. -/
def fHalf : Word := 0x3F000000#32
/-- `1.0`. -/
def fOne : Word := 0x3F800000#32
/-- `50.0`. -/
def fFifty : Word := 0x42480000#32
/-- `-50.0`. -/
def fMinusFifty : Word := 0xC2480000#32

/-- The sign bit, bit 31 (R7). -/
def fSign (a : Word) : Bool := a.msb

/-- The magnitude pattern, bits 30:0. It orders the magnitudes of all non-NaN values. -/
def fMag (a : Word) : Nat := a.toNat % 2 ^ 31

/-- The magnitude pattern of the infinities. -/
def infMag : Nat := 0x7F800000

/-- `isNaN(a)` (R9). -/
def isNaN (a : Word) : Bool := decide (infMag < fMag a)

/-- `a` is an infinity. -/
def isInf (a : Word) : Bool := decide (fMag a = infMag)

/-- `isFinite(a)`: neither NaN nor infinite (R9). -/
def isFinite (a : Word) : Bool := decide (fMag a < infMag)

/-- The magnitude of a finite pattern in units of `2^-149`: subnormals and the first binade are the
pattern itself, every further binade doubles the unit (R7). -/
def magUnits (m : Nat) : Nat :=
  if m / 2 ^ 23 = 0 then m else (m % 2 ^ 23 + 2 ^ 23) * 2 ^ (m / 2 ^ 23 - 1)

/-- The value of a finite `F` in units of `2^-149`. -/
def units (a : Word) : Int := if fSign a then -(magUnits (fMag a) : Int) else (magUnits (fMag a) : Int)

/-- The number of units in `1.0`. -/
def unitsPerOne : Nat := 2 ^ 149

/-- The pattern with the given sign and magnitude pattern. -/
def packF (neg : Bool) (mag : Nat) : Word := BitVec.ofBool neg ++ BitVec.ofNat 31 mag

/-- The integer nearest to `n / d`, ties to even. -/
def divNearest (n d : Nat) : Nat :=
  if 2 * (n % d) < d then n / d
  else if d < 2 * (n % d) then n / d + 1
  else n / d + n / d % 2

/-- The binade shift of a magnitude of `u` whole units: 0 while the unit is `2^-149`. -/
def binade (u : Nat) : Nat := Nat.log2 u - 23

/-- The magnitude pattern of the `F` nearest to `n / d` units, ties to even, overflow to infinity
(R8). -/
def roundMag (n d : Nat) : Nat :=
  min (binade (n / d) * 2 ^ 23 + divNearest n (d * 2 ^ binade (n / d))) infMag

/-- The NaN a primitive returns (R8): quiet (R191, DEDUCED, log entry 6), its sign and payload
free. -/
def nanOf (op : FloatOp) (a b : Word) : Word :=
  let bits := Config.nanBits op a b
  bits.extractLsb' 22 1 ++ 0xFF#8 ++ 1#1 ++ bits.extractLsb' 0 22

/-- The sum of two values, `none` where IEEE 754 has no non-NaN result (R8). -/
def addCore (a b : Word) : Option Word :=
  if isNaN a || isNaN b then none
  else if isInf a then (if isInf b && fSign a != fSign b then none else some a)
  else if isInf b then some b
  else
    let k := units a + units b
    if k = 0 then some (packF (fSign a && fSign b) 0)
    else some (packF (decide (k < 0)) (roundMag k.natAbs 1))

/-- The value with its sign bit flipped. -/
def fneg (a : Word) : Word := a ^^^ 0x80000000#32

/-- The product, `none` where IEEE 754 has no non-NaN result (R8). -/
def mulCore (a b : Word) : Option Word :=
  let sign := fSign a != fSign b
  if isNaN a || isNaN b then none
  else if isInf a || isInf b then
    (if fMag a = 0 ∨ fMag b = 0 then none else some (packF sign infMag))
  else some (packF sign (roundMag (magUnits (fMag a) * magUnits (fMag b)) unitsPerOne))

/-- The quotient, `none` where IEEE 754 has no non-NaN result (R8). -/
def divCore (a b : Word) : Option Word :=
  let sign := fSign a != fSign b
  if isNaN a || isNaN b then none
  else if isInf a then (if isInf b then none else some (packF sign infMag))
  else if isInf b then some (packF sign 0)
  else if fMag b = 0 then (if fMag a = 0 then none else some (packF sign infMag))
  else some (packF sign (roundMag (magUnits (fMag a) * unitsPerOne) (magUnits (fMag b))))

/-- `fadd(a, b)` (R8). -/
def fadd (a b : Word) : Word := (addCore a b).getD (nanOf .add a b)

/-- `fsub(a, b)` (R8). -/
def fsub (a b : Word) : Word := (addCore a (fneg b)).getD (nanOf .sub a b)

/-- `fmul(a, b)` (R8). -/
def fmul (a b : Word) : Word := (mulCore a b).getD (nanOf .mul a b)

/-- `fdiv(a, b)` (R8). -/
def fdiv (a b : Word) : Word := (divCore a b).getD (nanOf .div a b)

/-- The order key of a value that is no NaN: the two zeros share the key 0. -/
def orderKey (a : Word) : Int := if fSign a then -(fMag a : Int) else (fMag a : Int)

/-- `feq(a, b)`: the quiet equality, false on a NaN (R9). -/
def feq (a b : Word) : Bool := !isNaN a && !isNaN b && decide (orderKey a = orderKey b)

/-- `flt(a, b)`: the quiet less-than, false on a NaN (R9). -/
def flt (a b : Word) : Bool := !isNaN a && !isNaN b && decide (orderKey a < orderKey b)

/-- `fgt(a, b)`: the quiet greater-than, false on a NaN (R9). -/
def fgt (a b : Word) : Bool := flt b a

/-- `u2f(n)`: a count as a value of `F`, to nearest even (R10). -/
def u2f (n : Nat) : Word := packF false (roundMag (n * unitsPerOne) 1)

/-- The greatest whole number not above a finite value. -/
def floorInt (a : Word) : Int := units a / (unitsPerOne : Int)

/-- `ffloor(a)` for finite `a` (R10); a result of zero keeps the sign of `a`. A non-finite `a`, for
which R10 defines nothing, is outside its use: it is applied to `PHASE` only (DESIGN CHOICE, log entry 17). -/
def ffloor (a : Word) : Word :=
  let k := floorInt a
  if k = 0 then packF (fSign a) 0 else packF (decide (k < 0)) (roundMag (k.natAbs * unitsPerOne) 1)

/-- `f2u(a)` for a finite, whole `a >= 0` (R10). -/
def f2u (a : Word) : Nat := (floorInt a).toNat

/-- `f2uFloorSat(a)` (R10): the floor of `a` as a `u32`, saturated; 0 for a NaN or a negative
value. -/
def f2uFloorSat (a : Word) : Word :=
  if isNaN a || flt a fZero then 0#32
  else if isInf a || decide (2 ^ 32 ≤ f2u a) then 0xFFFFFFFF#32
  else BitVec.ofNat 32 (f2u a)

/-- `PMOD(v)` (R10): the floored modulo by `T`, computed exactly and rounded once; a result of `T`,
a zero and a non-finite `v` give `+0.0`. -/
def pmod (t : Nat) (v : Word) : Word :=
  if !isFinite v then fZero
  else
    let r := (units v % ((t * unitsPerOne : Nat) : Int)).toNat
    let p := packF false (roundMag r 1)
    if p = u2f t then fZero else p

/-- `clampF(x, lo, hi)` (R15). -/
def clampF (x lo hi : Word) : Word :=
  if isNaN x then fZero
  else if flt x lo then lo
  else if fgt x hi then hi
  else x

/-- `clampI(x, lo, hi)` on `i32` (R15). -/
def clampI (x lo hi : Word) : Word :=
  if x.slt lo then lo else if hi.slt x then hi else x

end Sys2Proof.Machine
end

