-- ==== Sys2Proof/Machine/Tables.lean ====
section
/-! DEFINITION. The default instances of the configuration fields `SINTAB`, `HANNTAB`, `SEMIPOW` and
`FFTMAG` (`00_scope.md` R11 to R14), each correctly rounded, and the canonical configuration (R4, R5).
Sines and cosines are computed in fixed point: an integer `x` at precision `p` stands for `x / 2^p`. -/

namespace Sys2Proof.Machine

/-- The series `sum (-1)^j x^(2j+1) / (2j+1)` of `arctan (1 / m)`: `pow` is the running power. -/
def arctanSeries (m : Nat) : Nat → Nat → Nat → Int
  | 0, _, _ => 0
  | fuel + 1, k, pow =>
    if pow = 0 then 0
    else ((pow / (2 * k + 1) : Nat) : Int) - arctanSeries m fuel (k + 1) (pow / (m * m))

/-- `arctan (1 / m)` at precision `p`. -/
def arctanInv (p m : Nat) : Int := arctanSeries m (p + 1) 0 (2 ^ p / m)

/-- Pi at precision `p`, by Machin's formula `pi = 16 arctan(1/5) - 4 arctan(1/239)`. -/
def piFixed (p : Nat) : Nat := (16 * arctanInv p 5 - 4 * arctanInv p 239).toNat

/-- The alternating series of the sine and the cosine: `term` is the running term and `k` its
degree; the next term is `term x^2 / ((k+1) (k+2))`. -/
def trigSeries (p x : Nat) : Nat → Nat → Nat → Int
  | 0, _, _ => 0
  | fuel + 1, k, term =>
    if term = 0 then 0
    else (term : Int) - trigSeries p x fuel (k + 2) (term * (x * x / 2 ^ p) / 2 ^ p / ((k + 1) * (k + 2)))

/-- Sine at precision `p` of an angle `x` at precision `p`, `0 <= x <= pi / 2`. -/
def sinFixed (p x : Nat) : Int := trigSeries p x (p + 2) 1 x

/-- Cosine at precision `p` of an angle `x` at precision `p`, `0 <= x <= pi / 2`. -/
def cosFixed (p x : Nat) : Int := trigSeries p x (p + 2) 0 (2 ^ p)

/-- The guard bits the fixed-point series are computed with. -/
def guardBits : Nat := 32

/-- `(cos, sin)` of `2 pi m / d` at precision `p`. A multiple of a quarter turn is exact; every other
entry is off by less than 2 units of `2^-p`. -/
def turn (p d m : Nat) : Int × Int :=
  let w := p + guardBits
  let r := 4 * (m % d) % d
  let x := piFixed w * r / (2 * d)
  let cs : Int × Int :=
    if r = 0 then (2 ^ p, 0) else (cosFixed w x / 2 ^ guardBits, sinFixed w x / 2 ^ guardBits)
  match 4 * (m % d) / d with
  | 0 => cs
  | 1 => (-cs.2, cs.1)
  | 2 => (-cs.1, -cs.2)
  | _ => (cs.2, -cs.1)

/-- The precision the tables are computed at (DEDUCED to suffice, log entry 8). -/
def tableBits : Nat := 192

/-- `RNE` of `x / 2^p`; an exact zero gives `+0.0` (R11). -/
def roundFixed (p : Nat) (x : Int) : Word :=
  packF (decide (x < 0)) (roundMag (x.natAbs * unitsPerOne) (2 ^ p))

/-- The default `SINTAB(i) = RNE(sin(2 pi i / T))` (R11). -/
def sinTable (t i : Nat) : Word := roundFixed tableBits (turn tableBits t i).2

/-- The default `HANNTAB(n) = RNE(0.5 - 0.5 cos(2 pi n / (N - 1)))` (R12). The lower half is
computed and mirrored (P3). -/
def hannTable (n i : Nat) : Word :=
  roundFixed (tableBits + 1)
    (2 ^ tableBits - (turn tableBits (n - 1) (min i (n - 1 - i))).1)

/-- The default `SEMIPOW(k) = RNE(2^(k/12))`, the table of R13; entries 13 to 24 are twice entries 1
to 12. -/
def semiTable : List Word :=
  [0x3F800000#32, 0x3F879C7D#32, 0x3F8FACD6#32, 0x3F9837F0#32, 0x3FA14518#32, 0x3FAADC08#32,
   0x3FB504F3#32, 0x3FBFC887#32, 0x3FCB2FF5#32, 0x3FD744FD#32, 0x3FE411F0#32, 0x3FF1A1BF#32,
   0x40000000#32, 0x40079C7D#32, 0x400FACD6#32, 0x401837F0#32, 0x40214518#32, 0x402ADC08#32,
   0x403504F3#32, 0x403FC887#32, 0x404B2FF5#32, 0x405744FD#32, 0x406411F0#32, 0x4071A1BF#32,
   0x40800000#32]

/-- `SEMIPOW(k)` for `k` in 0..24 (R13). -/
def semiPow (k : Nat) : Word := semiTable.getD k fOne

/-- The greatest integer whose square is at most `v`, bit by bit from bit `bits - 1` down. -/
def isqrtFrom (v : Nat) : Nat → Nat → Nat
  | 0, acc => acc
  | b + 1, acc => isqrtFrom v b (if (acc + 2 ^ b) * (acc + 2 ^ b) ≤ v then acc + 2 ^ b else acc)

/-- The integer square root. -/
def isqrt (v : Nat) : Nat := isqrtFrom v (Nat.log2 v / 2 + 1) 0

/-- The magnitude pattern of the `F` nearest to `sqrt(v) / 2^p` units, ties to even. -/
def roundSqrt (p v : Nat) : Nat :=
  let e := binade (isqrt v / 2 ^ p)
  let f := isqrt v / 2 ^ (p + e)
  let mid := (2 * f + 1) * 2 ^ (p + e)
  let r := if 4 * v < mid * mid then f else if mid * mid < 4 * v then f + 1 else f + f % 2
  min (e * 2 ^ 23 + r) infMag

/-- The sums `(re, im, slack)` of one bin at precision `p`: the real and imaginary parts of
`sum y[n] exp(-2 pi i k n / N)` up to sign, and the sum of `|y[n]|` over the inexact table entries.
`trig` is the table of `turn p N m`. -/
def dftSums (trig : Array (Int × Int)) (n k : Nat) : Nat → List Int → Int × Int × Nat
  | _, [] => (0, 0, 0)
  | i, y :: ys =>
    let m := k * i % n
    let cs := trig.getD m (0, 0)
    let rest := dftSums trig n k (i + 1) ys
    (y * cs.1 + rest.1, y * cs.2 + rest.2.1,
      (if 4 * m % n = 0 then 0 else y.natAbs) + rest.2.2)

/-- The table of `(cos, sin)` of `2 pi m / n`, `m < n`, at precision `p`. -/
def turnTable (p n : Nat) : Array (Int × Int) := ((List.range n).map (turn p n)).toArray

/-- The rounded magnitudes of one bin at the lower and at the upper end of its interval at
precision `p`; `trig` is the table of that precision. -/
def binEnds (trig : Array (Int × Int)) (p n k : Nat) (ys : List Int) : Nat × Nat :=
  let sums := dftSums trig n k 0 ys
  let re := sums.1.natAbs
  let im := sums.2.1.natAbs
  let slack := 2 * sums.2.2
  (roundSqrt p ((re - slack) * (re - slack) + (im - slack) * (im - slack)),
   roundSqrt p ((re + slack) * (re + slack) + (im + slack) * (im + slack)))

/-- `RNE(DFTMAG(y)[k])` as a magnitude pattern: the precision is doubled until both ends of the
interval round alike. An interval still undecided at the last precision, which is beyond the
separation of the exact magnitude from any midpoint it does not equal, is an exact tie (DEDUCED, log
entry 7). -/
def binMag (n k : Nat) (ys : List Int) : Nat → Nat → Array (Int × Int) → Nat
  | 0, p, trig =>
    let ends := binEnds trig p n k ys
    if ends.1 = ends.2 ∨ ends.1 % 2 = 0 then ends.1 else ends.2
  | fuel + 1, p, trig =>
    let ends := binEnds trig p n k ys
    if ends.1 = ends.2 then ends.1 else binMag n k ys fuel (2 * p) (turnTable (2 * p) n)

/-- How often the precision may double from `64` bits: `64 x 2^20` bits exceed the separation bound
for every legal `N`. -/
def binFuel : Nat := 20

/-- Bins `0..N/2` (R14): correctly rounded for a finite frame (P4), free for a frame with a NaN or an
infinity (P5). -/
def fftHalf (n : Nat) (ys : List Word) : List Word :=
  if ys.all isFinite then
    let us := ys.map units
    let trig := turnTable 64 n
    (List.range (n / 2 + 1)).map (fun k => packF false (binMag n k us binFuel 64 trig))
  else (List.range (n / 2 + 1)).map (Config.nonFiniteBin ys)

/-- The default `FFTMAG` (R14): bins `0..N/2` are computed, the others are bit copies of their
mirrors (P3). -/
def fftMag (n : Nat) (ys : List Word) : List Word :=
  let half := fftHalf n ys
  (List.range n).map (fun k => half.getD (if k ≤ n / 2 then k else n - k) fZero)

/-- A configuration with the default table and transform instances of R11 to R14. -/
def cfgWith (log2n t : Nat) (interp : Bool) (tolscale durFreq durFb : Word) (bufcap nchmax : Nat) :
    Cfg where
  log2n := log2n
  t := t
  interp := interp
  tolscale := tolscale
  durFreq := durFreq
  durFb := durFb
  bufcap := bufcap
  nchmax := nchmax
  sintab := sinTable t
  hanntab := hannTable (2 ^ log2n)
  semipow := semiPow
  fftmag := fftMag (2 ^ log2n)

/-- The canonical configuration: the default column of R5 (R4). -/
def canonical : Cfg :=
  cfgWith 12 1024 true 0x437A0000#32 0x3CCCCCCD#32 0x3BA3D70A#32 8192 2

/-- The configuration this block is built with: the canonical one (R4; DEDUCED, log entry 1). -/
def cfg : Cfg := canonical

end Sys2Proof.Machine
end

