-- ==== Sys2Proof/Machine/Operands.lean ====
section
/-! DEFINITION. Operand forms (`30_encoding.md` R91, R94): the ramp selector, the channel count, the
block length, and the arguments `PREPARE` takes from registers; each with the range the command checks. The
scalar operand of a unit-level command is the register `OPA`, read in place. -/

namespace Sys2Proof.Machine

/-- The ramp a selector names: 0 the frequency ramp, 1 the feedback-gain ramp (R145). The range check
stands before every use. -/
def State.ramp (s : State) (r : Nat) : Ramp := if r = 0 then s.ramp0 else s.ramp1

/-- The state with the ramp a selector names replaced. -/
def State.withRamp (s : State) (r : Nat) (x : Ramp) : State :=
  if r = 0 then { s with ramp0 := x } else { s with ramp1 := x }

/-- `DUR[r]` (`43_ramp.md`, header; R5). -/
def durOf (c : Cfg) (r : Nat) : Word := if r = 0 then c.durFreq else c.durFb

/-- `0 <= r <= 1` (R94). -/
def rampInRange (r : Nat) : Bool := decide (r ≤ 1)

/-- `1 <= nch <= NCHMAX` (R94). -/
def channelsInRange (c : Cfg) (nch : Nat) : Bool := decide (1 ≤ nch) && decide (nch ≤ c.nchmax)

/-- `0 <= len <= MB` (R94). -/
def lenInRange (s : State) (len : Nat) : Bool := decide (len ≤ s.mb.toNat)

/-- The checks of `PREPARE` on `SAMPLERATE` and `MAXBLK` (R211). -/
def prepareArgsOk (c : Cfg) (s : State) : Bool :=
  isFinite s.sampleRate && fgt s.sampleRate fZero &&
    (decide (1 ≤ s.maxBlk.toNat) && decide (s.maxBlk.toNat ≤ c.bufcap))

end Sys2Proof.Machine
end

