-- ==== Sys2Proof/Machine/Ops.lean ====
section
/-! DEFINITION. The named operations the commands are made of: memories, the fault record, the
parameter latch, the analyzer, the estimator, the ramps, the oscillator, the sample step, the gain
stage, and the effects of `PREPARE` and `RELEASE`. Each takes the configuration `c` it works for. -/

namespace Sys2Proof.Machine

/-! ## Memories -/

/-- The word listed at an index, `none` where the element is unspecified (R42). -/
def Memory.look : Memory → Nat → Option Word
  | [], _ => none
  | (b, w) :: m, a => if b = a then some w else Memory.look m a

/-- One element written. -/
def Memory.put : Memory → Nat → Word → Memory
  | [], a, v => [(a, v)]
  | (b, w) :: m, a, v =>
    if a < b then (a, v) :: (b, w) :: m
    else if a = b then (a, v) :: m
    else (b, w) :: Memory.put m a v

/-- The memory that holds the given words from index `a` on and nothing else. -/
def Memory.ofWords : Nat → List Word → Memory
  | _, [] => []
  | a, v :: vs => (a, v) :: Memory.ofWords (a + 1) vs

/-- The memory whose elements `0..n-1` are given by a table, and nothing else. -/
def Memory.ofTable (n : Nat) (f : Nat → Word) : Memory := Memory.ofWords 0 ((List.range n).map f)

/-- The canonical form of a memory: its indices rise strictly. -/
abbrev Memory.wf (m : Memory) : Prop := (m.map Prod.fst).Pairwise (· < ·)

/-- The numbers that name elements to `Config.unspecified`: their host word index (R62), or a number
above the host space for what no port reaches (R60). -/
def specBase : Nat := 0x10000
/-- The first word index of the `SINE` window (R62). -/
def sineBase : Nat := 0x20000
/-- The first word index of the `HANN` window (R62). -/
def hannBase : Nat := 0x30000
/-- The first word index of `BUF` (R62). -/
def bufBase : Nat := 0x40000
/-- The name of `FIFO[0]`, above the host space. -/
def fifoBase : Nat := 0x80000
/-- The name of `SR`, above the host space. -/
def srName : Nat := 0xA0000
/-- The name of `MB`, above the host space. -/
def mbName : Nat := 0xA0001

/-- The value a command reads from an element of a memory: what is listed, or the pattern that an
unspecified element shows at the current draw (R42; DESIGN CHOICE, log entry 19). -/
def elemOf (s : State) (m : Memory) (base i : Nat) : Word :=
  (m.look i).getD (Config.unspecified s.draws (base + i))

/-- `BUF[j]` as a command reads it (R40, R42). -/
def bufElem (s : State) (j : Nat) : Word := elemOf s s.buf bufBase j

/-- The `n` elements of a memory from index 0 on, as a command reads them. -/
def elemsOf (s : State) (m : Memory) (base n : Nat) : List Word :=
  (List.range n).map (elemOf s m base)

/-! ## Taking a fault -/

/-- `Fault(cause, w)` (R232): the one thing a refused command does. There is no handler, no saved
position and no return (R230, R234). -/
def recordFault (cause : Cause) (w : Word) (s : State) : State :=
  { s with faults := s.faults.record cause w }

/-- Steps 3, 4, 6 and 7 of R92 for a streaming command (R214): the lifecycle check, the operand check,
the move to Processing, the command's own effect. -/
def streaming (i : Instr) (inRange : Bool) (effect : State → State) (s : State) :
    Host.Outcome State Fault Refusal :=
  if !s.inSession then .next (recordFault .cviol (encode i) s)
  else if !inRange then .next (recordFault .badoper (encode i) s)
  else .next (effect { s with lc := .processing })

/-- A command's result: `RES <- v` (R20). -/
def setRes (v : Word) (s : State) : State := { s with res := v }

/-! ## The parameter cells and their latch -/

/-- The cells with cell `c` of 0..4 written; other indices do not exist (R67). -/
def Cells.write (x : Cells) (c : Nat) (v : Word) : Cells :=
  match c with
  | 0 => { x with gainOut := v }
  | 1 => { x with fbGain := v }
  | 2 => { x with offset := v }
  | 3 => { x with tol := v }
  | 4 => { x with detune := v }
  | _ => x

/-- Cell `c` of 0..4; an index that does not exist reads 0 (R67). -/
def Cells.read (x : Cells) (c : Nat) : Word :=
  match c with
  | 0 => x.gainOut
  | 1 => x.fbGain
  | 2 => x.offset
  | 3 => x.tol
  | 4 => x.detune
  | _ => 0#32

/-- One operation of the control port (R67). -/
def ctlApply (s : State) : CtlOp → State
  | .write c v => { s with cells := s.cells.write c v }
  | .read c => { s with outputs := .ctl c (s.cells.read c) :: s.outputs }

/-- The control operations of the next group complete (R70 (c)). -/
def raceSlot (s : State) : State :=
  match s.race with
  | [] => s
  | group :: rest => group.foldl ctlApply { s with race := rest }

/-- All control operations of the command that have not completed yet complete (R68, R70). -/
def raceRest (s : State) : State := s.race.flatten.foldl ctlApply { s with race := [] }

/-- The snapshot of five loaded cells (R181). -/
def clampCells (x : Cells) : Snapshot where
  gainOut := clampF x.gainOut fZero fOne
  fbGain := clampF x.fbGain fZero fOne
  offset := clampI x.offset 0#32 24#32
  tol := clampF x.tol fZero fOne
  detune := clampF x.detune fMinusFifty fFifty

/-- `LatchParams()` (R181): five separate loads in this order, a group of control operations just
before each. -/
def latchParams (s : State) : State :=
  let s0 := raceSlot s
  let s1 := raceSlot s0
  let s2 := raceSlot s1
  let s3 := raceSlot s2
  let s4 := raceSlot s3
  { s4 with
    snap := clampCells
      { gainOut := s0.cells.gainOut, fbGain := s1.cells.fbGain, offset := s2.cells.offset,
        tol := s3.cells.tol, detune := s4.cells.detune } }

/-! ## Ramps -/

/-- `RampReset(r)` (R141) for a ramp of duration `dur`. -/
def Ramp.reset (dur sr : Word) (x : Ramp) : Ramp where
  cur := x.tgt
  tgt := x.tgt
  step := fZero
  rem := 0#32
  len := f2uFloorSat (fmul dur sr)

/-- `RampSetTarget(r, v)` (R142). -/
def Ramp.setTarget (v : Word) (x : Ramp) : Ramp :=
  if feq v x.tgt then x
  else if x.len = 0#32 then { x with tgt := v, cur := v, step := fZero, rem := 0#32 }
  else { x with tgt := v, step := fdiv (fsub v x.cur) (u2f x.len.toNat), rem := x.len }

/-- `RampNext(r)` (R143); the value it returns is the new `RCUR`. -/
def Ramp.next (x : Ramp) : Ramp :=
  if x.rem = 0#32 then x
  else if x.rem - 1#32 = 0#32 then { x with rem := 0#32, cur := x.tgt }
  else { x with rem := x.rem - 1#32, cur := fadd x.cur x.step }

/-! ## Estimator -/

/-- The scan of R131 over the bins from index `k` on, with the running index and maximum. -/
def scanBins : List Word → Nat → Nat → Word → Nat × Word
  | [], _, idx, mx => (idx, mx)
  | v :: vs, k, idx, mx =>
    if fgt v mx then scanBins vs (k + 1) k v else scanBins vs (k + 1) idx mx

/-- The winning bin and its magnitude: the scan starts at bin 0 (R131). -/
def peakOf : List Word → Nat × Word
  | [] => (0, fZero)
  | v :: vs => scanBins vs 1 0 v

/-- The frequency of a bin: `(idx / (N - 1)) x SR` (R131). -/
def binFreq (c : Cfg) (sr : Word) (idx : Nat) : Word := fmul (fdiv (u2f idx) (u2f (c.n - 1))) sr

/-- `Estimate(tol)` on a spectrum (R131). -/
def estimateOn (c : Cfg) (sr tol : Word) (spec : List Word) : Word :=
  if fgt (peakOf spec).2 (fmul tol c.tolscale) then binFreq c sr (peakOf spec).1 else fZero

/-- `SPEC[0..N)` as a command reads it (R31). -/
def specBins (c : Cfg) (s : State) : List Word := elemsOf s s.an.work specBase c.n

/-- `Estimate(tol)` (R131). -/
def estimate (c : Cfg) (tol : Word) (s : State) : Word := estimateOn c s.sr tol (specBins c s)

/-! ## Analyzer -/

/-- The windowed frame: one `fmul` per element (R113 steps 1 and 2). -/
def windowed (c : Cfg) (s : State) : List Word :=
  (List.range c.n).map
    (fun n => fmul (elemOf s s.an.fifo fifoBase n) (elemOf s s.hann hannBase n))

/-- `Transform()` (R113): `WORK[0..N)` holds the magnitudes, `WORK[N..2N)` is unspecified, that is,
not listed (DEDUCED, log entry 12). The copy and the zeroed tail of step 1 are overwritten within the
operation. -/
def transform (c : Cfg) (s : State) : State :=
  { s with an := { s.an with work := Memory.ofWords 0 (c.fftmag (windowed c s)) } }

/-- `FrameReady()` (R112). -/
def frameReady (c : Cfg) (s : State) : State :=
  let s1 := transform c s
  let s2 := { s1 with an := { s1.an with fifoIdx := 0, frameCnt := s1.an.frameCnt + 1#32 } }
  let d := estimate c s2.snap.tol s2
  let s3 := { s2 with an := { s2.an with detFreq := d } }
  if feq d fZero then s3 else { s3 with ramp0 := s3.ramp0.setTarget d }

/-- The sample stored at the cursor and the cursor, of `LOG2N + 1` bits, advanced (R111, R30). -/
def storeSample (c : Cfg) (x : Word) (s : State) : State :=
  { s with an := { s.an with
      fifo := s.an.fifo.put s.an.fifoIdx x
      fifoIdx := (s.an.fifoIdx + 1) % 2 ^ (c.log2n + 1) } }

/-- `AnalyzerPush(x)` (R111). -/
def analyzerPush (c : Cfg) (x : Word) (s : State) : State :=
  let s1 := storeSample c x s
  if s1.an.fifoIdx = c.n then frameReady c s1 else s1

/-! ## Oscillator -/

/-- `AppliedFreq(f)` (R161). -/
def appliedFreq (c : Cfg) (f : Word) (s : State) : Word :=
  fadd (fmul f (c.semipow s.snap.offset.toNat)) s.snap.detune

/-- The increment `(fa x T) / SR` (R162). -/
def phaseIncrement (c : Cfg) (sr fa : Word) : Word := fdiv (fmul fa (u2f c.t)) sr

/-- The table value `OscNext` returns, read at the phase before the advance (R162, R166). -/
def oscOutput (c : Cfg) (s : State) : Word :=
  let fl := ffloor s.osc.phase
  let i0 := f2u fl
  let v0 := elemOf s s.sine sineBase i0
  let v1 := elemOf s s.sine sineBase ((i0 + 1) % c.t)
  if c.interp then fadd v0 (fmul (fsub s.osc.phase fl) (fsub v1 v0)) else v0

/-- The increment and the phase `OscNext(fa)` leaves (R162). -/
def oscAdvance (c : Cfg) (fa : Word) (s : State) : State :=
  let inc := phaseIncrement c s.sr fa
  { s with osc := { phase := pmod c.t (fadd s.osc.phase inc), phaseInc := inc } }

/-! ## Block processor -/

/-- Both ramps advanced by one step, ramp 0 first (R184 step 2). -/
def rampsNext (s : State) : State := { s with ramp0 := s.ramp0.next, ramp1 := s.ramp1.next }

/-- The mix `fadd(x, fmul(o, fmul(g, 0.5)))` (R183). -/
def mix (x o g : Word) : Word := fadd x (fmul o (fmul g fHalf))

/-- `SampleStep(x)` (R184): the state it leaves and the sample it returns. -/
def sampleStep (c : Cfg) (x : Word) (s : State) : State × Word :=
  let s1 := analyzerPush c x s
  let s2 := rampsNext s1
  let fa := appliedFreq c s2.ramp0.cur s2
  (oscAdvance c fa s2, mix x (oscOutput c s2) s2.ramp1.cur)

/-- `BUF[j] <- v` (R40). -/
def setBuf (j : Nat) (v : Word) (s : State) : State := { s with buf := s.buf.put j v }

/-- The sample loop of R189 over `k` samples from index `i` on, in place and in order. -/
def sampleLoop (c : Cfg) : Nat → Nat → State → State
  | 0, _, s => s
  | k + 1, i, s =>
    let r := sampleStep c (bufElem s i) s
    sampleLoop c k (i + 1) (setBuf i r.2 r.1)

/-- The flat multiply of R186 over `k` samples from index `i` on. -/
def scaleFlat (g : Word) : Nat → Nat → State → State
  | 0, _, s => s
  | k + 1, i, s => scaleFlat g k (i + 1) (setBuf i (fmul (bufElem s i) g) s)

/-- The gain ramp of R186 over `k` samples from index `i` on; `gg` is the accumulated multiplier. -/
def scaleRamp (inc : Word) : Nat → Nat → Word → State → State
  | 0, _, _, s => s
  | k + 1, i, gg, s =>
    scaleRamp inc k (i + 1) (fadd gg inc) (setBuf i (fmul (bufElem s i) gg) s)

/-- `GainStage(len)` (R186). -/
def gainStage (len : Nat) (s : State) : State :=
  let cur := s.snap.gainOut
  let prev := s.gain.prev
  let s1 := { s with gain := { s.gain with cur := cur } }
  if len = 0 then s1
  else if feq cur prev then scaleFlat cur len 0 s1
  else
    let inc := fdiv (fsub cur prev) (u2f len)
    let s2 := scaleRamp inc len 0 prev s1
    { s2 with gain := { s2.gain with prev := cur } }

/-- `k` elements of `BUF` from index `j` on set to `+0.0`. -/
def clearRun : Nat → Nat → State → State
  | 0, _, s => s
  | k + 1, j, s => clearRun k (j + 1) (setBuf j fZero s)

/-- The first `len` samples of `k` channels from channel `ch` on set to `+0.0`. -/
def clearChannels (c : Cfg) (len : Nat) : Nat → Nat → State → State
  | 0, _, s => s
  | k + 1, ch, s => clearChannels c len k (ch + 1) (clearRun len (ch * c.bufcap) s)

/-- `ClearExtra(nch, len)` (R188): channels 1 to `nch - 1`. -/
def clearExtra (c : Cfg) (nch len : Nat) (s : State) : State := clearChannels c len (nch - 1) 1 s

/-- The body of `PROCESS nch, len` (R189). -/
def processBlock (c : Cfg) (nch len : Nat) (s : State) : State :=
  let s1 := latchParams s
  let s2 := { s1 with ramp1 := s1.ramp1.setTarget s1.snap.fbGain }
  clearExtra c nch len (gainStage len (sampleLoop c len 0 s2))

/-! ## Lifecycle -/

/-- A ramp as `PREPARE` leaves it: target `+0.0`, then `RampReset` (R211). -/
def preparedRamp (dur sr : Word) (x : Ramp) : Ramp := Ramp.reset dur sr { x with tgt := fZero }

/-- The effect of a `PREPARE` that passes its checks (R211). -/
def prepareEffect (c : Cfg) (s : State) : State :=
  let s1 := latchParams
    { s with
      sr := s.sampleRate
      mb := s.maxBlk
      sine := Memory.ofTable c.t c.sintab
      hann := Memory.ofTable c.n c.hanntab
      an := { fifo := Memory.ofTable c.n (fun _ => fZero), fifoIdx := 0,
              work := Memory.ofTable (2 * c.n) (fun _ => fZero), detFreq := fZero,
              frameCnt := 0#32 }
      ramp0 := preparedRamp c.durFreq s.sampleRate s.ramp0
      ramp1 := preparedRamp c.durFb s.sampleRate s.ramp1
      osc := { phase := fZero, phaseInc := fZero } }
  { s1 with gain := { cur := s1.snap.gainOut, prev := s1.snap.gainOut }, lc := .prepared }

/-- A ramp whose five registers, named from `name` on, are unspecified. -/
def unspecifiedRamp (draw name : Nat) : Ramp where
  cur := Config.unspecified draw name
  tgt := Config.unspecified draw (name + 1)
  step := Config.unspecified draw (name + 2)
  rem := Config.unspecified draw (name + 3)
  len := Config.unspecified draw (name + 4)

/-- Every element that R41 lists as unspecified, `BUF` apart, becomes unspecified (R213): a register
takes a free value, a memory lists nothing (DESIGN CHOICE, log entry 10). -/
def discardContext (c : Cfg) (s : State) : State :=
  let u := Config.unspecified s.draws
  { s with
    sr := u srName
    mb := u mbName
    snap := { gainOut := u 0x38, fbGain := u 0x39, offset := u 0x3A, tol := u 0x3B, detune := u 0x3C }
    an := { fifo := [], fifoIdx := (u 0x20).toNat % 2 ^ (c.log2n + 1), work := [], detFreq := u 0x22,
            frameCnt := u 0x21 }
    hann := []
    ramp0 := unspecifiedRamp s.draws 0x28
    ramp1 := unspecifiedRamp s.draws 0x30
    osc := { phase := u 0x23, phaseInc := u 0x24 }
    sine := []
    gain := { cur := u 0x25, prev := u 0x26 }
    draws := s.draws + 1 }

/-- The effect of `RELEASE` (R213). A second `RELEASE` changes nothing more: what is unspecified
stays so. -/
def releaseEffect (c : Cfg) (s : State) : State :=
  match s.lc with
  | .uninitialized => { discardContext c s with lc := .released }
  | .prepared => { discardContext c s with lc := .released }
  | .processing => { discardContext c s with lc := .released }
  | .released => s

/-- The state after hardware reset is asserted (R260): reset values, the operations still to come and
the results already read kept, and a fresh draw for what is unspecified (DESIGN CHOICE, log entry 11). -/
def resetEffect (s : State) : State :=
  { State.reset with draws := s.draws + 1, pending := s.pending, outputs := s.outputs }

end Sys2Proof.Machine
end

