-- ==== Sys2Proof/Machine/Analysis.lean ====
section
/-! DEFINITION. The meanings of `PUSH` (`41_analyzer.md`) and `ESTIMATE` (`42_estimator.md`). -/

namespace Sys2Proof.Machine

/-- `PUSH` for a configuration (R115). -/
def pushCmd (c : Cfg) (s : State) : Host.Outcome State Fault Refusal :=
  streaming .push true (fun s => analyzerPush c s.opa s) s

/-- `PUSH` (R115). -/
def execPush (s : State) : Host.Outcome State Fault Refusal := pushCmd cfg s

/-- `ESTIMATE` for a configuration (R133). -/
def estimateCmd (c : Cfg) (s : State) : Host.Outcome State Fault Refusal :=
  streaming .estimate true (fun s => setRes (estimate c s.snap.tol s) s) s

/-- `ESTIMATE` (R133). -/
def execEstimate (s : State) : Host.Outcome State Fault Refusal := estimateCmd cfg s

end Sys2Proof.Machine
end

