-- ==== Sys2Proof/Machine/Block.lean ====
section
/-! DEFINITION. The meanings of `LATCH`, `SAMPLE`, `GAINSTG` and `PROCESS` (`45_block.md`). -/

namespace Sys2Proof.Machine

/-- `LATCH` (R182). -/
def execLatch (s : State) : Host.Outcome State Fault Refusal := streaming .latch true latchParams s

/-- `SAMPLE` for a configuration (R185). -/
def sampleCmd (c : Cfg) (s : State) : Host.Outcome State Fault Refusal :=
  streaming .sample true (fun s => let r := sampleStep c s.opa s; setRes r.2 r.1) s

/-- `SAMPLE` (R185). -/
def execSample (s : State) : Host.Outcome State Fault Refusal := sampleCmd cfg s

/-- `GAINSTG len` (R187). -/
def execGainstg (len : Nat) (s : State) : Host.Outcome State Fault Refusal :=
  streaming (.gainstg len) (lenInRange s len) (gainStage len) s

/-- `PROCESS nch, len` for a configuration (R189). -/
def processCmd (c : Cfg) (nch len : Nat) (s : State) : Host.Outcome State Fault Refusal :=
  streaming (.process nch len) (channelsInRange c nch && lenInRange s len)
    (processBlock c nch len) s

/-- `PROCESS nch, len` (R189). -/
def execProcess (nch len : Nat) (s : State) : Host.Outcome State Fault Refusal :=
  processCmd cfg nch len s

end Sys2Proof.Machine
end

