-- ==== Sys2Proof/Machine/Lifecycle.lean ====
section
/-! DEFINITION. The meanings of `NOP`, `PREPARE` and `RELEASE` (`46_lifecycle.md`). -/

namespace Sys2Proof.Machine

/-- `NOP` (R210): nothing, in every lifecycle state. -/
def execNop (s : State) : Host.Outcome State Fault Refusal := .next s

/-- `PREPARE` for a configuration (R211, R92 step 5). -/
def prepareCmd (c : Cfg) (s : State) : Host.Outcome State Fault Refusal :=
  if prepareArgsOk c s then .next (prepareEffect c s)
  else .next (recordFault .pfail (encode .prepare) s)

/-- `PREPARE` (R211). -/
def execPrepare (s : State) : Host.Outcome State Fault Refusal := prepareCmd cfg s

/-- `RELEASE` for a configuration (R213). -/
def releaseCmd (c : Cfg) (s : State) : Host.Outcome State Fault Refusal := .next (releaseEffect c s)

/-- `RELEASE` (R213). -/
def execRelease (s : State) : Host.Outcome State Fault Refusal := releaseCmd cfg s

end Sys2Proof.Machine
end

