-- ==== Sys2Proof/Machine/OscillatorCmds.lean ====
section
/-! DEFINITION. The meanings of `AFREQ` and `OSCNEXT` (`44_oscillator.md`). -/

namespace Sys2Proof.Machine

/-- `AFREQ` for a configuration (R163). -/
def afreqCmd (c : Cfg) (s : State) : Host.Outcome State Fault Refusal :=
  streaming .afreq true (fun s => setRes (appliedFreq c s.opa s) s) s

/-- `AFREQ` (R163). -/
def execAfreq (s : State) : Host.Outcome State Fault Refusal := afreqCmd cfg s

/-- `OSCNEXT` for a configuration (R164): `OPA` is the applied frequency as given. -/
def oscnextCmd (c : Cfg) (s : State) : Host.Outcome State Fault Refusal :=
  streaming .oscnext true (fun s => setRes (oscOutput c s) (oscAdvance c s.opa s)) s

/-- `OSCNEXT` (R164). -/
def execOscnext (s : State) : Host.Outcome State Fault Refusal := oscnextCmd cfg s

end Sys2Proof.Machine
end

