-- ==== Sys2Proof/Machine/RampCmds.lean ====
section
/-! DEFINITION. The meanings of `RRESET`, `RSET` and `RNEXT` (`43_ramp.md`). -/

namespace Sys2Proof.Machine

/-- `RRESET r` for a configuration (R146): the latched `SR` and the ramp's `DUR[r]`. -/
def rresetCmd (c : Cfg) (r : Nat) (s : State) : Host.Outcome State Fault Refusal :=
  streaming (.rreset r) (rampInRange r)
    (fun s => s.withRamp r (Ramp.reset (durOf c r) s.sr (s.ramp r))) s

/-- `RRESET r` (R146). -/
def execRreset (r : Nat) (s : State) : Host.Outcome State Fault Refusal := rresetCmd cfg r s

/-- `RSET r` (R147): the target is `OPA`, not clamped. -/
def execRset (r : Nat) (s : State) : Host.Outcome State Fault Refusal :=
  streaming (.rset r) (rampInRange r)
    (fun s => s.withRamp r (Ramp.setTarget s.opa (s.ramp r))) s

/-- `RNEXT r` (R148): `RES` takes the advanced value. -/
def execRnext (r : Nat) (s : State) : Host.Outcome State Fault Refusal :=
  streaming (.rnext r) (rampInRange r)
    (fun s => setRes (s.ramp r).next.cur (s.withRamp r (s.ramp r).next)) s

end Sys2Proof.Machine
end

