-- ==== Sys2Proof/Machine/Dispatch.lean ====
section
/-! DEFINITION. The meaning of each command (`30_encoding.md` R92, R93). -/

namespace Sys2Proof.Machine

/-- Steps 3 to 7 of R92 for a decoded command. -/
def exec (i : Instr) (s : State) : Host.Outcome State Fault Refusal :=
  match i with
  | .nop => Sys2Proof.Machine.execNop s
  | .prepare => Sys2Proof.Machine.execPrepare s
  | .release => Sys2Proof.Machine.execRelease s
  | .process nch len => Sys2Proof.Machine.execProcess nch len s
  | .latch => Sys2Proof.Machine.execLatch s
  | .push => Sys2Proof.Machine.execPush s
  | .estimate => Sys2Proof.Machine.execEstimate s
  | .rreset r => Sys2Proof.Machine.execRreset r s
  | .rset r => Sys2Proof.Machine.execRset r s
  | .rnext r => Sys2Proof.Machine.execRnext r s
  | .afreq => Sys2Proof.Machine.execAfreq s
  | .oscnext => Sys2Proof.Machine.execOscnext s
  | .sample => Sys2Proof.Machine.execSample s
  | .gainstg len => Sys2Proof.Machine.execGainstg len s

end Sys2Proof.Machine
end

