-- ==== Sys2Proof/Machine/Commands.lean ====
section
/-! DEFINITION. The commands of a block built with any configuration (`00_scope.md` R5, `30_encoding.md`
R92). `exec` of `Dispatch.lean` is the same for the configuration of R4, see `execFor_cfg`. -/

namespace Sys2Proof.Machine

/-- Steps 3 to 7 of R92 for a decoded command, in a block built with configuration `c`. The commands that
read no static parameter have one meaning for every configuration. -/
def execFor (c : Cfg) (i : Instr) (s : State) : Host.Outcome State Fault Refusal :=
  match i with
  | .nop => execNop s
  | .prepare => prepareCmd c s
  | .release => releaseCmd c s
  | .process nch len => processCmd c nch len s
  | .latch => execLatch s
  | .push => pushCmd c s
  | .estimate => estimateCmd c s
  | .rreset r => rresetCmd c r s
  | .rset r => execRset r s
  | .rnext r => execRnext r s
  | .afreq => afreqCmd c s
  | .oscnext => oscnextCmd c s
  | .sample => sampleCmd c s
  | .gainstg len => execGainstg len s

end Sys2Proof.Machine
end

