-- ==== Sys2Proof/Machine/Port.lean ====
section
/-! DEFINITION. The ports (`20_memory.md`): the host register map, host and control accesses, the bus
wrapper, and the execution of one command word written to `CMD`. -/

namespace Sys2Proof.Machine

/-- The elements of the host register space (R62). -/
inductive HostElem where
  | cmd
  | status
  | opa
  | res
  | sampleRate
  | maxBlk
  | faultCmd
  | faultCause
  | ident
  | capN
  | capT
  | capBuf
  | capCh
  /-- Parameter cell 0..4. -/
  | cell (c : Nat)
  /-- A register of the debug view, by its word index `0x20` to `0x3C`. -/
  | debug (a : Nat)
  | spec (k : Nat)
  | sine (i : Nat)
  | hann (n : Nat)
  | buf (j : Nat)
  | unmapped
  deriving DecidableEq, Repr

/-- The word indices of the debug registers (R62). -/
def debugIndices : List Nat :=
  [0x20, 0x21, 0x22, 0x23, 0x24, 0x25, 0x26, 0x28, 0x29, 0x2A, 0x2B, 0x2C, 0x30, 0x31, 0x32, 0x33,
   0x34, 0x38, 0x39, 0x3A, 0x3B, 0x3C]

/-- The element at a word index from `0x10000` on: the windows, as far as they are populated (R62,
R69). -/
def windowElem (c : Cfg) (a : Nat) : HostElem :=
  if specBase ≤ a ∧ a < specBase + c.n then .spec (a - specBase)
  else if sineBase ≤ a ∧ a < sineBase + c.t then .sine (a - sineBase)
  else if hannBase ≤ a ∧ a < hannBase + c.n then .hann (a - hannBase)
  else if bufBase ≤ a ∧ a < bufBase + c.nchmax * c.bufcap then .buf (a - bufBase)
  else .unmapped

/-- The host register map (R62). -/
def hostElem (c : Cfg) (a : Nat) : HostElem :=
  match a with
  | 0x00 => .cmd
  | 0x01 => .status
  | 0x02 => .opa
  | 0x03 => .res
  | 0x04 => .sampleRate
  | 0x05 => .maxBlk
  | 0x06 => .faultCmd
  | 0x07 => .faultCause
  | 0x08 => .ident
  | 0x09 => .capN
  | 0x0A => .capT
  | 0x0B => .capBuf
  | 0x0C => .capCh
  | 0x10 => .cell 0
  | 0x11 => .cell 1
  | 0x12 => .cell 2
  | 0x13 => .cell 3
  | 0x14 => .cell 4
  | a => if a ∈ debugIndices then .debug a else windowElem c a

/-- The content of a debug register (R62). -/
def debugValue (s : State) (a : Nat) : Word :=
  match a with
  | 0x20 => BitVec.ofNat 32 s.an.fifoIdx
  | 0x21 => s.an.frameCnt
  | 0x22 => s.an.detFreq
  | 0x23 => s.osc.phase
  | 0x24 => s.osc.phaseInc
  | 0x25 => s.gain.cur
  | 0x26 => s.gain.prev
  | 0x28 => s.ramp0.cur
  | 0x29 => s.ramp0.tgt
  | 0x2A => s.ramp0.step
  | 0x2B => s.ramp0.rem
  | 0x2C => s.ramp0.len
  | 0x30 => s.ramp1.cur
  | 0x31 => s.ramp1.tgt
  | 0x32 => s.ramp1.step
  | 0x33 => s.ramp1.rem
  | 0x34 => s.ramp1.len
  | 0x38 => s.snap.gainOut
  | 0x39 => s.snap.fbGain
  | 0x3A => s.snap.offset
  | 0x3B => s.snap.tol
  | 0x3C => s.snap.detune
  | _ => 0#32

/-- An element that R41 lists as unspecified: it has its content in a session only (R42). -/
def sessionOnly (s : State) (v : Option Word) : Option Word := if s.inSession then v else none

/-- The pattern of an element, `none` where it is unspecified (R42, R66). -/
def elemContent (c : Cfg) (s : State) : HostElem → Option Word
  | .cmd => some 0#32
  | .status => some (statusWord s)
  | .opa => some s.opa
  | .res => some s.res
  | .sampleRate => some s.sampleRate
  | .maxBlk => some s.maxBlk
  | .faultCmd => some s.faults.cmd
  | .faultCause => some s.faults.cause
  | .ident => some 0x46424B31#32
  | .capN => some (BitVec.ofNat 32 c.n)
  | .capT => some (BitVec.ofNat 32 c.t)
  | .capBuf => some (BitVec.ofNat 32 c.bufcap)
  | .capCh => some (BitVec.ofNat 32 c.nchmax)
  | .cell k => some (s.cells.read k)
  | .debug a => sessionOnly s (some (debugValue s a))
  | .spec k => sessionOnly s (s.an.work.look k)
  | .sine i => sessionOnly s (s.sine.look i)
  | .hann n => sessionOnly s (s.hann.look n)
  | .buf j => s.buf.look j
  | .unmapped => some 0#32

/-- `HostRead(a)` (R66). An unspecified element shows any pattern, possibly another at each read
(R42): a fresh draw (DESIGN CHOICE, log entry 4). -/
def hostRead (c : Cfg) (a : HostAddr) (s : State) : State :=
  match elemContent c s (hostElem c a.toNat) with
  | some v => { s with outputs := .host a v :: s.outputs }
  | none =>
    { s with
      outputs := .host a (Config.unspecified s.draws a.toNat) :: s.outputs
      draws := s.draws + 1 }

/-- The effect of `HostWrite(a, v)` on an element other than `CMD`: an RW element takes `v`, a write to
any other is ignored (R67, R69). -/
def writeElem (e : HostElem) (v : Word) (s : State) : State :=
  match e with
  | .cmd => s
  | .status => s
  | .opa => { s with opa := v }
  | .res => s
  | .sampleRate => { s with sampleRate := v }
  | .maxBlk => { s with maxBlk := v }
  | .faultCmd => s
  | .faultCause => s
  | .ident => s
  | .capN => s
  | .capT => s
  | .capBuf => s
  | .capCh => s
  | .cell k => { s with cells := s.cells.write k v }
  | .debug _ => s
  | .spec _ => s
  | .sine _ => s
  | .hann _ => s
  | .buf j => setBuf j v s
  | .unmapped => s

/-- The state in which a command starts to execute: `BUSY` is 1 (R23, R68). -/
def beginCommand (m : Meanwhile) (s : State) : State := { s with busy := true, race := m.ctl }

/-- `k` reads of `STATUS` by a second bus master, each returning the same word (R68 (c)). -/
def statusReads (k : Nat) (w : Word) (s : State) : State :=
  { s with outputs := List.replicate k (.status w) ++ s.outputs }

/-- The end of a command that started in `s0`: what other agents did meanwhile completes and `BUSY` is
0 again (R68, R70; DESIGN CHOICE, log entry 9). -/
def endCommand (m : Meanwhile) (s0 s : State) : State :=
  let s1 := statusReads m.statusLate (statusWord s) (statusReads m.statusEarly (statusWord s0) s)
  { raceRest s1 with busy := false }

/-- Steps 1 to 7 of R92: decode the word, refuse it or run its command. -/
def executeWord (c : Cfg) (w : Word) (s : State) : Host.Outcome State Fault Refusal :=
  match decode w with
  | .ok i => execFor c i s
  | .error _ => .next (recordFault .illcmd w s)

/-- A word written to `CMD` executes to completion before the next host operation (R67, R68). -/
def runCommand (c : Cfg) (w : Word) (m : Meanwhile) (s : State) :
    Host.Outcome State Fault Refusal :=
  match executeWord c w (beginCommand m s) with
  | .next s1 => .next (endCommand m (beginCommand m s) s1)
  | .fault r => .fault r
  | .refused r => .refused r

/-- `HostWrite(a, v)` (R67). Control operations that arrive during a write other than to `CMD`
complete after it (DEDUCED, log entry 14). -/
def hostWrite (c : Cfg) (a : HostAddr) (v : Word) (m : Meanwhile) (s : State) :
    Host.Outcome State Fault Refusal :=
  match hostElem c a.toNat with
  | .cmd => runCommand c v m s
  | e => .next (m.ctl.flatten.foldl ctlApply (writeElem e v s))

/-- The accesses the bus wrapper forwards: aligned 32-bit accesses only (R64). -/
def busForwards (addr : ByteAddr) (size : Nat) : Bool :=
  decide (size = 4) && decide (addr.toNat % 4 = 0)

/-- The word index of a byte address (R61). -/
def busIndex (addr : ByteAddr) : HostAddr := addr.extractLsb' 2 19

/-- The byte that byte address `4 a + b` carries of word `a`: the wrapper is little-endian (R63). -/
def busLane (w : Word) (b : Nat) : BitVec 8 := w.extractLsb' (8 * b) 8

/-- One operation from outside the block (R17, R66, R67, R260). -/
def perform (c : Cfg) (e : Event) (s : State) : Host.Outcome State Fault Refusal :=
  match e with
  | .hostWrite a v m => hostWrite c a v m s
  | .hostRead a => .next (hostRead c a s)
  | .ctl op => .next (ctlApply s op)
  | .busWrite addr size v m =>
    if busForwards addr size then hostWrite c (busIndex addr) v m s
    else .next (m.ctl.flatten.foldl ctlApply s)
  | .busRead addr size =>
    if busForwards addr size then .next (hostRead c (busIndex addr) s)
    else .next { s with outputs := .busRefused addr 0#32 :: s.outputs }
  | .reset => .next (resetEffect s)

/-- The next operation is taken and performed; with none to come the core is idle and holds its state
(R219, R244). -/
def performNext (c : Cfg) (s : State) : Host.Outcome State Fault Refusal :=
  match s.pending with
  | [] => .next s
  | e :: rest => perform c e { s with pending := rest }

/-- The state whose next operation is the host's write of a table word to `CMD` (DESIGN CHOICE, log
entry 2). -/
def withCommandWord (s : State) (nbits w : Nat) : State :=
  { s with pending := .hostWrite 0#19 (BitVec.ofNat 32 (w % 2 ^ nbits)) {} :: s.pending }

end Sys2Proof.Machine
end

