-- ==== Sys2Proof/Machine/Step.lean ====
section
/-! DEFINITION. One step of the machine: one operation of the host stream or of the control agent
(`00_scope.md` R17). -/

namespace Sys2Proof.Machine

/-- One step of the block built with configuration `c` (R5): the next operation from outside, which for
a write to `CMD` includes the whole execution of the command (R17). -/
def stepFor (c : Cfg) (s : State) : Host.Outcome State Fault Refusal := performNext c s

/-- One step of the canonical block (R4). -/
def step (s : State) : Host.Outcome State Fault Refusal := stepFor cfg s

/-- `s` with a command word where the next step takes its command from: as the next host write to
`CMD`. The block fetches nothing (R21, R76), so the queue of host operations is the only such place. -/
def State.withFetchWord (s : State) (nbits w : Nat) : State := withCommandWord s nbits w

end Sys2Proof.Machine
end

