-- ==== Sys2Proof/Machine/Script.lean ====
section
/-! DEFINITION. The host-script operations and pseudo-operations (`30_encoding.md` R97, R98) as lists of
events, the register names of the map (`20_memory.md` R62), and the bring-up sequence
(`70_reset_and_hazards.md` R264). The text form of a script, which no port carries, is not modelled. -/

namespace Sys2Proof.Machine

/-- The register names of R62 and their word indices. -/
def registerNames : List (String × Nat) :=
  [("CMD", 0x00), ("STATUS", 0x01), ("OPA", 0x02), ("RES", 0x03), ("SAMPLERATE", 0x04),
   ("MAXBLK", 0x05), ("FAULTCMD", 0x06), ("FAULTCAUSE", 0x07), ("ID", 0x08), ("CAPN", 0x09),
   ("CAPT", 0x0A), ("CAPBUF", 0x0B), ("CAPCH", 0x0C), ("P_GAINOUT", 0x10), ("P_FBGAIN", 0x11),
   ("P_OFFSET", 0x12), ("P_TOL", 0x13), ("P_DETUNE", 0x14), ("FIFOIDX", 0x20), ("FRAMECNT", 0x21),
   ("DETFREQ", 0x22), ("PHASE", 0x23), ("PHASEINC", 0x24), ("CURGAIN", 0x25), ("PREVGAIN", 0x26),
   ("R0CUR", 0x28), ("R0TGT", 0x29), ("R0STEP", 0x2A), ("R0REM", 0x2B), ("R0LEN", 0x2C),
   ("R1CUR", 0x30), ("R1TGT", 0x31), ("R1STEP", 0x32), ("R1REM", 0x33), ("R1LEN", 0x34),
   ("S_GAINOUT", 0x38), ("S_FBGAIN", 0x39), ("S_OFFSET", 0x3A), ("S_TOL", 0x3B),
   ("S_DETUNE", 0x3C)]

/-- `f:<decimal>` (R97): the decimal `num / den`, negated if asked, rounded to `F`. -/
def decimal (neg : Bool) (num den : Nat) : Word := packF neg (roundMag (num * unitsPerOne) den)

/-- `WR <index>, <value>` (R97). -/
def wr (a : Nat) (v : Word) : Event := .hostWrite (BitVec.ofNat 19 a) v {}

/-- `RD <index>` (R97). -/
def rd (a : Nat) : Event := .hostRead (BitVec.ofNat 19 a)

/-- `CTL <cell>, <value>` (R97). -/
def ctlWr (c : Nat) (v : Word) : Event := .ctl (.write c v)

/-- `<mnemonic> <operands>`: a command, with no other agent acting meanwhile (R97). -/
def command (i : Instr) : Event := wr 0x00 (encode i)

/-- `CONFIG sr, mb` (R98). -/
def scriptConfig (sr mb : Word) : List Event := [wr 0x04 sr, wr 0x05 mb, command .prepare]

/-- `PUSHV x` (R98). -/
def scriptPushV (x : Word) : List Event := [wr 0x02 x, command .push]

/-- `SAMPLEV x` (R98). -/
def scriptSampleV (x : Word) : List Event := [wr 0x02 x, command .sample, rd 0x03]

/-- `RSETV r, x` (R98). -/
def scriptRsetV (r : Nat) (x : Word) : List Event := [wr 0x02 x, command (.rset r)]

/-- `RNEXTV r` (R98). -/
def scriptRnextV (r : Nat) : List Event := [command (.rnext r), rd 0x03]

/-- `AFREQV f` (R98). -/
def scriptAfreqV (f : Word) : List Event := [wr 0x02 f, command .afreq, rd 0x03]

/-- `OSCV f` (R98). -/
def scriptOscV (f : Word) : List Event := [wr 0x02 f, command .oscnext, rd 0x03]

/-- `ESTV` (R98). -/
def scriptEstV : List Event := [command .estimate, rd 0x03]

/-- The word index of `BUF[ch x BUFCAP + i]` (R62). -/
def bufIndex (c : Cfg) (ch i : Nat) : Nat := bufBase + ch * c.bufcap + i

/-- `LOADBUF ch, [v0, v1, ...]` (R98), from sample `i` on. -/
def scriptLoadBuf (c : Cfg) (ch : Nat) : Nat → List Word → List Event
  | _, [] => []
  | i, v :: vs => wr (bufIndex c ch i) v :: scriptLoadBuf c ch (i + 1) vs

/-- `READBUF ch, n` (R98). -/
def scriptReadBuf (c : Cfg) (ch n : Nat) : List Event :=
  (List.range n).map (fun i => rd (bufIndex c ch i))

/-- `SETPARAMS g, fb, off, tol, det` (R98). -/
def scriptSetParams (g fb off tol det : Word) : List Event :=
  [wr 0x10 g, wr 0x11 fb, wr 0x12 off, wr 0x13 tol, wr 0x14 det]

/-- The bring-up sequence up to `PREPARE` (R264 steps 1 to 4). -/
def scriptBringUp (sr mb g fb off tol det : Word) : List Event :=
  [rd 0x08, rd 0x09, rd 0x0A, rd 0x0B, rd 0x0C, wr 0x04 sr, wr 0x05 mb] ++
    scriptSetParams g fb off tol det ++ [command .prepare, rd 0x01]

/-- One block of a stream (R264 step 5). -/
def scriptBlock (c : Cfg) (nch : Nat) (xs : List Word) : List Event :=
  scriptLoadBuf c 0 0 xs ++ [command (.process nch xs.length)] ++ scriptReadBuf c 0 xs.length

end Sys2Proof.Machine
end

