-- ==== Sys2Proof/Safety.lean ====
section
/-! DEFINITION. The terms the claims use: ranges, what a latch loads, the sample stream of a block, the
gain sequence, the write-ownership table (`10_state.md` R44), and the invariants of the machine (R24,
R26, R29, R30, R32, R34 to R39). -/

namespace Sys2Proof.Safety

open Sys2Proof.Machine

/-- `lo <= x <= hi` on `F`, which no NaN meets. -/
def between (lo hi x : Word) : Bool := !isNaN x && !flt x lo && !flt hi x

/-- `PHASE` is finite and `+0.0 <= PHASE < T` (R37). -/
def phaseInRange (t : Nat) (p : Word) : Bool := isFinite p && !flt p fZero && flt p (u2f t)

/-- `v` is the value of `F` nearest to the square root of `sq`, in units, with an even pattern on a tie
(R8, R14): the root is compared with the midpoint of `v` and any other value by their squares. An infinity
stands at `2^128`. -/
def NearestRoot (v : Word) (sq : Int) : Prop :=
  isNaN v = false ∧ fSign v = false ∧
  ∀ q : Word, isFinite q = true → 0 ≤ units q →
    (units v < units q → 4 * sq ≤ (units v + units q) ^ 2) ∧
    (units q < units v → (units v + units q) ^ 2 ≤ 4 * sq) ∧
    (units q ≠ units v → (units v + units q) ^ 2 = 4 * sq → v.getLsbD 0 = false)

/-- The sum of the 4096 samples of a frame, in units, each times a weight. -/
def weightedSum (w : Nat → Int) (ys : List Word) : Int :=
  ∑ i ∈ Finset.range 4096, w i * units (ys.getD i 0#32)

/-- `cos (pi i / 2)`. -/
def quarterCos (i : Nat) : Int :=
  match i % 4 with
  | 0 => 1
  | 2 => -1
  | _ => 0

/-- `sin (pi i / 2)`. -/
def quarterSin (i : Nat) : Int :=
  match i % 4 with
  | 1 => 1
  | 3 => -1
  | _ => 0

/-- The snapshot's ranges (R29). -/
def snapInRange (x : Snapshot) : Bool :=
  between fZero fOne x.gainOut && between fZero fOne x.fbGain && between fZero fOne x.tol &&
    between fMinusFifty fFifty x.detune && decide (x.offset.toNat ≤ 24)

/-- The value of cell `k` after some control operations: that of the latest write to it, or the
cell's own (R70 (b)). -/
def cellAfter (x : Cells) (k : Nat) (ops : List CtlOp) : Word :=
  ops.foldl (fun v op => match op with
    | .write c w => if c = k then w else v
    | .read _ => v) (x.read k)

/-- What the reads among some control operations return, the latest result first: each the cell as the
writes before it leave it (R67, R70 (b)). -/
def ctlResults (x : Cells) : List CtlOp → List Output
  | [] => []
  | .write k v :: ops => ctlResults (x.write k v) ops
  | .read k :: ops => ctlResults x ops ++ [.ctl k (x.read k)]

/-- What load `k` of the latch of the executing command sees: the latest write to cell `k` that
completes before that load (R70, R181). -/
def loadedCell (s : State) (k : Nat) : Word :=
  cellAfter s.cells k (s.race.take (k + 1)).flatten

/-- The snapshot that the latch of the executing command takes (R181). -/
def latchedSnapshot (s : State) : Snapshot :=
  { gainOut := clampF (loadedCell s 0) fZero fOne
    fbGain := clampF (loadedCell s 1) fZero fOne
    offset := clampI (loadedCell s 2) 0#32 24#32
    tol := clampF (loadedCell s 3) fZero fOne
    detune := clampF (loadedCell s 4) fMinusFifty fFifty }

/-- The sample steps of a stream of samples, in order: the state they leave and their outputs. `BUF`
takes no part. -/
def runSamples (c : Cfg) : List Word → State → State × List Word
  | [], s => (s, [])
  | x :: xs, s =>
    let r := sampleStep c x s
    let rest := runSamples c xs r.1
    (rest.1, r.2 :: rest.2)

/-- The multiplier of sample `i` of a gain ramp: `prev` with `inc` added `i` times (R186). -/
def gainAt (prev inc : Word) : Nat → Word
  | 0 => prev
  | i + 1 => fadd (gainAt prev inc i) inc

/-- The multiplier the gain stage applies to sample `i` of a block of `len` samples (R186). -/
def stageGain (s : State) (len i : Nat) : Word :=
  if feq s.snap.gainOut s.gain.prev then s.snap.gainOut
  else gainAt s.gain.prev (fdiv (fsub s.snap.gainOut s.gain.prev) (u2f len)) i

/-- The `j`-th value of a ramp in progress: the current value with the step added `j` times
(R143). -/
def rampAt (x : Ramp) : Nat → Word
  | 0 => x.cur
  | j + 1 => fadd (rampAt x j) x.step

/-- Runs a list of values through a command that reads `OPA`: before each command the host writes the
value to `OPA`. -/
def runWithOpa (i : Instr) : List Word → State → Host.Outcome State Fault Refusal
  | [], s => .next s
  | x :: xs, s =>
    match exec i { s with opa := x } with
    | .next t => runWithOpa i xs t
    | .fault r => .fault r
    | .refused r => .refused r

/-- A command of a stream and what the other agents do before and during it: the host writes `OPA` and
`BUF`, the control agent's operations are given as in `State.race`. -/
structure Feed where
  cmd : Instr
  opa : Word
  buf : Memory
  race : List (List CtlOp)
  deriving DecidableEq, Repr

/-- How many samples a command pushes into the analyzer (R114). -/
def samplesPushed : Instr → Nat
  | .push => 1
  | .sample => 1
  | .process _ len => len
  | _ => 0

/-- How many samples a stream of commands pushes into the analyzer. -/
def samplesOf (fs : List Feed) : Nat := (fs.map (fun f => samplesPushed f.cmd)).sum

/-- Runs a stream of commands. -/
def runFeeds : List Feed → State → Host.Outcome State Fault Refusal
  | [], s => .next s
  | f :: fs, s =>
    match exec f.cmd { s with opa := f.opa, buf := f.buf, race := f.race } with
    | .next t => runFeeds fs t
    | .fault r => .fault r
    | .refused r => .refused r

/-- `k` executions of one command, one after the other. -/
def runTimes (i : Instr) : Nat → State → Host.Outcome State Fault Refusal
  | 0, s => .next s
  | k + 1, s =>
    match exec i s with
    | .next t => runTimes i k t
    | .fault r => .fault r
    | .refused r => .refused r

/-- The commands that write `RES` (R44). -/
def writesRes : Instr → Bool
  | .estimate => true
  | .rnext _ => true
  | .afreq => true
  | .oscnext => true
  | .sample => true
  | _ => false

/-- The commands that write `BUF` (R44). -/
def writesBuf : Instr → Bool
  | .process _ _ => true
  | .gainstg _ => true
  | _ => false

/-- The commands that latch the parameters (R44). -/
def latches : Instr → Bool
  | .prepare => true
  | .process _ _ => true
  | .latch => true
  | _ => false

/-- The commands that push a sample into the analyzer or reinitialise it (R44). -/
def writesAnalyzer : Instr → Bool
  | .prepare => true
  | .push => true
  | .sample => true
  | .process _ _ => true
  | _ => false

/-- The commands that write ramp `k` (R44, R145). -/
def writesRamp (k : Nat) : Instr → Bool
  | .prepare => true
  | .rreset r => r == k
  | .rset r => r == k
  | .rnext r => r == k
  | .push => k == 0
  | .sample => true
  | .process _ _ => true
  | _ => false

/-- The commands that write `PHASE` and `PHASEINC` (R44). -/
def writesOsc : Instr → Bool
  | .prepare => true
  | .oscnext => true
  | .sample => true
  | .process _ _ => true
  | _ => false

/-- The commands that write `CURGAIN` and `PREVGAIN` (R44). -/
def writesGain : Instr → Bool
  | .prepare => true
  | .gainstg _ => true
  | .process _ _ => true
  | _ => false

/-- The fault record is consistent (R24, R231): no fault and no trace of one, or a cause of R231 whose
sticky bit is set. -/
def FaultsConsistent (f : FaultRecord) : Prop :=
  (f.cause = 0#32 ∧ f.cmd = 0#32 ∧ ∀ k, f.sticky k = false) ∨
    ∃ k : Cause, f.cause = k.code ∧ f.sticky k = true

/-- Every memory is in its canonical form and lists no index outside its size (R60, R273). -/
def MemoriesWf (c : Cfg) (s : State) : Prop :=
  (s.an.fifo.wf ∧ ∀ p ∈ s.an.fifo, p.1 < c.n) ∧
  (s.an.work.wf ∧ ∀ p ∈ s.an.work, p.1 < 2 * c.n) ∧
  (s.hann.wf ∧ ∀ p ∈ s.hann, p.1 < c.n) ∧
  (s.sine.wf ∧ ∀ p ∈ s.sine, p.1 < c.t) ∧
  (s.buf.wf ∧ ∀ p ∈ s.buf, p.1 < c.nchmax * c.bufcap)

/-- A ramp in a session (R36 I1, I2; R216): `RREM <= RLEN`, at rest the value is the target, and
`RLEN` is the length of R141. -/
def RampOk (dur sr : Word) (x : Ramp) : Prop :=
  x.rem.toNat ≤ x.len.toNat ∧
  (x.rem = 0#32 → feq x.cur x.tgt = true ∨ (isNaN x.cur = true ∧ isNaN x.tgt = true)) ∧
  x.len = f2uFloorSat (fmul dur sr)

/-- `DETFREQ` is `+0.0` or the frequency of some bin 1 to `N/2` (R32). -/
def DetFreqOk (c : Cfg) (s : State) : Prop :=
  s.an.detFreq = fZero ∨ ∃ k, 1 ≤ k ∧ k ≤ c.n / 2 ∧ s.an.detFreq = binFreq c s.sr k

/-- What holds in a session (R26, R29, R30, R32, R34, R36 to R39). -/
structure SessionOk (c : Cfg) (s : State) : Prop where
  srFinite : isFinite s.sr = true
  srPositive : fgt s.sr fZero = true
  mbPositive : 1 ≤ s.mb.toNat
  mbBound : s.mb.toNat ≤ c.bufcap
  snap : snapInRange s.snap = true
  cursor : s.an.fifoIdx < c.n
  fifoFull : ∀ i, i < c.n → (s.an.fifo.look i).isSome = true
  specFull : ∀ k, k < c.n → (s.an.work.look k).isSome = true
  detFreq : DetFreqOk c s
  hann : s.hann = Memory.ofTable c.n c.hanntab
  sine : s.sine = Memory.ofTable c.t c.sintab
  ramp0 : RampOk c.durFreq s.sr s.ramp0
  ramp1 : RampOk c.durFb s.sr s.ramp1
  phase : phaseInRange c.t s.osc.phase = true
  gainCur : between fZero fOne s.gain.cur = true
  gainPrev : between fZero fOne s.gain.prev = true

/-- The invariant of the machine between two operations: not busy, no control operation of a finished
command left, a consistent fault record, canonical memories, the cursor within its width, and the
session's own invariant while a session is open. -/
structure Inv (c : Cfg) (s : State) : Prop where
  idle : s.busy = false
  noRace : s.race = []
  faults : FaultsConsistent s.faults
  memories : MemoriesWf c s
  cursorWidth : s.an.fifoIdx < 2 ^ (c.log2n + 1)
  session : s.inSession = true → SessionOk c s

end Sys2Proof.Safety
end

