-- ==== Sys2Proof/Certificates/Slice0/Obligations.lean ====
section
/-! DEFINITION. The statements for the provers. Each says which rule of `spec/` it formalises. The numbers
of the canonical configuration (R5) are written out: `N = 4096`, `T = 1024`, `BUFCAP = 8192`,
`NCHMAX = 2`. -/

open Sys2Proof Sys2Proof.Machine Sys2Proof.Safety

/-! ## Encoding -/

/-- R90, R91, R93, R94: no bit of an encoding is dropped. -/
def Obligations.DecodeOfEncodeIsTheInstruction : Prop :=
  ∀ i : Instr, i.wellFormed = true → decode (encode i) = .ok i

/-- R90, R95: a legal word is the word of exactly one well-formed command. -/
def Obligations.EncodeOfDecodeIsTheWord : Prop :=
  ∀ (w : Word) (i : Instr), decode w = .ok i → i.wellFormed = true ∧ encode i = w

/-- R95: a word is legal exactly when it matches a row of the opcode table; every other word records
`ILLCMD` and does nothing else. -/
def Obligations.LegalWordsAreTheTableRows : Prop :=
  (∀ (w : Word) (s : State), (∀ i, decode w ≠ .ok i) →
    executeWord cfg w s = .next { s with faults := s.faults.record .illcmd w }) ∧
  ∀ w : Word, (∃ i, decode w = .ok i) ↔
    ∃ r ∈ [((0xFFFFFFFF#32 : Word), (0x00000000#32 : Word)), (0xFFFFFFFF#32, 0x01000000#32),
        (0xFFFFFFFF#32, 0x02000000#32), (0xFF000000#32, 0x03000000#32),
        (0xFFFFFFFF#32, 0x04000000#32), (0xFFFFFFFF#32, 0x10000000#32),
        (0xFFFFFFFF#32, 0x11000000#32), (0xFF0FFFFF#32, 0x20000000#32),
        (0xFF0FFFFF#32, 0x21000000#32), (0xFF0FFFFF#32, 0x22000000#32),
        (0xFFFFFFFF#32, 0x30000000#32), (0xFFFFFFFF#32, 0x31000000#32),
        (0xFFFFFFFF#32, 0x40000000#32), (0xFFF00000#32, 0x41000000#32)],
      w &&& r.1 = r.2

/-- R94 and `95_test_vectors.md` section 2.1: words written out from the encoding. -/
def Obligations.WordsOfTheEncodingDecode : Prop :=
  decode 0x00000000#32 = .ok .nop ∧ decode 0x01000000#32 = .ok .prepare ∧
  decode 0x03200008#32 = .ok (.process 2 8) ∧ decode 0x030FFFFF#32 = .ok (.process 0 1048575) ∧
  decode 0x04000000#32 = .ok .latch ∧ decode 0x10000000#32 = .ok .push ∧
  decode 0x11000000#32 = .ok .estimate ∧ decode 0x20100000#32 = .ok (.rreset 1) ∧
  decode 0x22200000#32 = .ok (.rnext 2) ∧ decode 0x31000000#32 = .ok .oscnext ∧
  decode 0x41000004#32 = .ok (.gainstg 4) ∧
  decode 0x22000001#32 = .error .nonzeroField ∧ decode 0x41100004#32 = .error .nonzeroField ∧
  decode 0x05000000#32 = .error .unassignedOpcode ∧
  decode 0xFFFFFFFF#32 = .error .unassignedOpcode

/-! ## The step and the faults -/

/-- R67, R68, R70, R92: a write to `CMD` runs the decoded command with `BUSY` raised. Then, of what other
agents do meanwhile, a second bus master has read `STATUS` as before or as after the command's updates,
`BUSY` 1 in both; the control operations that the command's loads did not let complete do so, in order;
and `BUSY` is 0 again. Nothing else changes. What other agents do is given in the model's form, log entry
9; the queue `pending` is the model's form of the host stream, log entry 2. -/
def Obligations.StepRunsTheDecodedCommand : Prop :=
  ∀ (s t : State) (w : Word) (m : Meanwhile) (rest : List Event) (i : Instr),
    s.pending = .hostWrite 0#19 w m :: rest → decode w = .ok i → i.wellFormed = true →
    exec i { s with pending := rest, busy := true, race := m.ctl } = .next t →
    ∃ u, step s = .next u ∧
      u = { t with
        busy := false
        race := []
        cells := u.cells
        outputs := ctlResults t.cells t.race.flatten ++
          List.replicate m.statusLate (.status (statusWord t)) ++
          List.replicate m.statusEarly (.status (statusWord { s with busy := true })) ++
          t.outputs } ∧
      ∀ k, k < 5 → u.cells.read k = cellAfter t.cells k t.race.flatten

/-- R17, R68: with no other agent acting meanwhile, the step is the command with `BUSY` raised and
dropped around it. -/
def Obligations.CommandStepWithoutOtherAgents : Prop :=
  ∀ (s t : State) (w : Word) (rest : List Event) (i : Instr),
    s.pending = .hostWrite 0#19 w {} :: rest → decode w = .ok i → i.wellFormed = true →
    exec i { s with pending := rest, busy := true, race := [] } = .next t →
    step s = .next { t with busy := false }

/-- R92 steps 1 and 2, R232: an illegal word records `ILLCMD` and does nothing else. -/
def Obligations.IllegalWordOnlyRecordsIllcmd : Prop :=
  ∀ (s : State) (w : Word) (rest : List Event) (e : DecodeError),
    s.pending = .hostWrite 0#19 w {} :: rest → decode w = .error e →
    step s = .next { s with
      pending := rest, busy := false, race := [], faults := s.faults.record .illcmd w }

/-- R232: what the fault record does, and that it does nothing else. -/
def Obligations.FaultRecordKeepsTheFirstFault : Prop :=
  ∀ (k : Cause) (w : Word) (s : State),
    recordFault k w s = { s with faults := (recordFault k w s).faults } ∧
    (statusWord (recordFault k w s)).getLsbD (2 + k.code.toNat) = true ∧
    (∀ k' : Cause, k' ≠ k → (recordFault k w s).faults.sticky k' = s.faults.sticky k') ∧
    (s.faults.cause = 0#32 →
      (recordFault k w s).faults.cmd = w ∧ (recordFault k w s).faults.cause = k.code) ∧
    (s.faults.cause ≠ 0#32 →
      (recordFault k w s).faults.cmd = s.faults.cmd ∧
      (recordFault k w s).faults.cause = s.faults.cause)

/-- R214, R233: a streaming command outside a session raises `CVIOL`, whatever its operands, and has no
other effect. -/
def Obligations.StreamingOutsideASessionIsCviol : Prop :=
  ∀ (i : Instr) (s : State), i.isStreaming = true →
    s.lc = .uninitialized ∨ s.lc = .released →
    exec i s = .next { s with faults := s.faults.record .cviol (encode i) }

/-- R231, R233: an operand out of range in a session raises `BADOPER` and has no other effect. -/
def Obligations.OperandOutOfRangeIsBadoper : Prop :=
  ∀ s : State, s.lc = .prepared ∨ s.lc = .processing →
    (∀ nch len, nch = 0 ∨ 2 < nch ∨ s.mb.toNat < len →
      exec (.process nch len) s =
        .next { s with faults := s.faults.record .badoper (encode (.process nch len)) }) ∧
    (∀ len, s.mb.toNat < len →
      exec (.gainstg len) s =
        .next { s with faults := s.faults.record .badoper (encode (.gainstg len)) }) ∧
    (∀ r, 1 < r →
      exec (.rreset r) s =
        .next { s with faults := s.faults.record .badoper (encode (.rreset r)) } ∧
      exec (.rset r) s = .next { s with faults := s.faults.record .badoper (encode (.rset r)) } ∧
      exec (.rnext r) s = .next { s with faults := s.faults.record .badoper (encode (.rnext r)) })

/-- R211, R231: `PREPARE` with unusable arguments raises `PFAIL` and has no other effect, in every
lifecycle state. -/
def Obligations.PrepareWithUnusableArgumentsIsPfail : Prop :=
  ∀ s : State,
    isFinite s.sampleRate = false ∨ fgt s.sampleRate fZero = false ∨ s.maxBlk = 0#32 ∨
      8192 < s.maxBlk.toNat →
    exec .prepare s = .next { s with faults := s.faults.record .pfail 0x01000000#32 }

/-- R22, R23: the layout of `STATUS` and the encoding of `LC`. -/
def Obligations.StatusWordLayout : Prop :=
  ∀ s : State,
    ((statusWord s).extractLsb' 0 2 =
      match s.lc with
      | .uninitialized => 0#2
      | .prepared => 1#2
      | .processing => 2#2
      | .released => 3#2) ∧
    (statusWord s).getLsbD 2 = s.busy ∧
    (statusWord s).getLsbD 3 = s.faults.illcmd ∧
    (statusWord s).getLsbD 4 = s.faults.badoper ∧
    (statusWord s).getLsbD 5 = s.faults.cviol ∧
    (statusWord s).getLsbD 6 = s.faults.pfail ∧
    (statusWord s).extractLsb' 7 25 = 0#25

/-- R24, R232: the sticky bits and the record of the first fault survive every operation but a hardware
reset. -/
def Obligations.FirstFaultIsKeptUntilReset : Prop :=
  ∀ (s t : State) (e : Event) (rest : List Event),
    s.pending = e :: rest → e ≠ .reset → step s = .next t →
    (∀ k : Cause, s.faults.sticky k = true → t.faults.sticky k = true) ∧
    (s.faults.cause ≠ 0#32 → t.faults.cmd = s.faults.cmd ∧ t.faults.cause = s.faults.cause)

/-! ## Lifecycle -/

/-- R210: `NOP`, encoded as 0, does nothing in every lifecycle state; every other word with its
opcode records `ILLCMD` and does nothing else. -/
def Obligations.NopChangesNothing : Prop :=
  (∀ s : State, exec .nop s = .next s) ∧ encode .nop = 0x00000000#32 ∧
    (∀ s : State, executeWord cfg 0x00000000#32 s = .next s) ∧
    ∀ (w : Word) (s : State), w.toNat < 2 ^ 24 → w ≠ 0x00000000#32 →
      executeWord cfg w s = .next { s with faults := s.faults.record .illcmd w }

/-- R211, R43: the state a successful `PREPARE` leaves, every field of it. The groups of control
operations that complete during its latch, and so the cells, the snapshot and `race` where there are
such groups, are the model's form of the race of R70, log entry 9. -/
def Obligations.PrepareInitialisesTheSession : Prop :=
  ∀ s : State, isFinite s.sampleRate = true → fgt s.sampleRate fZero = true →
    1 ≤ s.maxBlk.toNat → s.maxBlk.toNat ≤ 8192 →
    ∃ t, exec .prepare s = .next t ∧
      t = { s with
        lc := .prepared
        sr := s.sampleRate
        mb := s.maxBlk
        sine := t.sine
        hann := t.hann
        an := { fifo := t.an.fifo, fifoIdx := 0, work := t.an.work, detFreq := 0#32,
                frameCnt := 0#32 }
        ramp0 := { cur := 0#32, tgt := 0#32, step := 0#32, rem := 0#32,
                   len := f2uFloorSat (fmul 0x3CCCCCCD#32 s.sampleRate) }
        ramp1 := { cur := 0#32, tgt := 0#32, step := 0#32, rem := 0#32,
                   len := f2uFloorSat (fmul 0x3BA3D70A#32 s.sampleRate) }
        osc := { phase := 0#32, phaseInc := 0#32 }
        snap := latchedSnapshot s
        gain := { cur := (latchedSnapshot s).gainOut, prev := (latchedSnapshot s).gainOut }
        cells := t.cells
        race := s.race.drop 5
        outputs := ctlResults s.cells (s.race.take 5).flatten ++ s.outputs } ∧
      (∀ i, i < 1024 → t.sine.look i = some (sinTable 1024 i)) ∧
      (∀ n, n < 4096 → t.hann.look n = some (hannTable 4096 n)) ∧
      (∀ n, n < 4096 → t.an.fifo.look n = some 0#32) ∧
      (∀ n, n < 8192 → t.an.work.look n = some 0#32) ∧
      (∀ k, k < 5 → t.cells.read k = cellAfter s.cells k (s.race.take 5).flatten) ∧
      (s.race = [] → t.cells = s.cells)

/-- R211 corner case (a): two `PREPARE`s in a row leave the same state as one. -/
def Obligations.PrepareTwiceIsPrepareOnce : Prop :=
  ∀ s t : State, s.race = [] → exec .prepare s = .next t → exec .prepare t = .next t

/-- R213: `RELEASE` is accepted in every lifecycle state and keeps what the rule says it keeps; the
memories list nothing any more, that is, they are unspecified. That a second `RELEASE` leaves the very
same state is the model's choice, log entry 10. -/
def Obligations.ReleaseDiscardsTheContext : Prop :=
  ∀ s : State, ∃ t, exec .release s = .next t ∧ t.lc = .released ∧ t.faults = s.faults ∧
    t.opa = s.opa ∧ t.res = s.res ∧ t.sampleRate = s.sampleRate ∧ t.maxBlk = s.maxBlk ∧
    t.cells = s.cells ∧ t.buf = s.buf ∧ t.busy = s.busy ∧ t.pending = s.pending ∧
    t.race = s.race ∧ t.outputs = s.outputs ∧
    (s.lc ≠ .released → t.an.fifo = [] ∧ t.an.work = [] ∧ t.hann = [] ∧ t.sine = []) ∧
    (s.lc = .released → t = s)

/-- R215: the transition table of the lifecycle, with the fault each refused command records. -/
def Obligations.LifecycleTransitionTable : Prop :=
  ∀ (i : Instr) (s t : State), exec i s = .next t →
    (i = .nop → t.lc = s.lc ∧ t.faults = s.faults) ∧
    (i = .release → t.lc = .released ∧ t.faults = s.faults) ∧
    (i = .prepare →
      if isFinite s.sampleRate = true ∧ fgt s.sampleRate fZero = true ∧ 1 ≤ s.maxBlk.toNat ∧
          s.maxBlk.toNat ≤ 8192
      then t.lc = .prepared ∧ t.faults = s.faults
      else t.lc = s.lc ∧ t.faults = s.faults.record .pfail (encode i)) ∧
    (i.isStreaming = true →
      if s.lc = .prepared ∨ s.lc = .processing
      then (t.lc = .processing ∧ t.faults = s.faults) ∨
        (t.lc = s.lc ∧ t.faults = s.faults.record .badoper (encode i))
      else t.lc = s.lc ∧ t.faults = s.faults.record .cviol (encode i))

/-! ## The parameter latch -/

/-- R181, R182: `LATCH` takes the clamped snapshot of what its five loads see and changes nothing else;
the cells change only by the control operations that complete meanwhile. The groups of control
operations are the model's form of the race of R70, log entry 9. -/
def Obligations.LatchTakesTheSnapshot : Prop :=
  ∀ s : State, s.lc = .prepared ∨ s.lc = .processing →
    ∃ t, exec .latch s = .next t ∧
      t = { s with lc := .processing, snap := latchedSnapshot s, cells := t.cells,
                   race := s.race.drop 5
                   outputs := ctlResults s.cells (s.race.take 5).flatten ++ s.outputs } ∧
      (∀ k, k < 5 → t.cells.read k = cellAfter s.cells k (s.race.take 5).flatten) ∧
      (s.race = [] → t.cells = s.cells)

/-- R29: after each of the three latching commands the snapshot is in range and holds no NaN. -/
def Obligations.LatchedSnapshotIsInRange : Prop :=
  ∀ s : State,
    (s.lc = .prepared ∨ s.lc = .processing →
      (∃ t, exec .latch s = .next t ∧ snapInRange t.snap = true) ∧
      ∀ nch len, 1 ≤ nch → nch ≤ 2 → len ≤ s.mb.toNat →
        ∃ t, exec (.process nch len) s = .next t ∧ snapInRange t.snap = true) ∧
    (isFinite s.sampleRate = true → fgt s.sampleRate fZero = true → 1 ≤ s.maxBlk.toNat →
      s.maxBlk.toNat ≤ 8192 → ∃ t, exec .prepare s = .next t ∧ snapInRange t.snap = true)

/-- R15: the two clamps of a parameter. -/
def Obligations.ClampGivesTheNearestBound : Prop :=
  (∀ x lo hi : Word, isNaN lo = false → isNaN hi = false → flt hi lo = false →
    (isNaN x = true → clampF x lo hi = 0#32) ∧
    (flt x lo = true → clampF x lo hi = lo) ∧
    (flt hi x = true → clampF x lo hi = hi) ∧
    (between lo hi x = true → clampF x lo hi = x)) ∧
  ∀ x lo hi : Word, lo.toInt ≤ hi.toInt →
    (clampI x lo hi).toInt = max lo.toInt (min hi.toInt x.toInt)

/-- R70 (c), R73: two cells written together may be latched one old, one new. The groups of control
operations between the loads are the model's form of the race, log entry 9. -/
def Obligations.LatchMayMixOldAndNewCells : Prop :=
  ∃ s t : State, exec .latch s = .next t ∧ s.cells.gainOut = 0x3F000000#32 ∧
    s.cells.fbGain = 0x3F000000#32 ∧ t.cells.gainOut = 0x3F800000#32 ∧
    t.cells.fbGain = 0x3F800000#32 ∧ t.snap.gainOut = 0x3F000000#32 ∧
    t.snap.fbGain = 0x3F800000#32

/-! ## Analyzer and estimator -/

/-- R111, R115: a `PUSH` that does not complete the frame stores the sample and moves the cursor. -/
def Obligations.PushStoresTheSample : Prop :=
  ∀ s : State, s.lc = .prepared ∨ s.lc = .processing → s.an.fifoIdx + 1 < 4096 →
    exec .push s = .next { s with
      lc := .processing
      an := { s.an with fifo := s.an.fifo.put s.an.fifoIdx s.opa, fifoIdx := s.an.fifoIdx + 1 } }

/-- R111, R112, R113, R115: a `PUSH` that completes the frame transforms exactly that frame, resets the
cursor, counts the frame, writes `DETFREQ` and retargets ramp 0 unless the estimate is 0. -/
def Obligations.PushCompletesTheFrame : Prop :=
  ∀ s : State, s.lc = .prepared ∨ s.lc = .processing → s.an.fifoIdx + 1 = 4096 →
    ∃ (frame : List Word) (t : State), exec .push s = .next t ∧ frame.length = 4096 ∧
      (∀ n x h, (s.an.fifo.put 4095 s.opa).look n = some x → s.hann.look n = some h → n < 4096 →
        frame[n]? = some (fmul x h)) ∧
      (∀ k, t.an.work.look k = (fftMag 4096 frame)[k]?) ∧
      t.an.detFreq = estimateOn cfg s.sr s.snap.tol (fftMag 4096 frame) ∧
      t = { s with
        lc := .processing
        an := { fifo := s.an.fifo.put 4095 s.opa, fifoIdx := 0, work := t.an.work,
                detFreq := t.an.detFreq, frameCnt := s.an.frameCnt + 1#32 }
        ramp0 := if feq t.an.detFreq fZero then s.ramp0 else Ramp.setTarget t.an.detFreq s.ramp0 }

/-- R114: after a successful `PREPARE` and `M` samples, pushed by any mixture of `PUSH`, `SAMPLE` and
`PROCESS`, `FRAMECNT = floor (M / N) mod 2^32` and `FIFOIDX = M mod N`. What the host writes and the
control agent does around each command is free; the groups of control operations are the model's form
of the race, log entry 9. -/
def Obligations.FrameCadenceAfterPrepare : Prop :=
  ∀ (s : State) (fs : List Feed),
    isFinite s.sampleRate = true → fgt s.sampleRate fZero = true →
    1 ≤ s.maxBlk.toNat → s.maxBlk.toNat ≤ 8192 →
    (∀ f ∈ fs, f.cmd = .push ∨ f.cmd = .sample ∨
      ∃ nch len, f.cmd = .process nch len ∧ 1 ≤ nch ∧ nch ≤ 2 ∧ len ≤ s.maxBlk.toNat) →
    ∃ t u, exec .prepare s = .next t ∧ runFeeds fs t = .next u ∧
      u.an.fifoIdx = samplesOf fs % 4096 ∧
      u.an.frameCnt = BitVec.ofNat 32 (samplesOf fs / 4096)

/-- R14 P3: the upper half of a spectrum is a bit copy of the lower half, for every input. -/
def Obligations.SpectrumIsMirrored : Prop :=
  ∀ (ys : List Word), (cfg.fftmag ys).length = 4096 ∧
    ∀ k, 0 < k → k < 2048 → (cfg.fftmag ys)[4096 - k]? = (cfg.fftmag ys)[k]?

/-- R14 P1, P2, and P4 of the default instance (log entry 7) where it needs no accuracy of a sine. The
magnitudes of a finite frame are never negative and never NaN, and a silent frame has the spectrum
`+0.0`. Of a finite frame of 4096 samples, bins 0, 1024 and 2048 are the magnitudes of its sums with
the quarter-turn weights, rounded once; if only sample 0 is not zero, every bin is its magnitude. -/
def Obligations.SpectrumOfAFiniteFrame : Prop :=
  ∀ ys : List Word, (∀ y ∈ ys, isFinite y = true) →
    (∀ v ∈ cfg.fftmag ys, isNaN v = false ∧ fSign v = false) ∧
    ((∀ y ∈ ys, fMag y = 0) → ∀ v ∈ cfg.fftmag ys, v = 0#32) ∧
    (ys.length = 4096 →
      (∃ v0 v1 v2 : Word, (cfg.fftmag ys)[0]? = some v0 ∧ (cfg.fftmag ys)[1024]? = some v1 ∧
        (cfg.fftmag ys)[2048]? = some v2 ∧
        NearestRoot v0 (weightedSum (fun _ => 1) ys ^ 2) ∧
        NearestRoot v1 (weightedSum quarterCos ys ^ 2 + weightedSum quarterSin ys ^ 2) ∧
        NearestRoot v2 (weightedSum (fun i => (-1) ^ i) ys ^ 2)) ∧
      ((∀ i, 0 < i → i < 4096 → fMag (ys.getD i 0#32) = 0) →
        ∀ v ∈ cfg.fftmag ys, v = packF false (fMag (ys.getD 0 0#32))))

/-- R133: `ESTIMATE` writes the estimate of the current spectrum to `RES` and nothing else. -/
def Obligations.EstimateWritesOnlyTheResult : Prop :=
  ∀ s : State, s.lc = .prepared ∨ s.lc = .processing →
    ∃ spec : List Word, spec.length = 4096 ∧
      (∀ k v, k < 4096 → s.an.work.look k = some v → spec[k]? = some v) ∧
      exec .estimate s = .next { s with lc := .processing, res := estimateOn cfg s.sr s.snap.tol spec }

/-- R131: the first of the greatest bins wins, and its frequency is returned when its magnitude is
above the threshold. -/
def Obligations.EstimateTakesTheFirstMaximum : Prop :=
  ∀ (sr tol : Word) (spec : List Word), spec.length = 4096 →
    (isNaN (spec.getD 0 0#32) = true → estimateOn cfg sr tol spec = 0#32) ∧
    (isNaN (spec.getD 0 0#32) = false →
      ∃ idx, idx < 4096 ∧ isNaN (spec.getD idx 0#32) = false ∧
        (∀ j, j < 4096 → fgt (spec.getD j 0#32) (spec.getD idx 0#32) = false) ∧
        (∀ j, j < idx → isNaN (spec.getD j 0#32) = true ∨
          fgt (spec.getD idx 0#32) (spec.getD j 0#32) = true) ∧
        estimateOn cfg sr tol spec =
          if fgt (spec.getD idx 0#32) (fmul tol 0x437A0000#32) = true
          then fmul (fdiv (u2f idx) (u2f 4095)) sr else 0#32)

/-- R132: on a mirrored spectrum the winning bin of the scan is at most `N/2`. -/
def Obligations.WinningBinIsInTheLowerHalf : Prop :=
  ∀ spec : List Word, spec.length = 4096 →
    (∀ k, 0 < k → k < 2048 → spec[4096 - k]? = spec[k]?) → (peakOf spec).1 ≤ 2048

/-! ## Ramps -/

/-- R141, R146: `RRESET r` ends the ramp at its target, with the latched rate and the ramp's own
duration. -/
def Obligations.RresetEndsTheRamp : Prop :=
  ∀ s : State, s.lc = .prepared ∨ s.lc = .processing →
    exec (.rreset 0) s = .next { s with
      lc := .processing
      ramp0 := { cur := s.ramp0.tgt, tgt := s.ramp0.tgt, step := 0#32, rem := 0#32,
                 len := f2uFloorSat (fmul 0x3CCCCCCD#32 s.sr) } } ∧
    exec (.rreset 1) s = .next { s with
      lc := .processing
      ramp1 := { cur := s.ramp1.tgt, tgt := s.ramp1.tgt, step := 0#32, rem := 0#32,
                 len := f2uFloorSat (fmul 0x3BA3D70A#32 s.sr) } }

/-- R142, R147: `RSET r` with the present target does nothing; with a new one it starts a full-length
ramp from the current value, or jumps when the length is 0. -/
def Obligations.RsetStartsARampFromTheCurrentValue : Prop :=
  ∀ (s : State) (r : Nat), s.lc = .prepared ∨ s.lc = .processing → r ≤ 1 →
    ∃ x : Ramp, exec (.rset r) s = .next ({ s with lc := .processing }.withRamp r x) ∧
      x = if feq s.opa (s.ramp r).tgt = true then s.ramp r
        else if (s.ramp r).len = 0#32 then
          { cur := s.opa, tgt := s.opa, step := 0#32, rem := 0#32, len := (s.ramp r).len }
        else
          { cur := (s.ramp r).cur, tgt := s.opa,
            step := fdiv (fsub s.opa (s.ramp r).cur) (u2f (s.ramp r).len.toNat),
            rem := (s.ramp r).len, len := (s.ramp r).len }

/-- R143, R148: `RNEXT r` holds at rest, adds the step in progress, and lands exactly on the target with
the last step; `RES` takes the value. -/
def Obligations.RnextAdvancesTheRamp : Prop :=
  ∀ (s : State) (r : Nat), s.lc = .prepared ∨ s.lc = .processing → r ≤ 1 →
    ∃ x : Ramp, exec (.rnext r) s =
        .next { ({ s with lc := .processing }.withRamp r x) with res := x.cur } ∧
      x.tgt = (s.ramp r).tgt ∧ x.step = (s.ramp r).step ∧ x.len = (s.ramp r).len ∧
      x.rem.toNat = (s.ramp r).rem.toNat - 1 ∧
      x.cur = if (s.ramp r).rem = 0#32 then (s.ramp r).cur
        else if (s.ramp r).rem = 1#32 then (s.ramp r).tgt
        else fadd (s.ramp r).cur (s.ramp r).step

/-- R144 (a), (b): after `RSET r` with a new target, `RNEXT r` number `j < L` returns the value with the
step added `j` times, number `L` returns the target exactly, and every further one returns it again. -/
def Obligations.RampReachesItsTargetExactly : Prop :=
  ∀ (s : State) (r : Nat), s.lc = .prepared ∨ s.lc = .processing → r ≤ 1 →
    feq s.opa (s.ramp r).tgt = false → (s.ramp r).len ≠ 0#32 →
    ∃ s1, exec (.rset r) s = .next s1 ∧
      ∀ j, 1 ≤ j → ∃ t, runTimes (.rnext r) j s1 = .next t ∧
        (j < (s.ramp r).len.toNat → t.res = rampAt (s1.ramp r) j ∧
          (t.ramp r).rem.toNat = (s.ramp r).len.toNat - j) ∧
        ((s.ramp r).len.toNat ≤ j → t.res = s.opa ∧ (t.ramp r).cur = s.opa ∧
          (t.ramp r).rem = 0#32)

/-! ## Oscillator -/

/-- R161, R163: `AFREQ` writes `fadd(fmul(OPA, SEMIPOW(S_OFFSET)), S_DETUNE)` to `RES` and nothing
else. -/
def Obligations.AfreqAppliesThePitchFormula : Prop :=
  ∀ s : State, s.lc = .prepared ∨ s.lc = .processing →
    exec .afreq s = .next { s with
      lc := .processing
      res := fadd (fmul s.opa (semiPow s.snap.offset.toNat)) s.snap.detune }

/-- R162, R164: `OSCNEXT` reads the interpolated table at the phase before the advance, then advances
the phase by `OPA x T / SR`. `v0` and `v1` are the two table elements, as far as they are listed. -/
def Obligations.OscnextReadsThenAdvances : Prop :=
  ∀ s : State, s.lc = .prepared ∨ s.lc = .processing →
    ∃ v0 v1 : Word,
      (∀ x, s.sine.look (f2u (ffloor s.osc.phase)) = some x → v0 = x) ∧
      (∀ x, s.sine.look ((f2u (ffloor s.osc.phase) + 1) % 1024) = some x → v1 = x) ∧
      exec .oscnext s = .next { s with
        lc := .processing
        res := fadd v0 (fmul (fsub s.osc.phase (ffloor s.osc.phase)) (fsub v1 v0))
        osc := { phaseInc := fdiv (fmul s.opa (u2f 1024)) s.sr
                 phase := pmod 1024 (fadd s.osc.phase (fdiv (fmul s.opa (u2f 1024)) s.sr)) } }

/-- R10, R162: `0 <= PHASE < T` after every `OSCNEXT`, for every frequency including NaN and
infinities. -/
def Obligations.PhaseStaysInRange : Prop :=
  ∀ s t : State, exec .oscnext s = .next t → t.lc = .processing → t.faults = s.faults →
    phaseInRange 1024 t.osc.phase = true

/-- R10: `PMOD` is the floored modulo by `T`, exact and rounded once: the pattern `p` that the exact
remainder `r` units is rounded to, or `+0.0` where that is `T`; `p` is a nearest value of `F`, with an
even pattern on a tie. -/
def Obligations.PmodIsTheFlooredModulo : Prop :=
  ∀ (t : Nat) (v : Word), 2 ≤ t → t ≤ 65536 →
    phaseInRange t (pmod t v) = true ∧
    (isFinite v = false → pmod t v = 0#32) ∧
    (isFinite v = true → ∃ (r : Nat) (p : Word),
      (r : Int) = units v % ((t * 2 ^ 149 : Nat) : Int) ∧ p = packF false (roundMag r 1) ∧
      isFinite p = true ∧
      (∀ q : Word, isFinite q = true → |units p - r| ≤ |units q - r|) ∧
      (∀ q : Word, isFinite q = true → |units p - r| = |units q - r| → units q = units p ∨
        p.getLsbD 0 = false) ∧
      pmod t v = if p = u2f t then 0#32 else p) ∧
    (∀ p : Word, isFinite v = true → phaseInRange t p = true → fSign p = false →
      units p = units v % ((t * 2 ^ 149 : Nat) : Int) → pmod t v = p)

/-! ## Block processor -/

/-- R183, R184, R185: `SAMPLE` does what `PUSH` does to the raw sample (the state `p`), advances both
ramps, applies the pitch formula, runs the oscillator and mixes. -/
def Obligations.SampleRunsTheFourSteps : Prop :=
  ∀ s : State, s.lc = .prepared ∨ s.lc = .processing →
    ∃ (p : State) (f g fa inc : Word), exec .push s = .next p ∧
      f = (Ramp.next p.ramp0).cur ∧ g = (Ramp.next p.ramp1).cur ∧
      fa = fadd (fmul f (semiPow s.snap.offset.toNat)) s.snap.detune ∧
      inc = fdiv (fmul fa (u2f 1024)) s.sr ∧
      exec .sample s = .next { p with
        ramp0 := Ramp.next p.ramp0
        ramp1 := Ramp.next p.ramp1
        osc := { phase := pmod 1024 (fadd s.osc.phase inc), phaseInc := inc }
        res := fadd s.opa (fmul (oscOutput cfg s) (fmul g fHalf)) }

/-- R185 corner case (a): a sequence of `SAMPLE` commands leaves the analyzer, ramps and oscillator, and
returns the outputs, of the sample steps of the same stream. -/
def Obligations.SamplesAreTheStepsOfTheStream : Prop :=
  ∀ (xs : List Word) (s : State), s.lc = .prepared ∨ s.lc = .processing →
    ∃ t, runWithOpa .sample xs s = .next t ∧
      t.an = (runSamples cfg xs s).1.an ∧ t.ramp0 = (runSamples cfg xs s).1.ramp0 ∧
      t.ramp1 = (runSamples cfg xs s).1.ramp1 ∧ t.osc = (runSamples cfg xs s).1.osc ∧
      (∀ y, (runSamples cfg xs s).2.getLast? = some y → t.res = y) ∧
      t.buf = s.buf ∧ t.snap = s.snap ∧ t.gain = s.gain ∧ t.cells = s.cells

/-- R186, R187: `GAINSTG len` multiplies sample `i` by the flat gain, or by the accumulated ramp from
the previous gain; the rest of `BUF` and of the state is as before. -/
def Obligations.GainstgScalesTheBlock : Prop :=
  ∀ (s : State) (len : Nat), s.lc = .prepared ∨ s.lc = .processing → len ≤ s.mb.toNat →
    ∃ t, exec (.gainstg len) s = .next t ∧
      t = { s with
        lc := .processing
        buf := t.buf
        gain := { cur := s.snap.gainOut
                  prev := if len = 0 ∨ feq s.snap.gainOut s.gain.prev = true then s.gain.prev
                    else s.snap.gainOut } } ∧
      (∀ i x, i < len → s.buf.look i = some x →
        t.buf.look i = some (fmul x (stageGain s len i))) ∧
      (∀ i, i < len → (t.buf.look i).isSome = true) ∧
      (∀ j, len ≤ j → t.buf.look j = s.buf.look j)

/-- R190: a non-empty block completes the transition of the gain: the next one is flat. -/
def Obligations.GainSettlesInOneBlock : Prop :=
  ∀ (s t u : State) (len len' : Nat), 0 < len → isNaN s.snap.gainOut = false →
    s.lc = .prepared ∨ s.lc = .processing → len ≤ s.mb.toNat → len' ≤ s.mb.toNat →
    exec (.gainstg len) s = .next t → exec (.gainstg len') t = .next u →
    u.gain.prev = t.gain.prev ∧ feq t.snap.gainOut t.gain.prev = true ∧
      ∀ i x, i < len' → t.buf.look i = some x → u.buf.look i = some (fmul x s.snap.gainOut)

/-- R188, R189: `PROCESS` latches, retargets the feedback-gain ramp, runs the sample steps over the
input samples `xs` (the elements `BUF[0..len)`, as far as they are listed) in order, applies the gain
stage to their outputs and clears the extra channels; nothing else changes. The groups of control
operations that complete during its latch are the model's form of the race of R70, log entry 9. -/
def Obligations.ProcessRunsTheBlock : Prop :=
  ∀ (s : State) (nch len : Nat), s.lc = .prepared ∨ s.lc = .processing →
    1 ≤ nch → nch ≤ 2 → len ≤ s.mb.toNat → s.mb.toNat ≤ 8192 →
    ∃ (t start : State) (xs : List Word), exec (.process nch len) s = .next t ∧
      xs.length = len ∧ (∀ i x, i < len → s.buf.look i = some x → xs[i]? = some x) ∧
      start = { s with
        lc := .processing
        snap := latchedSnapshot s
        ramp1 := Ramp.setTarget (latchedSnapshot s).fbGain s.ramp1 } ∧
      t = { s with
        lc := .processing
        snap := latchedSnapshot s
        an := (runSamples cfg xs start).1.an
        ramp0 := (runSamples cfg xs start).1.ramp0
        ramp1 := (runSamples cfg xs start).1.ramp1
        osc := (runSamples cfg xs start).1.osc
        gain := { cur := (latchedSnapshot s).gainOut
                  prev := if len = 0 ∨ feq (latchedSnapshot s).gainOut s.gain.prev = true
                    then s.gain.prev else (latchedSnapshot s).gainOut }
        buf := t.buf
        cells := t.cells
        race := s.race.drop 5
        outputs := ctlResults s.cells (s.race.take 5).flatten ++ s.outputs } ∧
      (∀ i y, i < len → (runSamples cfg xs start).2[i]? = some y →
        t.buf.look i = some (fmul y (stageGain start len i))) ∧
      (runSamples cfg xs start).2.length = len ∧
      (∀ ch i, 1 ≤ ch → ch < nch → i < len → t.buf.look (ch * 8192 + i) = some 0#32) ∧
      (∀ j, len ≤ j → (∀ ch i, 1 ≤ ch → ch < nch → i < len → j ≠ ch * 8192 + i) →
        t.buf.look j = s.buf.look j) ∧
      (∀ k, k < 5 → t.cells.read k = cellAfter s.cells k (s.race.take 5).flatten) ∧
      (s.race = [] → t.cells = s.cells)

/-- R189 corner case (b): block boundaries are invisible to the analyzer, the ramps and the oscillator
when the parameters do not change. -/
def Obligations.BlockBoundariesAreInvisible : Prop :=
  ∀ (s t1 t2 u : State) (nch : Nat) (xs ys : List Word) (b1 b2 b3 : Memory), s.race = [] →
    s.lc = .prepared ∨ s.lc = .processing → 1 ≤ nch → nch ≤ 2 →
    xs.length + ys.length ≤ s.mb.toNat → s.mb.toNat ≤ 8192 →
    (∀ i, i < xs.length → b1.look i = xs[i]?) → (∀ i, i < ys.length → b2.look i = ys[i]?) →
    (∀ i, i < xs.length + ys.length → b3.look i = (xs ++ ys)[i]?) →
    exec (.process nch xs.length) { s with buf := b1 } = .next t1 →
    exec (.process nch ys.length) { t1 with buf := b2 } = .next t2 →
    exec (.process nch (xs.length + ys.length)) { s with buf := b3 } = .next u →
    t2.an = u.an ∧ t2.ramp0 = u.ramp0 ∧ t2.ramp1 = u.ramp1 ∧ t2.osc = u.osc

/-- R71: control operations after the five loads of a `PROCESS` change nothing of that block. The
groups of control operations are the model's form of the race of R70, log entry 9. -/
def Obligations.ControlWritesAfterTheLatchDoNotReachTheBlock : Prop :=
  ∀ (s t : State) (nch len : Nat) (later : List (List CtlOp)), 5 ≤ s.race.length →
    exec (.process nch len) s = .next t →
    exec (.process nch len) { s with race := s.race ++ later } =
      .next { t with race := t.race ++ later }

/-! ## The whole machine -/

/-- R44: no command writes an element it does not own; a refused command writes nothing but the fault
record. -/
def Obligations.CommandsWriteOnlyWhatTheyOwn : Prop :=
  ∀ (i : Instr) (s t : State), exec i s = .next t →
    t.opa = s.opa ∧ t.sampleRate = s.sampleRate ∧ t.maxBlk = s.maxBlk ∧
    t.busy = s.busy ∧ t.pending = s.pending ∧
    (writesRes i = false → t.res = s.res) ∧
    (writesBuf i = false → t.buf = s.buf) ∧
    (s.race = [] → t.cells = s.cells ∧ t.outputs = s.outputs) ∧
    (latches i = false → t.cells = s.cells ∧ t.outputs = s.outputs ∧ t.race = s.race) ∧
    (i ≠ .prepare ∧ i ≠ .release →
      t.sr = s.sr ∧ t.mb = s.mb ∧ t.sine = s.sine ∧ t.hann = s.hann) ∧
    (i ≠ .release →
      t.draws = s.draws ∧
      (latches i = false → t.snap = s.snap) ∧
      (writesAnalyzer i = false → t.an = s.an) ∧
      (writesRamp 0 i = false → t.ramp0 = s.ramp0) ∧
      (writesRamp 1 i = false → t.ramp1 = s.ramp1) ∧
      (writesOsc i = false → t.osc = s.osc) ∧
      (writesGain i = false → t.gain = s.gain)) ∧
    (t.faults ≠ s.faults → t = { s with faults := t.faults })

/-- R216: within a session the latched rate and block size, the tables and the ramp lengths are
constant. -/
def Obligations.SessionConstantsAreKept : Prop :=
  ∀ (i : Instr) (s t : State), i.isStreaming = true → exec i s = .next t →
    s.ramp0.len = f2uFloorSat (fmul 0x3CCCCCCD#32 s.sr) →
    s.ramp1.len = f2uFloorSat (fmul 0x3BA3D70A#32 s.sr) →
    t.sr = s.sr ∧ t.mb = s.mb ∧ t.sine = s.sine ∧ t.hann = s.hann ∧
      t.ramp0.len = s.ramp0.len ∧ t.ramp1.len = s.ramp1.len

/-- R26, R29, R30, R32, R34, R36 to R39: the invariant of the machine holds at reset. -/
def Obligations.InvariantHoldsAtReset : Prop := Inv cfg State.reset

/-- R26, R29, R30, R32, R34, R36 to R39: every step keeps the invariant of the machine. -/
def Obligations.EveryStepKeepsTheInvariant : Prop :=
  ∀ s t : State, Inv cfg s → step s = .next t → Inv cfg t

/-- R219, R230: no operation stops the machine (log entry 13); with no operation to come the core is idle
and holds its state (R219, R244, log entry 2). -/
def Obligations.EveryStepCompletes : Prop :=
  ∀ s : State, (∃ t, step s = .next t) ∧ (s.pending = [] → step s = .next s)

/-! ## Ports and reset -/

/-- R65, R66: a host read returns the element's content and changes no state of the block. The queue,
the list of results and the counter of draws are the model's own fields, log entries 2 and 4. -/
def Obligations.HostReadHasNoSideEffect : Prop :=
  ∀ (s : State) (a : HostAddr) (rest : List Event), s.pending = .hostRead a :: rest →
    ∃ (t : State) (v : Word), step s = .next t ∧
      t = { s with pending := rest, outputs := .host a v :: s.outputs, draws := t.draws } ∧
      (∀ x, elemContent cfg s (hostElem cfg a.toNat) = some x → v = x ∧ t.draws = s.draws)

/-- R62, R66, R69: what a host read of each index of the register map returns; the debug view has its
contents in a session. -/
def Obligations.RegisterMapContents : Prop :=
  ∀ s : State,
    elemContent cfg s (hostElem cfg 0x00) = some 0#32 ∧
    elemContent cfg s (hostElem cfg 0x01) = some (statusWord s) ∧
    elemContent cfg s (hostElem cfg 0x02) = some s.opa ∧
    elemContent cfg s (hostElem cfg 0x03) = some s.res ∧
    elemContent cfg s (hostElem cfg 0x04) = some s.sampleRate ∧
    elemContent cfg s (hostElem cfg 0x05) = some s.maxBlk ∧
    elemContent cfg s (hostElem cfg 0x06) = some s.faults.cmd ∧
    elemContent cfg s (hostElem cfg 0x07) = some s.faults.cause ∧
    elemContent cfg s (hostElem cfg 0x08) = some 0x46424B31#32 ∧
    elemContent cfg s (hostElem cfg 0x09) = some 4096#32 ∧
    elemContent cfg s (hostElem cfg 0x0A) = some 1024#32 ∧
    elemContent cfg s (hostElem cfg 0x0B) = some 8192#32 ∧
    elemContent cfg s (hostElem cfg 0x0C) = some 2#32 ∧
    elemContent cfg s (hostElem cfg 0x10) = some s.cells.gainOut ∧
    elemContent cfg s (hostElem cfg 0x11) = some s.cells.fbGain ∧
    elemContent cfg s (hostElem cfg 0x12) = some s.cells.offset ∧
    elemContent cfg s (hostElem cfg 0x13) = some s.cells.tol ∧
    elemContent cfg s (hostElem cfg 0x14) = some s.cells.detune ∧
    (s.lc = .prepared ∨ s.lc = .processing →
      elemContent cfg s (hostElem cfg 0x20) = some (BitVec.ofNat 32 s.an.fifoIdx) ∧
      elemContent cfg s (hostElem cfg 0x21) = some s.an.frameCnt ∧
      elemContent cfg s (hostElem cfg 0x22) = some s.an.detFreq ∧
      elemContent cfg s (hostElem cfg 0x23) = some s.osc.phase ∧
      elemContent cfg s (hostElem cfg 0x24) = some s.osc.phaseInc ∧
      elemContent cfg s (hostElem cfg 0x25) = some s.gain.cur ∧
      elemContent cfg s (hostElem cfg 0x26) = some s.gain.prev ∧
      elemContent cfg s (hostElem cfg 0x28) = some s.ramp0.cur ∧
      elemContent cfg s (hostElem cfg 0x29) = some s.ramp0.tgt ∧
      elemContent cfg s (hostElem cfg 0x2A) = some s.ramp0.step ∧
      elemContent cfg s (hostElem cfg 0x2B) = some s.ramp0.rem ∧
      elemContent cfg s (hostElem cfg 0x2C) = some s.ramp0.len ∧
      elemContent cfg s (hostElem cfg 0x30) = some s.ramp1.cur ∧
      elemContent cfg s (hostElem cfg 0x31) = some s.ramp1.tgt ∧
      elemContent cfg s (hostElem cfg 0x32) = some s.ramp1.step ∧
      elemContent cfg s (hostElem cfg 0x33) = some s.ramp1.rem ∧
      elemContent cfg s (hostElem cfg 0x34) = some s.ramp1.len ∧
      elemContent cfg s (hostElem cfg 0x38) = some s.snap.gainOut ∧
      elemContent cfg s (hostElem cfg 0x39) = some s.snap.fbGain ∧
      elemContent cfg s (hostElem cfg 0x3A) = some s.snap.offset ∧
      elemContent cfg s (hostElem cfg 0x3B) = some s.snap.tol ∧
      elemContent cfg s (hostElem cfg 0x3C) = some s.snap.detune ∧
      (∀ k, k < 4096 → elemContent cfg s (hostElem cfg (0x10000 + k)) = s.an.work.look k) ∧
      (∀ i, i < 1024 → elemContent cfg s (hostElem cfg (0x20000 + i)) = s.sine.look i) ∧
      (∀ n, n < 4096 → elemContent cfg s (hostElem cfg (0x30000 + n)) = s.hann.look n)) ∧
    (∀ j, j < 16384 → elemContent cfg s (hostElem cfg (0x40000 + j)) = s.buf.look j) ∧
    (∀ a, (0x0D ≤ a ∧ a < 0x10) ∨ (0x15 ≤ a ∧ a < 0x20) ∨ a = 0x27 ∨ (0x2D ≤ a ∧ a < 0x30) ∨
        (0x35 ≤ a ∧ a < 0x38) ∨ (0x3D ≤ a ∧ a < 0x10000) ∨ (0x11000 ≤ a ∧ a < 0x20000) ∨
        (0x20400 ≤ a ∧ a < 0x30000) ∨ (0x31000 ≤ a ∧ a < 0x40000) ∨ 0x44000 ≤ a →
      elemContent cfg s (hostElem cfg a) = some 0#32)

/-- R42: outside a session a host read of the debug view, its registers and its three windows, returns
a draw, a new one at each read: the model's choice among what R42 allows, log entry 4. In the states a
run reaches no element of the windows is listed then; a window element that a state without a session
lists is hidden all the same. -/
def Obligations.UnspecifiedReadsAreFreshDraws : Prop :=
  ∀ (s : State) (a : HostAddr) (rest : List Event), s.pending = .hostRead a :: rest →
    s.lc = .uninitialized ∨ s.lc = .released →
    (0x20 ≤ a.toNat ∧ a.toNat ≤ 0x26) ∨ (0x28 ≤ a.toNat ∧ a.toNat ≤ 0x2C) ∨
      (0x30 ≤ a.toNat ∧ a.toNat ≤ 0x34) ∨ (0x38 ≤ a.toNat ∧ a.toNat ≤ 0x3C) ∨
      (0x10000 ≤ a.toNat ∧ a.toNat < 0x11000) ∨ (0x20000 ≤ a.toNat ∧ a.toNat < 0x20400) ∨
      (0x30000 ≤ a.toNat ∧ a.toNat < 0x31000) →
    step s = .next { s with
      pending := rest
      outputs := .host a (Config.unspecified s.draws a.toNat) :: s.outputs
      draws := s.draws + 1 }

/-- R65, R67: a host write to an RW element sets that element and nothing else, and a read of it then
returns the pattern written and changes nothing of the block. -/
def Obligations.WriteThenReadBack : Prop :=
  ∀ (s : State) (a : HostAddr) (v : Word) (rest : List Event),
    s.pending = .hostWrite a v {} :: .hostRead a :: rest →
    a.toNat = 2 ∨ a.toNat = 4 ∨ a.toNat = 5 ∨ (0x10 ≤ a.toNat ∧ a.toNat ≤ 0x14) ∨
      (0x40000 ≤ a.toNat ∧ a.toNat < 0x44000) →
    ∃ t u, step s = .next t ∧ step t = .next u ∧
      u = { t with pending := rest, outputs := .host a v :: s.outputs } ∧
      t = { s with
        pending := .hostRead a :: rest
        opa := if a.toNat = 2 then v else s.opa
        sampleRate := if a.toNat = 4 then v else s.sampleRate
        maxBlk := if a.toNat = 5 then v else s.maxBlk
        cells := t.cells
        buf := t.buf } ∧
      (∀ k, k < 5 → t.cells.read k = if a.toNat = 0x10 + k then v else s.cells.read k) ∧
      (∀ j, t.buf.look j = if a.toNat = 0x40000 + j then some v else s.buf.look j)

/-- R67, R69: a host write to a read-only or unmapped index changes nothing. -/
def Obligations.ReadOnlyAndUnmappedWritesAreIgnored : Prop :=
  ∀ (s : State) (a : HostAddr) (v : Word) (rest : List Event),
    s.pending = .hostWrite a v {} :: rest →
    a.toNat ≠ 0 → a.toNat ≠ 2 → a.toNat ≠ 4 → a.toNat ≠ 5 →
    ¬ (0x10 ≤ a.toNat ∧ a.toNat ≤ 0x14) → ¬ (0x40000 ≤ a.toNat ∧ a.toNat < 0x44000) →
    step s = .next { s with pending := rest }

/-- R67, R70, R240: the control port reaches the five cells and nothing else. -/
def Obligations.ControlPortReachesOnlyTheCells : Prop :=
  ∀ (s : State) (k : Nat) (v : Word) (rest : List Event),
    (s.pending = .ctl (.write k v) :: rest →
      ∃ x : Cells, step s = .next { s with pending := rest, cells := x } ∧
        (∀ j, j ≠ k → x.read j = s.cells.read j) ∧ (k < 5 → x.read k = v) ∧
        (5 ≤ k → x = s.cells)) ∧
    (s.pending = .ctl (.read k) :: rest →
      ∃ w : Word, step s = .next { s with pending := rest, outputs := .ctl k w :: s.outputs } ∧
        w = if k = 0 then s.cells.gainOut else if k = 1 then s.cells.fbGain
          else if k = 2 then s.cells.offset else if k = 3 then s.cells.tol
          else if k = 4 then s.cells.detune else 0#32)

/-- R61, R63, R64: the bus wrapper forwards an aligned 32-bit access of byte address `4 x a` as the
access of word `a`, and refuses every other access. -/
def Obligations.BusWrapperRefusesOtherAccesses : Prop :=
  ∀ (s : State) (addr : ByteAddr) (size : Nat) (v : Word) (m : Meanwhile) (rest : List Event),
    (size = 4 → addr.toNat % 4 = 0 →
      (s.pending = .busWrite addr size v m :: rest →
        step s = step { s with
          pending := .hostWrite (BitVec.ofNat 19 (addr.toNat / 4)) v m :: rest }) ∧
      (s.pending = .busRead addr size :: rest →
        step s = step { s with
          pending := .hostRead (BitVec.ofNat 19 (addr.toNat / 4)) :: rest })) ∧
    (size ≠ 4 ∨ addr.toNat % 4 ≠ 0 →
      (s.pending = .busWrite addr size v {} :: rest → step s = .next { s with pending := rest }) ∧
      (s.pending = .busRead addr size :: rest →
        step s = .next { s with
          pending := rest, outputs := .busRefused addr 0#32 :: s.outputs }))

/-- R260: hardware reset from any state. That the operations to come and the results of reads are kept
is the model's choice, log entry 11. -/
def Obligations.ResetFromAnyState : Prop :=
  ∀ (s : State) (rest : List Event), s.pending = .reset :: rest →
    ∃ t, step s = .next t ∧ t.lc = .uninitialized ∧ statusWord t = 0#32 ∧ t.faults.cmd = 0#32 ∧
      t.faults.cause = 0#32 ∧ t.opa = 0#32 ∧ t.res = 0#32 ∧ t.sampleRate = 0#32 ∧
      t.maxBlk = 0#32 ∧ (∀ k, k < 5 → t.cells.read k = 0#32) ∧ t.pending = rest ∧
      t.outputs = s.outputs ∧
      (∀ j, t.buf.look j = none ∧ t.sine.look j = none ∧ t.hann.look j = none ∧
        t.an.work.look j = none ∧ t.an.fifo.look j = none)

/-- R41, R260: the values right after hardware reset. -/
def Obligations.ResetValues : Prop :=
  State.reset.lc = .uninitialized ∧ statusWord State.reset = 0#32 ∧
  State.reset.faults.cmd = 0#32 ∧ State.reset.faults.cause = 0#32 ∧ State.reset.opa = 0#32 ∧
  State.reset.res = 0#32 ∧ State.reset.sampleRate = 0#32 ∧ State.reset.maxBlk = 0#32 ∧
  State.reset.cells.gainOut = 0#32 ∧ State.reset.cells.fbGain = 0#32 ∧
  State.reset.cells.offset = 0#32 ∧ State.reset.cells.tol = 0#32 ∧
  State.reset.cells.detune = 0#32

/-- R11 (P1 and the exact entries), R12 (P1): the fixed points of the default tables. -/
def Obligations.TableFixedPoints : Prop :=
  cfg.sintab 0 = 0#32 ∧ cfg.sintab 256 = 0x3F800000#32 ∧ cfg.sintab 512 = 0#32 ∧
  cfg.sintab 768 = 0xBF800000#32 ∧ cfg.hanntab 0 = 0#32 ∧ cfg.hanntab 4095 = 0#32 ∧
  cfg.semipow 0 = 0x3F800000#32 ∧ cfg.semipow 12 = 0x40000000#32 ∧ cfg.semipow 24 = 0x40800000#32
end

