-- ==== Sys2Proof/Laws/Config.lean ====
section
/-! SUPPORT. The parameters of the canonical configuration (R4, R5), so that no proof unfolds it. -/

namespace Sys2Proof.Machine

theorem two_pow_twelve : (2 : Nat) ^ 12 = 4096 := by norm_num

@[simp] theorem cfg_log2n : cfg.log2n = 12 := rfl
@[simp] theorem cfg_n : cfg.n = 4096 := by
  show 2 ^ 12 = 4096
  norm_num
@[simp] theorem cfg_t : cfg.t = 1024 := rfl
@[simp] theorem cfg_interp : cfg.interp = true := rfl
@[simp] theorem cfg_tolscale : cfg.tolscale = 0x437A0000#32 := rfl
@[simp] theorem cfg_durFreq : cfg.durFreq = 0x3CCCCCCD#32 := rfl
@[simp] theorem cfg_durFb : cfg.durFb = 0x3BA3D70A#32 := rfl
@[simp] theorem cfg_bufcap : cfg.bufcap = 8192 := rfl
@[simp] theorem cfg_nchmax : cfg.nchmax = 2 := rfl
theorem cfg_sintab : cfg.sintab = sinTable 1024 := rfl
theorem cfg_hanntab : cfg.hanntab = hannTable 4096 := by
  simp only [cfg, canonical, cfgWith, two_pow_twelve]
theorem cfg_semipow : cfg.semipow = semiPow := rfl
theorem cfg_fftmag : cfg.fftmag = fftMag 4096 := by
  simp only [cfg, canonical, cfgWith, two_pow_twelve]

end Sys2Proof.Machine
end

