-- ==== Sys2Proof/Laws/Decode.lean ====
section
/-! SUPPORT. The fields of an assembled word and the word of its fields (R90). -/

namespace Sys2Proof

theorem fields_of_assemble {op sel imm : Nat} (h1 : op < 2 ^ 8) (h2 : sel < 2 ^ 4)
    (h3 : imm < 2 ^ 20) :
    opField (assemble op sel imm) = op ∧ selField (assemble op sel imm) = sel ∧
      immField (assemble op sel imm) = imm := by
  unfold opField selField immField assemble
  refine ⟨?_, ?_, ?_⟩
  · have e : (BitVec.ofNat 8 op ++ BitVec.ofNat 4 sel ++ BitVec.ofNat 20 imm).extractLsb' 24 8 =
        BitVec.ofNat 8 op := by
      apply BitVec.eq_of_getLsbD_eq
      intro i hi
      simp only [BitVec.getLsbD_extractLsb', BitVec.getLsbD_append]
      simp [show ¬ 24 + i < 20 by omega, show ¬ 24 + i - 20 < 4 by omega, hi,
        show 24 + i - 20 - 4 = i by omega]
    rw [e, BitVec.toNat_ofNat, Nat.mod_eq_of_lt h1]
  · have e : (BitVec.ofNat 8 op ++ BitVec.ofNat 4 sel ++ BitVec.ofNat 20 imm).extractLsb' 20 4 =
        BitVec.ofNat 4 sel := by
      apply BitVec.eq_of_getLsbD_eq
      intro i hi
      simp only [BitVec.getLsbD_extractLsb', BitVec.getLsbD_append]
      simp [show ¬ 20 + i < 20 by omega, hi]
    rw [e, BitVec.toNat_ofNat, Nat.mod_eq_of_lt h2]
  · have e : (BitVec.ofNat 8 op ++ BitVec.ofNat 4 sel ++ BitVec.ofNat 20 imm).extractLsb' 0 20 =
        BitVec.ofNat 20 imm := by
      apply BitVec.eq_of_getLsbD_eq
      intro i hi
      simp only [BitVec.getLsbD_extractLsb', BitVec.getLsbD_append]
      simp [hi]
    rw [e, BitVec.toNat_ofNat, Nat.mod_eq_of_lt h3]

theorem assemble_of_fields (w : Word) : assemble (opField w) (selField w) (immField w) = w := by
  unfold assemble opField selField immField
  simp only [BitVec.ofNat_toNat, BitVec.setWidth_eq]
  apply BitVec.eq_of_getLsbD_eq
  intro i hi
  simp only [BitVec.getLsbD_extractLsb', BitVec.getLsbD_append]
  by_cases h : i < 20
  · simp [h]
  · by_cases h2 : i - 20 < 4
    · simp only [h, h2, if_false, if_true, decide_true, Bool.true_and]
      congr 1; omega
    · simp [h, h2, show 24 + (i - 20 - 4) = i by omega, show i - 20 - 4 < 8 by omega]

theorem selField_lt (w : Word) : selField w < 2 ^ 4 := (w.extractLsb' 20 4).isLt
theorem immField_lt (w : Word) : immField w < 2 ^ 20 := (w.extractLsb' 0 20).isLt

end Sys2Proof
end

