-- ==== Sys2Proof/Laws/Float.lean ====
section
/-! SUPPORT. Laws of `F`: packing, comparisons, clamping, rounding of whole units, and the range of
`PMOD`. -/

namespace Sys2Proof.Machine

open Sys2Proof.Safety

/-! ## Patterns -/

theorem fMag_lt (a : Word) : fMag a < 2 ^ 31 := Nat.mod_lt _ (by norm_num)

theorem packF_toNat (neg : Bool) {m : Nat} (h : m < 2 ^ 31) :
    (packF neg m).toNat = (if neg then 2 ^ 31 else 0) + m := by
  unfold packF
  rw [BitVec.toNat_append, BitVec.toNat_ofBool, BitVec.toNat_ofNat, Nat.mod_eq_of_lt h,
    Nat.shiftLeft_eq, Nat.mul_comm, ← Nat.two_pow_add_eq_or_of_lt h]
  cases neg <;> simp

@[simp] theorem fMag_packF (neg : Bool) {m : Nat} (h : m < 2 ^ 31) : fMag (packF neg m) = m := by
  unfold fMag
  rw [packF_toNat neg h]
  cases neg <;> simp <;> omega

@[simp] theorem fSign_packF (neg : Bool) (m : Nat) : fSign (packF neg m) = neg := by
  unfold fSign packF
  rw [BitVec.msb_append]
  cases neg <;> rfl

/-- A pattern is its sign and its magnitude. -/
theorem packF_eta (a : Word) : packF (fSign a) (fMag a) = a := by
  apply BitVec.eq_of_toNat_eq
  rw [packF_toNat _ (fMag_lt a)]
  unfold fSign fMag
  have := a.isLt
  rw [BitVec.msb_eq_decide]
  by_cases hb : 2 ^ 31 ≤ a.toNat
  · rw [if_pos (by simpa using hb)]; omega
  · rw [if_neg (by simpa using hb)]; omega

theorem isNaN_of_isFinite {a : Word} (h : isFinite a = true) : isNaN a = false := by
  simp only [isFinite, isNaN, decide_eq_true_eq, decide_eq_false_iff_not] at *
  omega

/-! ## Comparisons -/

theorem feq_iff (a b : Word) : feq a b = true ↔
    isNaN a = false ∧ isNaN b = false ∧ orderKey a = orderKey b := by
  simp [feq, and_assoc]

theorem flt_iff (a b : Word) : flt a b = true ↔
    isNaN a = false ∧ isNaN b = false ∧ orderKey a < orderKey b := by
  simp [flt, and_assoc]

theorem feq_self {a : Word} (h : isNaN a = false) : feq a a = true := by simp [feq, h]

theorem between_iff (lo hi x : Word) (hlo : isNaN lo = false) (hhi : isNaN hi = false) :
    between lo hi x = true ↔ isNaN x = false ∧ orderKey lo ≤ orderKey x ∧ orderKey x ≤ orderKey hi := by
  cases hx : isNaN x <;> simp [between, flt, hlo, hhi, hx]

/-- A clamped value lies between the bounds if they are in order around `+0.0` (R15, R29). -/
theorem clampF_between {lo hi : Word} (x : Word) (hlo : isNaN lo = false) (hhi : isNaN hi = false)
    (h0 : orderKey lo ≤ 0) (h1 : 0 ≤ orderKey hi) : between lo hi (clampF x lo hi) = true := by
  rw [between_iff _ _ _ hlo hhi]
  have hz : isNaN fZero = false ∧ orderKey fZero = 0 := by decide
  unfold clampF fgt
  cases hx : isNaN x
  · simp only [Bool.false_eq_true, if_false]
    by_cases h2 : flt x lo = true
    · rw [if_pos h2]; exact ⟨hlo, le_refl _, by omega⟩
    · rw [if_neg h2]
      by_cases h3 : flt hi x = true
      · rw [if_pos h3]; exact ⟨hhi, by omega, le_refl _⟩
      · rw [if_neg h3]
        rw [flt_iff] at h2 h3
        simp only [hx, hlo, hhi, true_and, not_lt] at h2 h3
        exact ⟨hx, h2, h3⟩
  · simp only [if_true]
    exact ⟨hz.1, by omega, by omega⟩

theorem clampI_le (x : Word) : (clampI x 0#32 24#32).toNat ≤ 24 := by
  unfold clampI
  split
  · decide
  · split
    · decide
    · next h1 h2 =>
      simp only [BitVec.slt_iff_toInt_lt, not_lt] at h1 h2
      have e0 : (0#32 : Word).toInt = 0 := by decide
      have e1 : (24#32 : Word).toInt = 24 := by decide
      rw [e0] at h1
      rw [e1] at h2
      have := BitVec.toInt_eq_toNat_cond x
      split at this <;> omega

/-! ## Rounding of a whole number of units -/

theorem binade_spec {u : Nat} (h : 2 ^ 24 ≤ u) :
    2 ^ (binade u + 23) ≤ u ∧ u < 2 ^ (binade u + 24) := by
  have hu : u ≠ 0 := by have : (0 : Nat) < 2 ^ 24 := by norm_num
                        omega
  have h24 : 24 ≤ Nat.log2 u := (Nat.le_log2 hu).2 h
  have e : binade u + 23 = Nat.log2 u := by unfold binade; omega
  refine ⟨?_, ?_⟩
  · rw [e]; exact Nat.log2_self_le hu
  · have : binade u + 24 = Nat.log2 u + 1 := by omega
    rw [this]; exact Nat.lt_log2_self

theorem binade_small {u : Nat} (h : u < 2 ^ 24) : binade u = 0 := by
  unfold binade
  by_cases hu : u = 0
  · subst hu; simp
  · have := (Nat.log2_lt hu).2 h
    omega

theorem divNearest_mono {n m d : Nat} (hd : 0 < d) (h : n ≤ m) : divNearest n d ≤ divNearest m d := by
  have hn := Nat.div_add_mod n d
  have hm := Nat.div_add_mod m d
  have hq : n / d ≤ m / d := Nat.div_le_div_right h
  have rn := Nat.mod_lt n hd
  have rm := Nat.mod_lt m hd
  rcases Nat.lt_or_ge (n / d) (m / d) with hlt | hge
  · have h1 : divNearest n d ≤ n / d + 1 := by
      unfold divNearest
      split
      · omega
      · split <;> omega
    have h2 : m / d ≤ divNearest m d := by
      unfold divNearest
      split
      · omega
      · split <;> omega
    omega
  · have e : n / d = m / d := by omega
    have hr : n % d ≤ m % d := by
      rw [e] at hn
      omega
    unfold divNearest
    rw [e]
    split
    · split
      · omega
      · split <;> omega
    · split
      · split
        · omega
        · split <;> omega
      · split
        · omega
        · split <;> omega

theorem divNearest_le {n d q : Nat} (hd : 0 < d) (h : n ≤ q * d) : divNearest n d ≤ q := by
  have e : divNearest (q * d) d = q := by simp [divNearest, hd, Nat.mul_div_cancel _ hd]
  exact e ▸ divNearest_mono hd h

theorem le_divNearest {n d q : Nat} (hd : 0 < d) (h : q * d ≤ n) : q ≤ divNearest n d := by
  have e : divNearest (q * d) d = q := by simp [divNearest, hd, Nat.mul_div_cancel _ hd]
  exact e ▸ divNearest_mono hd h

/-- The magnitude before saturation, for whole units. -/
theorem roundMag_one (n : Nat) :
    roundMag n 1 = min (binade n * 2 ^ 23 + divNearest n (2 ^ binade n)) infMag := by
  simp [roundMag]

/-- Rounding keeps the order. -/
theorem roundMag_mono {n m : Nat} (h : n ≤ m) : roundMag n 1 ≤ roundMag m 1 := by
  rw [roundMag_one, roundMag_one]
  refine min_le_min_right _ ?_
  have hp : ∀ e : Nat, 0 < 2 ^ e := fun e => Nat.two_pow_pos e
  rcases Nat.lt_or_ge m (2 ^ 24) with hm | hm
  · rw [binade_small hm, binade_small (lt_of_le_of_lt h hm)]
    exact Nat.add_le_add_left (divNearest_mono (hp 0) h) _
  · obtain ⟨m1, m2⟩ := binade_spec hm
    have lower : 2 ^ 23 ≤ divNearest m (2 ^ binade m) :=
      le_divNearest (hp _) (by rw [← pow_add, Nat.add_comm]; exact m1)
    rcases Nat.lt_trichotomy (binade n) (binade m) with hlt | heq | hgt
    · have upper : divNearest n (2 ^ binade n) ≤ 2 ^ 24 := by
        refine divNearest_le (hp _) ?_
        rw [← pow_add, Nat.add_comm]
        rcases Nat.lt_or_ge n (2 ^ 24) with hn | hn
        · rw [binade_small hn]; exact le_of_lt hn
        · exact le_of_lt (binade_spec hn).2
      have : (2 : Nat) ^ 24 = 2 * 2 ^ 23 := by norm_num
      have h3 : (binade n + 1) * 2 ^ 23 ≤ binade m * 2 ^ 23 := Nat.mul_le_mul_right _ hlt
      rw [Nat.add_mul] at h3
      omega
    · rw [heq]
      exact Nat.add_le_add_left (divNearest_mono (hp _) h) _
    · exfalso
      rcases Nat.lt_or_ge n (2 ^ 24) with hn | hn
      · rw [binade_small hn] at hgt; omega
      · have n1 := (binade_spec hn).1
        have : (2 : Nat) ^ (binade m + 24) ≤ 2 ^ (binade n + 23) :=
          Nat.pow_le_pow_right (by norm_num) (by omega)
        omega

theorem roundMag_le (n d : Nat) : roundMag n d ≤ infMag := min_le_right _ _

theorem roundMag_lt (n d : Nat) : roundMag n d < 2 ^ 31 :=
  lt_of_le_of_lt (roundMag_le n d) (by decide)

/-- The value of a finite pattern rounds to itself. -/
theorem roundMag_magUnits {m : Nat} (h : m < infMag) : roundMag (magUnits m) 1 = m := by
  rw [roundMag_one]
  unfold magUnits
  have hb : (0 : Nat) < 2 ^ 23 := by norm_num
  have hdm := Nat.div_add_mod m (2 ^ 23)
  have hr := Nat.mod_lt m hb
  generalize hq : m / 2 ^ 23 = q at *
  generalize hr' : m % 2 ^ 23 = r at *
  by_cases h0 : q = 0
  · subst h0
    have hm : m < 2 ^ 24 := by omega
    simp only [if_true]
    rw [binade_small hm]
    simp only [divNearest, pow_zero, Nat.mod_one, Nat.div_one]
    have : min m infMag = m := min_eq_left (le_of_lt h)
    simpa using this
  · simp only [h0, if_false]
    obtain ⟨k, rfl⟩ : ∃ k, q = k + 1 := ⟨q - 1, by omega⟩
    simp only [Nat.add_sub_cancel]
    have hx1 : 2 ^ 23 ≤ r + 2 ^ 23 := by omega
    have hx2 : r + 2 ^ 23 < 2 ^ 24 := by omega
    have hpos : 0 < 2 ^ k := Nat.two_pow_pos k
    have hbin : binade ((r + 2 ^ 23) * 2 ^ k) = k := by
      have hne : (r + 2 ^ 23) * 2 ^ k ≠ 0 := by positivity
      have h1 : 2 ^ (k + 23) ≤ (r + 2 ^ 23) * 2 ^ k := by
        rw [Nat.add_comm k 23, pow_add]; exact Nat.mul_le_mul_right _ hx1
      have h2 : (r + 2 ^ 23) * 2 ^ k < 2 ^ (k + 24) := by
        rw [Nat.add_comm k 24, pow_add]; exact Nat.mul_lt_mul_of_pos_right hx2 hpos
      have h3 := (Nat.le_log2 hne).2 h1
      have h4 := (Nat.log2_lt hne).2 h2
      unfold binade; omega
    rw [hbin]
    have hdn : divNearest ((r + 2 ^ 23) * 2 ^ k) (2 ^ k) = r + 2 ^ 23 := by
      simp [divNearest, Nat.mul_div_cancel _ hpos]
    rw [hdn]
    have : k * 2 ^ 23 + (r + 2 ^ 23) = m := by
      rw [← hdm]; ring
    rw [this]
    exact min_eq_left (le_of_lt h)

/-- The nearest multiple of `d`, an even one on a tie. -/
theorem divNearest_spec (n : Nat) {d : Nat} (hd : 0 < d) (k : Int) :
    |(divNearest n d : Int) * d - n| ≤ |k * d - n| ∧
    (|(divNearest n d : Int) * d - n| = |k * d - n| → k = divNearest n d ∨ divNearest n d % 2 = 0) := by
  have hn := Nat.div_add_mod n d
  have hr := Nat.mod_lt n hd
  have key : divNearest n d = n / d ∧ 2 * (n % d) < d ∨
      divNearest n d = n / d + 1 ∧ d < 2 * (n % d) ∨
      divNearest n d = n / d + n / d % 2 ∧ 2 * (n % d) = d := by
    unfold divNearest
    split
    · exact .inl ⟨rfl, by assumption⟩
    · split
      · exact .inr (.inl ⟨rfl, by assumption⟩)
      · exact .inr (.inr ⟨rfl, by omega⟩)
  generalize divNearest n d = g at *
  generalize n / d = q at *
  generalize n % d = r at *
  have hnz : (n : Int) = d * q + r := by exact_mod_cast hn.symm
  have hdz : (0 : Int) < d := by exact_mod_cast hd
  rw [hnz]
  -- the distance of the multiple `k d` from `q d + r`
  have dist : k * (d : Int) - (d * q + r) = (k - q) * d - r := by ring
  have distg : (g : Int) * (d : Int) - (d * q + r) = (g - q) * d - r := by ring
  rw [dist, distg]
  have lo : k ≤ q → (d : Int) * 0 + r ≤ |(k - q) * d - r| := fun h => by
    have : (k - q) * (d : Int) ≤ 0 := mul_nonpos_of_nonpos_of_nonneg (by omega) hdz.le
    rw [abs_of_nonpos (by omega)]; omega
  have lo' : k < q → (d : Int) + r ≤ |(k - q) * d - r| := fun h => by
    have : (k - q) * (d : Int) ≤ (-1) * d := mul_le_mul_of_nonneg_right (by omega) hdz.le
    rw [abs_of_nonpos (by omega)]; omega
  have hi : (q : Int) + 1 ≤ k → (d : Int) - r ≤ |(k - q) * d - r| := fun h => by
    have : 1 * (d : Int) ≤ (k - q) * d := mul_le_mul_of_nonneg_right (by omega) hdz.le
    rw [abs_of_nonneg (by omega)]; omega
  have hi' : (q : Int) + 2 ≤ k → 2 * (d : Int) - r ≤ |(k - q) * d - r| := fun h => by
    have : 2 * (d : Int) ≤ (k - q) * d := mul_le_mul_of_nonneg_right (by omega) hdz.le
    rw [abs_of_nonneg (by omega)]; omega
  have g0 : (g : Int) = q → |((g : Int) - q) * d - r| = r := fun h => by
    rw [h, sub_self, zero_mul, zero_sub, abs_neg, abs_of_nonneg (by omega)]
  have g1 : (g : Int) = q + 1 → |((g : Int) - q) * d - r| = d - r := fun h => by
    rw [h, add_sub_cancel_left, one_mul, abs_of_nonneg (by omega)]
  rcases key with ⟨e, h⟩ | ⟨e, h⟩ | ⟨e, h⟩
  · rw [g0 (by omega)]
    constructor <;> omega
  · rw [g1 (by omega)]
    constructor <;> omega
  · rcases Nat.mod_two_eq_zero_or_one q with h2 | h2
    · rw [g0 (by omega)]
      constructor <;> omega
    · rw [g1 (by omega)]
      constructor <;> omega

/-- The units of a magnitude written with a binade and its significand. -/
theorem magUnits_binade {e f : Nat} (h : 2 ^ 23 ≤ f) (h' : f ≤ 2 ^ 24) :
    magUnits (e * 2 ^ 23 + f) = f * 2 ^ e := by
  unfold magUnits
  rcases Nat.lt_or_eq_of_le h' with hlt | rfl
  · have q : (e * 2 ^ 23 + f) / 2 ^ 23 = e + 1 := by omega
    have r : (e * 2 ^ 23 + f) % 2 ^ 23 = f - 2 ^ 23 := by omega
    rw [q, r, if_neg (by omega), Nat.sub_add_cancel h, Nat.add_sub_cancel]
  · have q : (e * 2 ^ 23 + 2 ^ 24) / 2 ^ 23 = e + 2 := by omega
    have r : (e * 2 ^ 23 + 2 ^ 24) % 2 ^ 23 = 0 := by omega
    rw [q, r, if_neg (by omega), show e + 2 - 1 = e + 1 by omega, pow_succ 2 e]
    ring

/-- A magnitude of at least `2^(b + 23)` units is a whole number of `2^b` units. -/
theorem magUnits_dvd {m b : Nat} (h : 2 ^ (b + 23) ≤ magUnits m) : 2 ^ b ∣ magUnits m := by
  unfold magUnits at *
  have hr := Nat.mod_lt m (show 0 < 2 ^ 23 by norm_num)
  split at h
  · next h0 =>
    rw [if_pos h0]
    have hb : b = 0 := by
      by_contra hb
      have : 2 ^ (0 + 23) < 2 ^ (b + 23) := Nat.pow_lt_pow_right (by norm_num) (by omega)
      omega
    rw [hb, pow_zero]; exact one_dvd _
  · next h0 =>
    rw [if_neg h0]
    refine Dvd.dvd.mul_left (pow_dvd_pow 2 ?_) _
    by_contra hb
    have h1 : (m % 2 ^ 23 + 2 ^ 23) * 2 ^ (m / 2 ^ 23 - 1) < 2 ^ 24 * 2 ^ (m / 2 ^ 23 - 1) :=
      Nat.mul_lt_mul_of_pos_right (by omega) (Nat.two_pow_pos _)
    rw [← pow_add] at h1
    have h2 : 2 ^ (24 + (m / 2 ^ 23 - 1)) ≤ 2 ^ (b + 23) := Nat.pow_le_pow_right (by norm_num) (by omega)
    omega

theorem units_packF_false {m : Nat} (h : m < 2 ^ 31) : units (packF false m) = (magUnits m : Int) := by
  simp [units, fMag_packF false h]

/-- Rounding a whole number of units gives a nearest value of `F`, with an even pattern on a tie (R8). -/
theorem roundMag_nearest {n : Nat} (hf : roundMag n 1 < infMag) (q : Word) :
    |(magUnits (roundMag n 1) : Int) - n| ≤ |units q - n| ∧
    (|(magUnits (roundMag n 1) : Int) - n| = |units q - n| →
      units q = (magUnits (roundMag n 1) : Int) ∨ roundMag n 1 % 2 = 0) := by
  have e : roundMag n 1 = binade n * 2 ^ 23 + divNearest n (2 ^ binade n) := by
    rw [roundMag_one] at hf ⊢
    omega
  have hp : 0 < 2 ^ binade n := Nat.two_pow_pos _
  have hz : ((2 ^ binade n : Nat) : Int) = 2 ^ binade n := by push_cast; rfl
  -- the units of the result are the nearest multiple of the binade's unit
  have hu : (magUnits (roundMag n 1) : Int) = divNearest n (2 ^ binade n) * (2 ^ binade n : Nat) := by
    rw [e]
    rcases Nat.lt_or_ge n (2 ^ 24) with hn | hn
    · rw [binade_small hn]
      have : divNearest n (2 ^ 0) = n := by simp [divNearest, Nat.mod_one]
      rw [this]
      have h1 : magUnits (0 * 2 ^ 23 + n) = n := by
        rw [zero_mul, zero_add]
        unfold magUnits
        split
        · rfl
        · have : n / 2 ^ 23 = 1 := by omega
          rw [this]; omega
      rw [h1]; simp
    · obtain ⟨b1, b2⟩ := binade_spec hn
      rw [magUnits_binade (le_divNearest hp (by rw [← pow_add, Nat.add_comm]; exact b1))
        (divNearest_le hp (by rw [← pow_add, Nat.add_comm]; exact b2.le))]
      push_cast; rfl
  have par : roundMag n 1 % 2 = divNearest n (2 ^ binade n) % 2 := by rw [e]; omega
  by_cases hq : ((2 ^ binade n : Nat) : Int) ∣ units q
  · obtain ⟨k, hk⟩ := hq
    have s := divNearest_spec n hp k
    rw [hk, hu, par, mul_comm _ k]
    refine ⟨s.1, fun h => (s.2 h).imp (fun h => by rw [h]) id⟩
  · -- a value off that grid lies below the binade
    have hn : 2 ^ 24 ≤ n := by
      by_contra hn
      exact hq (by rw [binade_small (by omega)]; simp)
    obtain ⟨b1, -⟩ := binade_spec hn
    have hlt : units q < 2 ^ (binade n + 23) := by
      by_contra hge
      refine hq ?_
      unfold units at hge ⊢
      split
      · next hs =>
        rw [if_pos hs] at hge
        have : (0 : Int) < 2 ^ (binade n + 23) := by positivity
        omega
      · next hs =>
        rw [if_neg hs] at hge
        exact_mod_cast magUnits_dvd (by exact_mod_cast not_lt.1 hge)
    have s := (divNearest_spec n hp (2 ^ 23)).1
    have c1 : ((2 : Int) ^ 23) * ((2 ^ binade n : Nat) : Int) = 2 ^ (binade n + 23) := by
      rw [pow_add]; push_cast; ring
    rw [c1] at s
    have b1' : (2 : Int) ^ (binade n + 23) ≤ n := by exact_mod_cast b1
    rw [abs_of_nonpos (by omega : (2 : Int) ^ (binade n + 23) - n ≤ 0)] at s
    rw [hu, abs_of_nonpos (by omega : units q - n ≤ 0)]
    exact ⟨by omega, fun h => by omega⟩

/-! ## `PMOD` -/

theorem isNaN_packF {neg : Bool} {m : Nat} (h : m ≤ infMag) : isNaN (packF neg m) = false := by
  have : m < 2 ^ 31 := lt_of_le_of_lt h (by decide)
  simp only [isNaN, fMag_packF neg this, decide_eq_false_iff_not]
  omega

theorem orderKey_packF {m : Nat} (h : m ≤ infMag) : orderKey (packF false m) = (m : Int) := by
  have : m < 2 ^ 31 := lt_of_le_of_lt h (by decide)
  simp [orderKey, fMag_packF false this]

theorem u2f_lt_inf {t : Nat} (h : t ≤ 65536) : roundMag (t * unitsPerOne) 1 < infMag := by
  refine lt_of_le_of_lt (roundMag_mono (Nat.mul_le_mul_right _ h)) ?_
  have e : (65536 : Nat) * unitsPerOne = magUnits 0x47800000 := by decide +kernel
  rw [e, roundMag_magUnits (by decide)]
  decide

/-- The phase is in range after every `PMOD` (R10, R37). -/
theorem pmod_inRange {t : Nat} (v : Word) (h2 : 2 ≤ t) (ht : t ≤ 65536) :
    phaseInRange t (pmod t v) = true := by
  have hz : isFinite fZero = true ∧ isNaN fZero = false ∧ orderKey fZero = 0 := by decide
  have hone : (1 : Nat) ≤ roundMag (t * unitsPerOne) 1 := by
    have : (1 : Nat) ≤ t * unitsPerOne := Nat.mul_pos (by omega) (Nat.two_pow_pos _)
    have h1 := roundMag_mono this
    have e : roundMag 1 1 = 1 := by decide +kernel
    omega
  have hi := u2f_lt_inf ht
  have hT : isNaN (u2f t) = false := isNaN_packF (le_of_lt hi)
  have kT : orderKey (u2f t) = (roundMag (t * unitsPerOne) 1 : Int) := orderKey_packF (le_of_lt hi)
  have zero : phaseInRange t fZero = true := by
    simp only [phaseInRange, hz.1, Bool.and_eq_true, Bool.not_eq_true', Bool.true_and]
    refine ⟨by decide, ?_⟩
    rw [flt_iff]
    exact ⟨hz.2.1, hT, by rw [hz.2.2, kT]; omega⟩
  unfold pmod
  split
  · exact zero
  · generalize hr : (units v % ((t * unitsPerOne : Nat) : Int)).toNat = r
    have hpos : (0 : Int) < ((t * unitsPerOne : Nat) : Int) := by
      have : 0 < t * unitsPerOne := Nat.mul_pos (by omega) (Nat.two_pow_pos _)
      exact_mod_cast this
    have hrlt : r ≤ t * unitsPerOne := by
      have := Int.emod_lt_of_pos (units v) hpos
      omega
    have hm := roundMag_mono hrlt
    simp only []
    split
    · exact zero
    · next hne =>
      have hlt : roundMag r 1 < roundMag (t * unitsPerOne) 1 := by
        refine lt_of_le_of_ne hm fun e => hne ?_
        rw [e]; rfl
      have hfin : roundMag r 1 < infMag := by omega
      simp only [phaseInRange, Bool.and_eq_true, Bool.not_eq_true']
      refine ⟨⟨?_, ?_⟩, ?_⟩
      · simp only [isFinite, fMag_packF false (roundMag_lt r 1), decide_eq_true_eq]
        exact hfin
      · rw [Bool.eq_false_iff, ne_eq, flt_iff, orderKey_packF (le_of_lt hfin), hz.2.2]
        omega
      · rw [flt_iff, orderKey_packF (le_of_lt hfin), kT]
        exact ⟨isNaN_packF (le_of_lt hfin), hT, by exact_mod_cast hlt⟩

end Sys2Proof.Machine
end

