-- ==== Sys2Proof/Machine/Legal.lean ====
section
/-! DEFINITION. The legal configurations (`00_scope.md` R5): the required properties of `SINTAB`,
`HANNTAB`, `SEMIPOW` and `FFTMAG` (R11 to R14) beside the constraints on the scalar parameters. A
configuration that is not legal is not an FBK-1, and the rules are not claimed of it (U18 of
`93_implementation_defined.md`). -/

namespace Sys2Proof.Machine

/-- The value of a finite pattern (R7). An infinity has the value of the binade after the last, which
is where rounding to nearest takes over to it. -/
def fValue (a : Word) : ℚ := (units a : ℚ) / 2 ^ 149

/-- The properties of `SINTAB` (R11); `eps` is `EPS_SIN`. -/
structure SintabOk (eps : ℚ) (c : Cfg) : Prop where
  /-- P1. -/
  zero : c.sintab 0 = fZero
  /-- P2: finite. -/
  finite : ∀ i, i < c.t → isFinite (c.sintab i) = true
  /-- P2: magnitude at most 1. -/
  atMostOne : ∀ i, i < c.t → |fValue (c.sintab i)| ≤ 1
  /-- P3. -/
  accurate : ∀ i : ℕ, i < c.t →
    |(fValue (c.sintab i) : ℝ) - Real.sin (2 * Real.pi * i / c.t)| ≤ (eps : ℝ)

/-- The properties of `HANNTAB` (R12). -/
structure HanntabOk (c : Cfg) : Prop where
  /-- P1, the first entry. -/
  first : c.hanntab 0 = fZero
  /-- P1, the last entry. -/
  last : c.hanntab (c.n - 1) = fZero
  /-- P2: finite. -/
  finite : ∀ n, n < c.n → isFinite (c.hanntab n) = true
  /-- P2: between 0 and 1. -/
  unit : ∀ n, n < c.n → 0 ≤ fValue (c.hanntab n) ∧ fValue (c.hanntab n) ≤ 1
  /-- P3. -/
  mirrored : ∀ n, n < c.n → c.hanntab n = c.hanntab (c.n - 1 - n)
  /-- P4. -/
  accurate : ∀ n : ℕ, n < c.n →
    |(fValue (c.hanntab n) : ℝ) - (1 / 2 - 1 / 2 * Real.cos (2 * Real.pi * n / ((c.n : ℝ) - 1)))| ≤
      1 / 2 ^ 24

/-- The properties of `SEMIPOW` (R13). -/
structure SemipowOk (c : Cfg) : Prop where
  /-- P1. -/
  one : c.semipow 0 = fOne
  /-- P2: finite. -/
  finite : ∀ k, k ≤ 24 → isFinite (c.semipow k) = true
  /-- P2: strictly increasing. -/
  increasing : ∀ k, k < 24 → fValue (c.semipow k) < fValue (c.semipow (k + 1))
  /-- P3. -/
  accurate : ∀ k : ℕ, k ≤ 24 →
    |(fValue (c.semipow k) : ℝ) - (2 : ℝ) ^ ((k : ℝ) / 12)| ≤ 2 / 1000

/-- `v` is an admissible magnitude of bin `k` of the frame `y` of `n` finite values (R14 P4): within
`eps` times the sum of the absolute samples of `DFTMAG(y)[k]`, or, as the default instance, no
further from it than any other value of `F` (DEDUCED, log entry 20). -/
def BinAccurate (eps : ℚ) (n : Nat) (y : List Word) (k : Nat) (v : Word) : Prop :=
  let x (j : ℕ) : ℝ := fValue (y.getD j fZero)
  let re := ∑ j ∈ Finset.range n, x j * Real.cos (2 * Real.pi * k * j / n)
  let im := ∑ j ∈ Finset.range n, x j * Real.sin (2 * Real.pi * k * j / n)
  let mag := Real.sqrt (re ^ 2 + im ^ 2)
  |(fValue v : ℝ) - mag| ≤ eps * ∑ j ∈ Finset.range n, |x j| ∨
    ∀ p : Word, isFinite p = true → |(fValue v : ℝ) - mag| ≤ |(fValue p : ℝ) - mag|

/-- The properties of `FFTMAG` (R14); `eps` is `EPS_FFT`. For a frame with a NaN or an infinity only
`length` and P3 bind (P5). -/
structure FftmagOk (eps : ℚ) (c : Cfg) : Prop where
  /-- `N` magnitudes of a frame of `N` values. -/
  length : ∀ y, y.length = c.n → (c.fftmag y).length = c.n
  /-- P1. -/
  silent : ∀ y, y.length = c.n → (∀ x ∈ y, fMag x = 0) → ∀ v ∈ c.fftmag y, v = fZero
  /-- P2: never negative, never NaN. -/
  nonneg : ∀ y, y.length = c.n → (∀ x ∈ y, isFinite x = true) →
    ∀ v ∈ c.fftmag y, isNaN v = false ∧ flt v fZero = false
  /-- P3. -/
  mirrored : ∀ y, y.length = c.n → ∀ k, 0 < k → k < c.n / 2 →
    (c.fftmag y)[c.n - k]? = (c.fftmag y)[k]?
  /-- P4. -/
  accurate : ∀ y, y.length = c.n → (∀ x ∈ y, isFinite x = true) →
    ∀ k v, (c.fftmag y)[k]? = some v → BinAccurate eps c.n y k v

/-- A legal configuration (R5): every constraint on the scalar parameters and every required property of
the four fields, for the accuracies `EPS_SIN` (R11) and `EPS_FFT` (R14) of the instance. -/
structure LegalCfg (epsSin epsFft : ℚ) (c : Cfg) : Prop where
  scalars : c.scalarsLegal = true
  sintab : SintabOk epsSin c
  hanntab : HanntabOk c
  semipow : SemipowOk c
  fftmag : FftmagOk epsFft c

end Sys2Proof.Machine
end

