-- ==== Sys2Proof/Laws/Legal.lean ====
section
/-! SUPPORT. The canonical configuration keeps the constraints of R5 that a computation shows: those on
the scalar parameters, and every property of `SEMIPOW` (R13). -/

namespace Sys2Proof.Machine

theorem cfg_scalarsLegal : cfg.scalarsLegal = true := by decide

/-- A value is within `e` of `2^(k/12)` if the twelfth powers of its bounds enclose `2^k`. -/
theorem near_root {x e : ℝ} {k : ℕ} (h0 : 0 ≤ x + e) (h1 : (x - e) ^ 12 ≤ 2 ^ k)
    (h2 : (2 : ℝ) ^ k ≤ (x + e) ^ 12) : |x - (2 : ℝ) ^ ((k : ℝ) / 12)| ≤ e := by
  have hr : ((2 : ℝ) ^ ((k : ℝ) / 12)) ^ 12 = 2 ^ k := by
    rw [← Real.rpow_natCast, ← Real.rpow_mul (by norm_num), ← Real.rpow_natCast]
    norm_num
  have hp : (0 : ℝ) ≤ (2 : ℝ) ^ ((k : ℝ) / 12) := by positivity
  rw [abs_le]
  constructor
  · have := le_of_pow_le_pow_left₀ (by norm_num) h0 (hr.trans_le h2)
    linarith
  · have := le_of_pow_le_pow_left₀ (by norm_num) hp (h1.trans_eq hr.symm)
    linarith

theorem semiPow_bounds : ∀ k ≤ 24, 0 ≤ fValue (semiPow k) + 2 / 1000 ∧
    (fValue (semiPow k) - 2 / 1000) ^ 12 ≤ 2 ^ k ∧ 2 ^ k ≤ (fValue (semiPow k) + 2 / 1000) ^ 12 := by
  decide +kernel

/-- `SEMIPOW` keeps P1 to P3 of R13. -/
theorem cfg_semipowOk : SemipowOk cfg where
  one := by decide
  finite := by rw [cfg_semipow]; decide
  increasing := by rw [cfg_semipow]; decide +kernel
  accurate := by
    intro k hk
    obtain ⟨h0, h1, h2⟩ := semiPow_bounds k hk
    rw [cfg_semipow]
    have r0 := (Rat.cast_le (K := ℝ)).2 h0
    have r1 := (Rat.cast_le (K := ℝ)).2 h1
    have r2 := (Rat.cast_le (K := ℝ)).2 h2
    push_cast at r0 r1 r2
    exact near_root r0 r1 r2

end Sys2Proof.Machine
end

