-- ==== Sys2Proof/Laws/Memory.lean ====
section
/-! SUPPORT. The laws of a memory of words: reads after writes, and that every operation keeps the
canonical form. -/

namespace Sys2Proof.Machine

@[simp] theorem Memory.look_nil (a : Nat) : Memory.look [] a = none := rfl

theorem Memory.look_put_self (m : Memory) (a : Nat) (v : Word) : (m.put a v).look a = some v := by
  induction m with
  | nil => simp [Memory.put, Memory.look]
  | cons p m ih =>
    obtain ⟨b, w⟩ := p
    by_cases h1 : a < b
    · simp [Memory.put, h1, Memory.look]
    · by_cases h2 : a = b
      · simp [Memory.put, h2, Memory.look]
      · have h3 : b ≠ a := fun h => h2 h.symm
        simp [Memory.put, h1, h2, h3, Memory.look, ih]

theorem Memory.look_put_other (m : Memory) {a b : Nat} (v : Word) (h : b ≠ a) :
    (m.put a v).look b = m.look b := by
  have h' : a ≠ b := fun e => h e.symm
  induction m with
  | nil => simp [Memory.put, Memory.look, h']
  | cons p m ih =>
    obtain ⟨d, w⟩ := p
    by_cases h1 : a < d
    · simp [Memory.put, h1, Memory.look, h']
    · by_cases h2 : a = d
      · subst h2; simp [Memory.put, Memory.look, h']
      · simp only [Memory.put, h1, h2, if_false, Memory.look, ih]

theorem Memory.look_put (m : Memory) (a b : Nat) (v : Word) :
    (m.put a v).look b = if b = a then some v else m.look b := by
  split
  · next h => subst h; exact Memory.look_put_self m b v
  · next h => exact Memory.look_put_other m v h

theorem Memory.mem_put {m : Memory} {a : Nat} {v : Word} {p : Nat × Word} (h : p ∈ m.put a v) :
    p = (a, v) ∨ p ∈ m := by
  induction m with
  | nil => simpa [Memory.put] using h
  | cons q m ih =>
    obtain ⟨b, w⟩ := q
    by_cases h1 : a < b
    · simpa [Memory.put, h1] using h
    · by_cases h2 : a = b
      · subst h2
        simp only [Memory.put, lt_irrefl, if_false, if_true, List.mem_cons] at h
        rcases h with h | h
        · left; exact h
        · right; exact List.mem_cons_of_mem _ h
      · simp only [Memory.put, h1, h2, if_false, List.mem_cons] at h
        rcases h with h | h
        · right; simp [h]
        · rcases ih h with h | h
          · left; exact h
          · right; exact List.mem_cons_of_mem _ h

/-- A write keeps the canonical form. -/
theorem Memory.wf_put {m : Memory} (a : Nat) (v : Word) (h : m.wf) : (m.put a v).wf := by
  induction m with
  | nil => simp [Memory.put, Memory.wf]
  | cons q m ih =>
    obtain ⟨b, w⟩ := q
    have hp : (∀ x ∈ m.map Prod.fst, b < x) ∧ Memory.wf m := by
      simpa only [Memory.wf, List.map_cons, List.pairwise_cons] using h
    by_cases h1 : a < b
    · simp only [Memory.put, h1, if_true, Memory.wf, List.map_cons, List.pairwise_cons]
      refine ⟨?_, hp⟩
      intro x hx
      rcases List.mem_cons.1 hx with hx | hx
      · omega
      · have := hp.1 x hx; omega
    · by_cases h2 : a = b
      · subst h2
        simpa only [Memory.put, lt_irrefl, if_false, if_true, Memory.wf, List.map_cons,
          List.pairwise_cons] using hp
      · simp only [Memory.put, h1, h2, if_false, Memory.wf, List.map_cons, List.pairwise_cons]
        refine ⟨?_, ih hp.2⟩
        intro x hx
        obtain ⟨p, hpm, rfl⟩ := List.mem_map.1 hx
        rcases Memory.mem_put hpm with e | e
        · subst e; simp only; omega
        · exact hp.1 _ (List.mem_map_of_mem e)

theorem Memory.mem_ofWords {a : Nat} {vs : List Word} {p : Nat × Word}
    (h : p ∈ Memory.ofWords a vs) : a ≤ p.1 ∧ p.1 < a + vs.length := by
  induction vs generalizing a with
  | nil => simp [Memory.ofWords] at h
  | cons v vs ih =>
    simp only [Memory.ofWords, List.mem_cons] at h
    rcases h with h | h
    · subst h; simp
    · have := ih h
      simp only [List.length_cons]; omega

/-- A memory built from a list of words is canonical. -/
theorem Memory.wf_ofWords (a : Nat) (vs : List Word) : (Memory.ofWords a vs).wf := by
  induction vs generalizing a with
  | nil => simp [Memory.ofWords, Memory.wf]
  | cons v vs ih =>
    simp only [Memory.ofWords, Memory.wf, List.map_cons, List.pairwise_cons]
    refine ⟨?_, ih (a + 1)⟩
    intro x hx
    obtain ⟨p, hp, rfl⟩ := List.mem_map.1 hx
    have := Memory.mem_ofWords hp
    omega

theorem Memory.look_ofWords (a : Nat) (vs : List Word) (i : Nat) :
    (Memory.ofWords a vs).look i = if a ≤ i then vs[i - a]? else none := by
  induction vs generalizing a with
  | nil => simp [Memory.ofWords]
  | cons v vs ih =>
    simp only [Memory.ofWords, Memory.look, ih]
    by_cases h1 : a = i
    · subst h1; simp
    · by_cases h2 : a ≤ i
      · have h3 : a + 1 ≤ i := by omega
        have h4 : i - a = (i - (a + 1)) + 1 := by omega
        simp [h1, h2, h3, h4]
      · have h3 : ¬ a + 1 ≤ i := by omega
        simp [h1, h2, h3]

theorem Memory.look_ofWords_zero (vs : List Word) (i : Nat) :
    (Memory.ofWords 0 vs).look i = vs[i]? := by
  simp [Memory.look_ofWords]

theorem Memory.look_ofTable {n : Nat} (f : Nat → Word) {i : Nat} (h : i < n) :
    (Memory.ofTable n f).look i = some (f i) := by
  simp [Memory.ofTable, Memory.look_ofWords_zero, h]

theorem Memory.wf_ofTable (n : Nat) (f : Nat → Word) : (Memory.ofTable n f).wf :=
  Memory.wf_ofWords 0 _

theorem Memory.mem_ofTable {n : Nat} {f : Nat → Word} {p : Nat × Word}
    (h : p ∈ Memory.ofTable n f) : p.1 < n := by
  have := Memory.mem_ofWords h
  simpa using this

/-- In a canonical memory two equal reads everywhere mean equal memories: the form is unique. -/
theorem Memory.ext_look {m m' : Memory} (h : m.wf) (h' : m'.wf)
    (e : ∀ a, m.look a = m'.look a) : m = m' := by
  have low : ∀ (m : Memory) (b a : Nat), (∀ x ∈ m.map Prod.fst, b < x) → a ≤ b →
      m.look a = none := by
    intro m b a
    induction m with
    | nil => intros; rfl
    | cons q m ih =>
      obtain ⟨d, w⟩ := q
      intro hb hab
      have hd : b < d := hb d (by simp)
      have hne : d ≠ a := by omega
      simp only [Memory.look, hne, if_false]
      exact ih (fun x hx => hb x (List.mem_cons_of_mem _ hx)) hab
  induction m generalizing m' with
  | nil =>
    cases m' with
    | nil => rfl
    | cons q m' =>
      obtain ⟨d, w⟩ := q
      have := e d
      simp [Memory.look] at this
  | cons q m ih =>
    obtain ⟨d, w⟩ := q
    have hp : (∀ x ∈ m.map Prod.fst, d < x) ∧ Memory.wf m := by
      simpa only [Memory.wf, List.map_cons, List.pairwise_cons] using h
    cases m' with
    | nil => have := e d; simp [Memory.look] at this
    | cons q' m' =>
      obtain ⟨d', w'⟩ := q'
      have hp' : (∀ x ∈ m'.map Prod.fst, d' < x) ∧ Memory.wf m' := by
        simpa only [Memory.wf, List.map_cons, List.pairwise_cons] using h'
      have hd : d = d' := by
        rcases Nat.lt_trichotomy d d' with hlt | heq | hgt
        · have := e d
          have hne : d' ≠ d := by omega
          simp only [Memory.look, if_true, hne, if_false, low m' d' d hp'.1 (by omega)] at this
          cases this
        · exact heq
        · have := e d'
          have hne : d ≠ d' := by omega
          simp only [Memory.look, if_true, hne, if_false, low m d d' hp.1 (by omega)] at this
          cases this
      subst hd
      have hw : w = w' := by have := e d; simpa [Memory.look] using this
      subst hw
      congr 1
      refine ih hp.2 hp'.2 (fun a => ?_)
      by_cases ha : d = a
      · subst ha; rw [low m d d hp.1 (le_refl _), low m' d d hp'.1 (le_refl _)]
      · have := e a; simpa [Memory.look, ha] using this

end Sys2Proof.Machine
end

