-- ==== Sys2Proof/Laws/State.lean ====
section
/-! SUPPORT. One lemma per field and named update of the state, all true by `rfl`, so that no proof
unfolds a record update. -/

namespace Sys2Proof.Machine

@[simp] theorem recordFault_lc (k : Cause) (w : Word) (s : State) :
    (recordFault k w s).lc = s.lc := rfl
@[simp] theorem recordFault_busy (k : Cause) (w : Word) (s : State) :
    (recordFault k w s).busy = s.busy := rfl
@[simp] theorem recordFault_faults (k : Cause) (w : Word) (s : State) :
    (recordFault k w s).faults = s.faults.record k w := rfl
@[simp] theorem recordFault_opa (k : Cause) (w : Word) (s : State) :
    (recordFault k w s).opa = s.opa := rfl
@[simp] theorem recordFault_res (k : Cause) (w : Word) (s : State) :
    (recordFault k w s).res = s.res := rfl
@[simp] theorem recordFault_sampleRate (k : Cause) (w : Word) (s : State) :
    (recordFault k w s).sampleRate = s.sampleRate := rfl
@[simp] theorem recordFault_maxBlk (k : Cause) (w : Word) (s : State) :
    (recordFault k w s).maxBlk = s.maxBlk := rfl
@[simp] theorem recordFault_sr (k : Cause) (w : Word) (s : State) :
    (recordFault k w s).sr = s.sr := rfl
@[simp] theorem recordFault_mb (k : Cause) (w : Word) (s : State) :
    (recordFault k w s).mb = s.mb := rfl
@[simp] theorem recordFault_cells (k : Cause) (w : Word) (s : State) :
    (recordFault k w s).cells = s.cells := rfl
@[simp] theorem recordFault_snap (k : Cause) (w : Word) (s : State) :
    (recordFault k w s).snap = s.snap := rfl
@[simp] theorem recordFault_an (k : Cause) (w : Word) (s : State) :
    (recordFault k w s).an = s.an := rfl
@[simp] theorem recordFault_hann (k : Cause) (w : Word) (s : State) :
    (recordFault k w s).hann = s.hann := rfl
@[simp] theorem recordFault_ramp0 (k : Cause) (w : Word) (s : State) :
    (recordFault k w s).ramp0 = s.ramp0 := rfl
@[simp] theorem recordFault_ramp1 (k : Cause) (w : Word) (s : State) :
    (recordFault k w s).ramp1 = s.ramp1 := rfl
@[simp] theorem recordFault_osc (k : Cause) (w : Word) (s : State) :
    (recordFault k w s).osc = s.osc := rfl
@[simp] theorem recordFault_sine (k : Cause) (w : Word) (s : State) :
    (recordFault k w s).sine = s.sine := rfl
@[simp] theorem recordFault_gain (k : Cause) (w : Word) (s : State) :
    (recordFault k w s).gain = s.gain := rfl
@[simp] theorem recordFault_buf (k : Cause) (w : Word) (s : State) :
    (recordFault k w s).buf = s.buf := rfl
@[simp] theorem recordFault_draws (k : Cause) (w : Word) (s : State) :
    (recordFault k w s).draws = s.draws := rfl
@[simp] theorem recordFault_pending (k : Cause) (w : Word) (s : State) :
    (recordFault k w s).pending = s.pending := rfl
@[simp] theorem recordFault_race (k : Cause) (w : Word) (s : State) :
    (recordFault k w s).race = s.race := rfl
@[simp] theorem recordFault_outputs (k : Cause) (w : Word) (s : State) :
    (recordFault k w s).outputs = s.outputs := rfl

@[simp] theorem setRes_lc (v : Word) (s : State) :
    (setRes v s).lc = s.lc := rfl
@[simp] theorem setRes_busy (v : Word) (s : State) :
    (setRes v s).busy = s.busy := rfl
@[simp] theorem setRes_faults (v : Word) (s : State) :
    (setRes v s).faults = s.faults := rfl
@[simp] theorem setRes_opa (v : Word) (s : State) :
    (setRes v s).opa = s.opa := rfl
@[simp] theorem setRes_res (v : Word) (s : State) :
    (setRes v s).res = v := rfl
@[simp] theorem setRes_sampleRate (v : Word) (s : State) :
    (setRes v s).sampleRate = s.sampleRate := rfl
@[simp] theorem setRes_maxBlk (v : Word) (s : State) :
    (setRes v s).maxBlk = s.maxBlk := rfl
@[simp] theorem setRes_sr (v : Word) (s : State) :
    (setRes v s).sr = s.sr := rfl
@[simp] theorem setRes_mb (v : Word) (s : State) :
    (setRes v s).mb = s.mb := rfl
@[simp] theorem setRes_cells (v : Word) (s : State) :
    (setRes v s).cells = s.cells := rfl
@[simp] theorem setRes_snap (v : Word) (s : State) :
    (setRes v s).snap = s.snap := rfl
@[simp] theorem setRes_an (v : Word) (s : State) :
    (setRes v s).an = s.an := rfl
@[simp] theorem setRes_hann (v : Word) (s : State) :
    (setRes v s).hann = s.hann := rfl
@[simp] theorem setRes_ramp0 (v : Word) (s : State) :
    (setRes v s).ramp0 = s.ramp0 := rfl
@[simp] theorem setRes_ramp1 (v : Word) (s : State) :
    (setRes v s).ramp1 = s.ramp1 := rfl
@[simp] theorem setRes_osc (v : Word) (s : State) :
    (setRes v s).osc = s.osc := rfl
@[simp] theorem setRes_sine (v : Word) (s : State) :
    (setRes v s).sine = s.sine := rfl
@[simp] theorem setRes_gain (v : Word) (s : State) :
    (setRes v s).gain = s.gain := rfl
@[simp] theorem setRes_buf (v : Word) (s : State) :
    (setRes v s).buf = s.buf := rfl
@[simp] theorem setRes_draws (v : Word) (s : State) :
    (setRes v s).draws = s.draws := rfl
@[simp] theorem setRes_pending (v : Word) (s : State) :
    (setRes v s).pending = s.pending := rfl
@[simp] theorem setRes_race (v : Word) (s : State) :
    (setRes v s).race = s.race := rfl
@[simp] theorem setRes_outputs (v : Word) (s : State) :
    (setRes v s).outputs = s.outputs := rfl

@[simp] theorem setBuf_lc (j : Nat) (v : Word) (s : State) :
    (setBuf j v s).lc = s.lc := rfl
@[simp] theorem setBuf_busy (j : Nat) (v : Word) (s : State) :
    (setBuf j v s).busy = s.busy := rfl
@[simp] theorem setBuf_faults (j : Nat) (v : Word) (s : State) :
    (setBuf j v s).faults = s.faults := rfl
@[simp] theorem setBuf_opa (j : Nat) (v : Word) (s : State) :
    (setBuf j v s).opa = s.opa := rfl
@[simp] theorem setBuf_res (j : Nat) (v : Word) (s : State) :
    (setBuf j v s).res = s.res := rfl
@[simp] theorem setBuf_sampleRate (j : Nat) (v : Word) (s : State) :
    (setBuf j v s).sampleRate = s.sampleRate := rfl
@[simp] theorem setBuf_maxBlk (j : Nat) (v : Word) (s : State) :
    (setBuf j v s).maxBlk = s.maxBlk := rfl
@[simp] theorem setBuf_sr (j : Nat) (v : Word) (s : State) :
    (setBuf j v s).sr = s.sr := rfl
@[simp] theorem setBuf_mb (j : Nat) (v : Word) (s : State) :
    (setBuf j v s).mb = s.mb := rfl
@[simp] theorem setBuf_cells (j : Nat) (v : Word) (s : State) :
    (setBuf j v s).cells = s.cells := rfl
@[simp] theorem setBuf_snap (j : Nat) (v : Word) (s : State) :
    (setBuf j v s).snap = s.snap := rfl
@[simp] theorem setBuf_an (j : Nat) (v : Word) (s : State) :
    (setBuf j v s).an = s.an := rfl
@[simp] theorem setBuf_hann (j : Nat) (v : Word) (s : State) :
    (setBuf j v s).hann = s.hann := rfl
@[simp] theorem setBuf_ramp0 (j : Nat) (v : Word) (s : State) :
    (setBuf j v s).ramp0 = s.ramp0 := rfl
@[simp] theorem setBuf_ramp1 (j : Nat) (v : Word) (s : State) :
    (setBuf j v s).ramp1 = s.ramp1 := rfl
@[simp] theorem setBuf_osc (j : Nat) (v : Word) (s : State) :
    (setBuf j v s).osc = s.osc := rfl
@[simp] theorem setBuf_sine (j : Nat) (v : Word) (s : State) :
    (setBuf j v s).sine = s.sine := rfl
@[simp] theorem setBuf_gain (j : Nat) (v : Word) (s : State) :
    (setBuf j v s).gain = s.gain := rfl
@[simp] theorem setBuf_buf (j : Nat) (v : Word) (s : State) :
    (setBuf j v s).buf = s.buf.put j v := rfl
@[simp] theorem setBuf_draws (j : Nat) (v : Word) (s : State) :
    (setBuf j v s).draws = s.draws := rfl
@[simp] theorem setBuf_pending (j : Nat) (v : Word) (s : State) :
    (setBuf j v s).pending = s.pending := rfl
@[simp] theorem setBuf_race (j : Nat) (v : Word) (s : State) :
    (setBuf j v s).race = s.race := rfl
@[simp] theorem setBuf_outputs (j : Nat) (v : Word) (s : State) :
    (setBuf j v s).outputs = s.outputs := rfl

@[simp] theorem rampsNext_lc (s : State) :
    (rampsNext s).lc = s.lc := rfl
@[simp] theorem rampsNext_busy (s : State) :
    (rampsNext s).busy = s.busy := rfl
@[simp] theorem rampsNext_faults (s : State) :
    (rampsNext s).faults = s.faults := rfl
@[simp] theorem rampsNext_opa (s : State) :
    (rampsNext s).opa = s.opa := rfl
@[simp] theorem rampsNext_res (s : State) :
    (rampsNext s).res = s.res := rfl
@[simp] theorem rampsNext_sampleRate (s : State) :
    (rampsNext s).sampleRate = s.sampleRate := rfl
@[simp] theorem rampsNext_maxBlk (s : State) :
    (rampsNext s).maxBlk = s.maxBlk := rfl
@[simp] theorem rampsNext_sr (s : State) :
    (rampsNext s).sr = s.sr := rfl
@[simp] theorem rampsNext_mb (s : State) :
    (rampsNext s).mb = s.mb := rfl
@[simp] theorem rampsNext_cells (s : State) :
    (rampsNext s).cells = s.cells := rfl
@[simp] theorem rampsNext_snap (s : State) :
    (rampsNext s).snap = s.snap := rfl
@[simp] theorem rampsNext_an (s : State) :
    (rampsNext s).an = s.an := rfl
@[simp] theorem rampsNext_hann (s : State) :
    (rampsNext s).hann = s.hann := rfl
@[simp] theorem rampsNext_ramp0 (s : State) :
    (rampsNext s).ramp0 = s.ramp0.next := rfl
@[simp] theorem rampsNext_ramp1 (s : State) :
    (rampsNext s).ramp1 = s.ramp1.next := rfl
@[simp] theorem rampsNext_osc (s : State) :
    (rampsNext s).osc = s.osc := rfl
@[simp] theorem rampsNext_sine (s : State) :
    (rampsNext s).sine = s.sine := rfl
@[simp] theorem rampsNext_gain (s : State) :
    (rampsNext s).gain = s.gain := rfl
@[simp] theorem rampsNext_buf (s : State) :
    (rampsNext s).buf = s.buf := rfl
@[simp] theorem rampsNext_draws (s : State) :
    (rampsNext s).draws = s.draws := rfl
@[simp] theorem rampsNext_pending (s : State) :
    (rampsNext s).pending = s.pending := rfl
@[simp] theorem rampsNext_race (s : State) :
    (rampsNext s).race = s.race := rfl
@[simp] theorem rampsNext_outputs (s : State) :
    (rampsNext s).outputs = s.outputs := rfl

@[simp] theorem storeSample_lc (c : Cfg) (x : Word) (s : State) :
    (storeSample c x s).lc = s.lc := rfl
@[simp] theorem storeSample_busy (c : Cfg) (x : Word) (s : State) :
    (storeSample c x s).busy = s.busy := rfl
@[simp] theorem storeSample_faults (c : Cfg) (x : Word) (s : State) :
    (storeSample c x s).faults = s.faults := rfl
@[simp] theorem storeSample_opa (c : Cfg) (x : Word) (s : State) :
    (storeSample c x s).opa = s.opa := rfl
@[simp] theorem storeSample_res (c : Cfg) (x : Word) (s : State) :
    (storeSample c x s).res = s.res := rfl
@[simp] theorem storeSample_sampleRate (c : Cfg) (x : Word) (s : State) :
    (storeSample c x s).sampleRate = s.sampleRate := rfl
@[simp] theorem storeSample_maxBlk (c : Cfg) (x : Word) (s : State) :
    (storeSample c x s).maxBlk = s.maxBlk := rfl
@[simp] theorem storeSample_sr (c : Cfg) (x : Word) (s : State) :
    (storeSample c x s).sr = s.sr := rfl
@[simp] theorem storeSample_mb (c : Cfg) (x : Word) (s : State) :
    (storeSample c x s).mb = s.mb := rfl
@[simp] theorem storeSample_cells (c : Cfg) (x : Word) (s : State) :
    (storeSample c x s).cells = s.cells := rfl
@[simp] theorem storeSample_snap (c : Cfg) (x : Word) (s : State) :
    (storeSample c x s).snap = s.snap := rfl
@[simp] theorem storeSample_an (c : Cfg) (x : Word) (s : State) :
    (storeSample c x s).an = { s.an with fifo := s.an.fifo.put s.an.fifoIdx x, fifoIdx := (s.an.fifoIdx + 1) % 2 ^ (c.log2n + 1) } := rfl
@[simp] theorem storeSample_hann (c : Cfg) (x : Word) (s : State) :
    (storeSample c x s).hann = s.hann := rfl
@[simp] theorem storeSample_ramp0 (c : Cfg) (x : Word) (s : State) :
    (storeSample c x s).ramp0 = s.ramp0 := rfl
@[simp] theorem storeSample_ramp1 (c : Cfg) (x : Word) (s : State) :
    (storeSample c x s).ramp1 = s.ramp1 := rfl
@[simp] theorem storeSample_osc (c : Cfg) (x : Word) (s : State) :
    (storeSample c x s).osc = s.osc := rfl
@[simp] theorem storeSample_sine (c : Cfg) (x : Word) (s : State) :
    (storeSample c x s).sine = s.sine := rfl
@[simp] theorem storeSample_gain (c : Cfg) (x : Word) (s : State) :
    (storeSample c x s).gain = s.gain := rfl
@[simp] theorem storeSample_buf (c : Cfg) (x : Word) (s : State) :
    (storeSample c x s).buf = s.buf := rfl
@[simp] theorem storeSample_draws (c : Cfg) (x : Word) (s : State) :
    (storeSample c x s).draws = s.draws := rfl
@[simp] theorem storeSample_pending (c : Cfg) (x : Word) (s : State) :
    (storeSample c x s).pending = s.pending := rfl
@[simp] theorem storeSample_race (c : Cfg) (x : Word) (s : State) :
    (storeSample c x s).race = s.race := rfl
@[simp] theorem storeSample_outputs (c : Cfg) (x : Word) (s : State) :
    (storeSample c x s).outputs = s.outputs := rfl

@[simp] theorem transform_lc (c : Cfg) (s : State) :
    (transform c s).lc = s.lc := rfl
@[simp] theorem transform_busy (c : Cfg) (s : State) :
    (transform c s).busy = s.busy := rfl
@[simp] theorem transform_faults (c : Cfg) (s : State) :
    (transform c s).faults = s.faults := rfl
@[simp] theorem transform_opa (c : Cfg) (s : State) :
    (transform c s).opa = s.opa := rfl
@[simp] theorem transform_res (c : Cfg) (s : State) :
    (transform c s).res = s.res := rfl
@[simp] theorem transform_sampleRate (c : Cfg) (s : State) :
    (transform c s).sampleRate = s.sampleRate := rfl
@[simp] theorem transform_maxBlk (c : Cfg) (s : State) :
    (transform c s).maxBlk = s.maxBlk := rfl
@[simp] theorem transform_sr (c : Cfg) (s : State) :
    (transform c s).sr = s.sr := rfl
@[simp] theorem transform_mb (c : Cfg) (s : State) :
    (transform c s).mb = s.mb := rfl
@[simp] theorem transform_cells (c : Cfg) (s : State) :
    (transform c s).cells = s.cells := rfl
@[simp] theorem transform_snap (c : Cfg) (s : State) :
    (transform c s).snap = s.snap := rfl
@[simp] theorem transform_an (c : Cfg) (s : State) :
    (transform c s).an = { s.an with work := Memory.ofWords 0 (c.fftmag (windowed c s)) } := rfl
@[simp] theorem transform_hann (c : Cfg) (s : State) :
    (transform c s).hann = s.hann := rfl
@[simp] theorem transform_ramp0 (c : Cfg) (s : State) :
    (transform c s).ramp0 = s.ramp0 := rfl
@[simp] theorem transform_ramp1 (c : Cfg) (s : State) :
    (transform c s).ramp1 = s.ramp1 := rfl
@[simp] theorem transform_osc (c : Cfg) (s : State) :
    (transform c s).osc = s.osc := rfl
@[simp] theorem transform_sine (c : Cfg) (s : State) :
    (transform c s).sine = s.sine := rfl
@[simp] theorem transform_gain (c : Cfg) (s : State) :
    (transform c s).gain = s.gain := rfl
@[simp] theorem transform_buf (c : Cfg) (s : State) :
    (transform c s).buf = s.buf := rfl
@[simp] theorem transform_draws (c : Cfg) (s : State) :
    (transform c s).draws = s.draws := rfl
@[simp] theorem transform_pending (c : Cfg) (s : State) :
    (transform c s).pending = s.pending := rfl
@[simp] theorem transform_race (c : Cfg) (s : State) :
    (transform c s).race = s.race := rfl
@[simp] theorem transform_outputs (c : Cfg) (s : State) :
    (transform c s).outputs = s.outputs := rfl

@[simp] theorem oscAdvance_lc (c : Cfg) (fa : Word) (s : State) :
    (oscAdvance c fa s).lc = s.lc := rfl
@[simp] theorem oscAdvance_busy (c : Cfg) (fa : Word) (s : State) :
    (oscAdvance c fa s).busy = s.busy := rfl
@[simp] theorem oscAdvance_faults (c : Cfg) (fa : Word) (s : State) :
    (oscAdvance c fa s).faults = s.faults := rfl
@[simp] theorem oscAdvance_opa (c : Cfg) (fa : Word) (s : State) :
    (oscAdvance c fa s).opa = s.opa := rfl
@[simp] theorem oscAdvance_res (c : Cfg) (fa : Word) (s : State) :
    (oscAdvance c fa s).res = s.res := rfl
@[simp] theorem oscAdvance_sampleRate (c : Cfg) (fa : Word) (s : State) :
    (oscAdvance c fa s).sampleRate = s.sampleRate := rfl
@[simp] theorem oscAdvance_maxBlk (c : Cfg) (fa : Word) (s : State) :
    (oscAdvance c fa s).maxBlk = s.maxBlk := rfl
@[simp] theorem oscAdvance_sr (c : Cfg) (fa : Word) (s : State) :
    (oscAdvance c fa s).sr = s.sr := rfl
@[simp] theorem oscAdvance_mb (c : Cfg) (fa : Word) (s : State) :
    (oscAdvance c fa s).mb = s.mb := rfl
@[simp] theorem oscAdvance_cells (c : Cfg) (fa : Word) (s : State) :
    (oscAdvance c fa s).cells = s.cells := rfl
@[simp] theorem oscAdvance_snap (c : Cfg) (fa : Word) (s : State) :
    (oscAdvance c fa s).snap = s.snap := rfl
@[simp] theorem oscAdvance_an (c : Cfg) (fa : Word) (s : State) :
    (oscAdvance c fa s).an = s.an := rfl
@[simp] theorem oscAdvance_hann (c : Cfg) (fa : Word) (s : State) :
    (oscAdvance c fa s).hann = s.hann := rfl
@[simp] theorem oscAdvance_ramp0 (c : Cfg) (fa : Word) (s : State) :
    (oscAdvance c fa s).ramp0 = s.ramp0 := rfl
@[simp] theorem oscAdvance_ramp1 (c : Cfg) (fa : Word) (s : State) :
    (oscAdvance c fa s).ramp1 = s.ramp1 := rfl
@[simp] theorem oscAdvance_sine (c : Cfg) (fa : Word) (s : State) :
    (oscAdvance c fa s).sine = s.sine := rfl
@[simp] theorem oscAdvance_gain (c : Cfg) (fa : Word) (s : State) :
    (oscAdvance c fa s).gain = s.gain := rfl
@[simp] theorem oscAdvance_buf (c : Cfg) (fa : Word) (s : State) :
    (oscAdvance c fa s).buf = s.buf := rfl
@[simp] theorem oscAdvance_draws (c : Cfg) (fa : Word) (s : State) :
    (oscAdvance c fa s).draws = s.draws := rfl
@[simp] theorem oscAdvance_pending (c : Cfg) (fa : Word) (s : State) :
    (oscAdvance c fa s).pending = s.pending := rfl
@[simp] theorem oscAdvance_race (c : Cfg) (fa : Word) (s : State) :
    (oscAdvance c fa s).race = s.race := rfl
@[simp] theorem oscAdvance_outputs (c : Cfg) (fa : Word) (s : State) :
    (oscAdvance c fa s).outputs = s.outputs := rfl

@[simp] theorem oscAdvance_osc (c : Cfg) (fa : Word) (s : State) :
    (oscAdvance c fa s).osc =
      { phase := pmod c.t (fadd s.osc.phase (phaseIncrement c s.sr fa)),
        phaseInc := phaseIncrement c s.sr fa } := rfl

@[simp] theorem beginCommand_lc (m : Meanwhile) (s : State) :
    (beginCommand m s).lc = s.lc := rfl
@[simp] theorem beginCommand_busy (m : Meanwhile) (s : State) :
    (beginCommand m s).busy = true := rfl
@[simp] theorem beginCommand_faults (m : Meanwhile) (s : State) :
    (beginCommand m s).faults = s.faults := rfl
@[simp] theorem beginCommand_opa (m : Meanwhile) (s : State) :
    (beginCommand m s).opa = s.opa := rfl
@[simp] theorem beginCommand_res (m : Meanwhile) (s : State) :
    (beginCommand m s).res = s.res := rfl
@[simp] theorem beginCommand_sampleRate (m : Meanwhile) (s : State) :
    (beginCommand m s).sampleRate = s.sampleRate := rfl
@[simp] theorem beginCommand_maxBlk (m : Meanwhile) (s : State) :
    (beginCommand m s).maxBlk = s.maxBlk := rfl
@[simp] theorem beginCommand_sr (m : Meanwhile) (s : State) :
    (beginCommand m s).sr = s.sr := rfl
@[simp] theorem beginCommand_mb (m : Meanwhile) (s : State) :
    (beginCommand m s).mb = s.mb := rfl
@[simp] theorem beginCommand_cells (m : Meanwhile) (s : State) :
    (beginCommand m s).cells = s.cells := rfl
@[simp] theorem beginCommand_snap (m : Meanwhile) (s : State) :
    (beginCommand m s).snap = s.snap := rfl
@[simp] theorem beginCommand_an (m : Meanwhile) (s : State) :
    (beginCommand m s).an = s.an := rfl
@[simp] theorem beginCommand_hann (m : Meanwhile) (s : State) :
    (beginCommand m s).hann = s.hann := rfl
@[simp] theorem beginCommand_ramp0 (m : Meanwhile) (s : State) :
    (beginCommand m s).ramp0 = s.ramp0 := rfl
@[simp] theorem beginCommand_ramp1 (m : Meanwhile) (s : State) :
    (beginCommand m s).ramp1 = s.ramp1 := rfl
@[simp] theorem beginCommand_osc (m : Meanwhile) (s : State) :
    (beginCommand m s).osc = s.osc := rfl
@[simp] theorem beginCommand_sine (m : Meanwhile) (s : State) :
    (beginCommand m s).sine = s.sine := rfl
@[simp] theorem beginCommand_gain (m : Meanwhile) (s : State) :
    (beginCommand m s).gain = s.gain := rfl
@[simp] theorem beginCommand_buf (m : Meanwhile) (s : State) :
    (beginCommand m s).buf = s.buf := rfl
@[simp] theorem beginCommand_draws (m : Meanwhile) (s : State) :
    (beginCommand m s).draws = s.draws := rfl
@[simp] theorem beginCommand_pending (m : Meanwhile) (s : State) :
    (beginCommand m s).pending = s.pending := rfl
@[simp] theorem beginCommand_race (m : Meanwhile) (s : State) :
    (beginCommand m s).race = m.ctl := rfl
@[simp] theorem beginCommand_outputs (m : Meanwhile) (s : State) :
    (beginCommand m s).outputs = s.outputs := rfl

@[simp] theorem statusReads_lc (k : Nat) (w : Word) (s : State) :
    (statusReads k w s).lc = s.lc := rfl
@[simp] theorem statusReads_busy (k : Nat) (w : Word) (s : State) :
    (statusReads k w s).busy = s.busy := rfl
@[simp] theorem statusReads_faults (k : Nat) (w : Word) (s : State) :
    (statusReads k w s).faults = s.faults := rfl
@[simp] theorem statusReads_opa (k : Nat) (w : Word) (s : State) :
    (statusReads k w s).opa = s.opa := rfl
@[simp] theorem statusReads_res (k : Nat) (w : Word) (s : State) :
    (statusReads k w s).res = s.res := rfl
@[simp] theorem statusReads_sampleRate (k : Nat) (w : Word) (s : State) :
    (statusReads k w s).sampleRate = s.sampleRate := rfl
@[simp] theorem statusReads_maxBlk (k : Nat) (w : Word) (s : State) :
    (statusReads k w s).maxBlk = s.maxBlk := rfl
@[simp] theorem statusReads_sr (k : Nat) (w : Word) (s : State) :
    (statusReads k w s).sr = s.sr := rfl
@[simp] theorem statusReads_mb (k : Nat) (w : Word) (s : State) :
    (statusReads k w s).mb = s.mb := rfl
@[simp] theorem statusReads_cells (k : Nat) (w : Word) (s : State) :
    (statusReads k w s).cells = s.cells := rfl
@[simp] theorem statusReads_snap (k : Nat) (w : Word) (s : State) :
    (statusReads k w s).snap = s.snap := rfl
@[simp] theorem statusReads_an (k : Nat) (w : Word) (s : State) :
    (statusReads k w s).an = s.an := rfl
@[simp] theorem statusReads_hann (k : Nat) (w : Word) (s : State) :
    (statusReads k w s).hann = s.hann := rfl
@[simp] theorem statusReads_ramp0 (k : Nat) (w : Word) (s : State) :
    (statusReads k w s).ramp0 = s.ramp0 := rfl
@[simp] theorem statusReads_ramp1 (k : Nat) (w : Word) (s : State) :
    (statusReads k w s).ramp1 = s.ramp1 := rfl
@[simp] theorem statusReads_osc (k : Nat) (w : Word) (s : State) :
    (statusReads k w s).osc = s.osc := rfl
@[simp] theorem statusReads_sine (k : Nat) (w : Word) (s : State) :
    (statusReads k w s).sine = s.sine := rfl
@[simp] theorem statusReads_gain (k : Nat) (w : Word) (s : State) :
    (statusReads k w s).gain = s.gain := rfl
@[simp] theorem statusReads_buf (k : Nat) (w : Word) (s : State) :
    (statusReads k w s).buf = s.buf := rfl
@[simp] theorem statusReads_draws (k : Nat) (w : Word) (s : State) :
    (statusReads k w s).draws = s.draws := rfl
@[simp] theorem statusReads_pending (k : Nat) (w : Word) (s : State) :
    (statusReads k w s).pending = s.pending := rfl
@[simp] theorem statusReads_race (k : Nat) (w : Word) (s : State) :
    (statusReads k w s).race = s.race := rfl
@[simp] theorem statusReads_outputs (k : Nat) (w : Word) (s : State) :
    (statusReads k w s).outputs = List.replicate k (.status w) ++ s.outputs := rfl

@[simp] theorem withRamp_zero (s : State) (x : Ramp) : s.withRamp 0 x = { s with ramp0 := x } := rfl
@[simp] theorem withRamp_one (s : State) (x : Ramp) : s.withRamp 1 x = { s with ramp1 := x } := rfl
@[simp] theorem ramp_zero (s : State) : s.ramp 0 = s.ramp0 := rfl
@[simp] theorem ramp_one (s : State) : s.ramp 1 = s.ramp1 := rfl
@[simp] theorem reset_lc : State.reset.lc = .uninitialized := rfl
@[simp] theorem reset_pending : State.reset.pending = [] := rfl
@[simp] theorem reset_race : State.reset.race = [] := rfl
@[simp] theorem reset_busy : State.reset.busy = false := rfl

theorem inSession_iff (s : State) :
    s.inSession = true ↔ s.lc = .prepared ∨ s.lc = .processing := by
  cases h : s.lc <;> simp [State.inSession, h]

theorem not_inSession_iff (s : State) :
    s.inSession = false ↔ s.lc = .uninitialized ∨ s.lc = .released := by
  cases h : s.lc <;> simp [State.inSession, h]

end Sys2Proof.Machine
end

