-- ==== Sys2Proof/Laws/Ops.lean ====
section
/-! SUPPORT. For each shared operation, what it can do, said once: the proofs cite these lemmas and do
not unfold the operation again. -/

namespace Sys2Proof.Machine

open Sys2Proof.Safety

/-! ## The gate of the streaming commands -/

theorem streaming_cases {i : Instr} {b : Bool} {f : State → State} {s t : State}
    (h : streaming i b f s = .next t) :
    (s.inSession = false ∧ t = recordFault .cviol (encode i) s) ∨
    (s.inSession = true ∧ b = false ∧ t = recordFault .badoper (encode i) s) ∨
    (s.inSession = true ∧ b = true ∧ t = f { s with lc := .processing }) := by
  unfold streaming at h
  cases hs : s.inSession <;> cases b <;> simp_all

theorem streaming_run {i : Instr} {b : Bool} {f : State → State} {s : State}
    (h : s.inSession = true) (hb : b = true) :
    streaming i b f s = .next (f { s with lc := .processing }) := by
  simp [streaming, h, hb]

theorem streaming_cviol {i : Instr} {b : Bool} {f : State → State} {s : State}
    (h : s.inSession = false) : streaming i b f s = .next (recordFault .cviol (encode i) s) := by
  simp [streaming, h]

theorem streaming_badoper {i : Instr} {b : Bool} {f : State → State} {s : State}
    (h : s.inSession = true) (hb : b = false) :
    streaming i b f s = .next (recordFault .badoper (encode i) s) := by
  simp [streaming, h, hb]

/-! ## The fault record -/

theorem record_sticky_self (f : FaultRecord) (k : Cause) (w : Word) :
    (f.record k w).sticky k = true := by
  unfold FaultRecord.record
  split <;> cases k <;> rfl

theorem record_sticky_mono (f : FaultRecord) (k k' : Cause) (w : Word)
    (h : f.sticky k' = true) : (f.record k w).sticky k' = true := by
  unfold FaultRecord.record
  split <;> cases k <;> cases k' <;>
    first | rfl | exact h

theorem record_sticky_other (f : FaultRecord) {k k' : Cause} (w : Word) (h : k' ≠ k) :
    (f.record k w).sticky k' = f.sticky k' := by
  unfold FaultRecord.record
  split <;> cases k <;> cases k' <;> first | rfl | exact absurd rfl h

theorem record_first (f : FaultRecord) (k : Cause) (w : Word) (h : f.cause = 0#32) :
    (f.record k w).cmd = w ∧ (f.record k w).cause = k.code := by
  simp [FaultRecord.record, h]

theorem record_later (f : FaultRecord) (k : Cause) (w : Word) (h : f.cause ≠ 0#32) :
    (f.record k w).cmd = f.cmd ∧ (f.record k w).cause = f.cause := by
  simp only [FaultRecord.record, h, if_false]
  cases k <;> exact ⟨rfl, rfl⟩

theorem code_ne_zero (k : Cause) : k.code ≠ 0#32 := by cases k <;> decide

theorem record_cause_ne_zero (f : FaultRecord) (k : Cause) (w : Word) :
    (f.record k w).cause ≠ 0#32 := by
  by_cases h : f.cause = 0#32
  · rw [(record_first f k w h).2]; exact code_ne_zero k
  · rw [(record_later f k w h).2]; exact h

theorem record_record (f : FaultRecord) (k : Cause) (w : Word) :
    (f.record k w).record k w = f.record k w := by
  have h : (f.record k w).record k w = (f.record k w).setSticky k :=
    if_neg (record_cause_ne_zero f k w)
  rw [h]
  unfold FaultRecord.record
  split <;> cases k <;> rfl

theorem record_ne (f : FaultRecord) (k : Cause) (w : Word) (h : FaultsConsistent f) :
    FaultsConsistent (f.record k w) := by
  by_cases h0 : f.cause = 0#32
  · exact .inr ⟨k, (record_first f k w h0).2, record_sticky_self f k w⟩
  · rcases h with h | ⟨k', hk, hs⟩
    · exact absurd h.1 h0
    · exact .inr ⟨k', by rw [(record_later f k w h0).2, hk], record_sticky_mono f k k' w hs⟩

/-! ## Cells and the latch -/

theorem Cells.ext_read {x y : Cells} (h : ∀ k, k < 5 → x.read k = y.read k) : x = y := by
  have h0 := h 0 (by omega)
  have h1 := h 1 (by omega)
  have h2 := h 2 (by omega)
  have h3 := h 3 (by omega)
  have h4 := h 4 (by omega)
  cases x; cases y
  simp only [Cells.read] at h0 h1 h2 h3 h4
  simp [h0, h1, h2, h3, h4]

theorem Cells.read_write (x : Cells) (c k : Nat) (v : Word) (h : k < 5) :
    (x.write c v).read k = if c = k then v else x.read k := by
  have hk : k = 0 ∨ k = 1 ∨ k = 2 ∨ k = 3 ∨ k = 4 := by omega
  by_cases hc : c < 5
  · have hc' : c = 0 ∨ c = 1 ∨ c = 2 ∨ c = 3 ∨ c = 4 := by omega
    rcases hk with rfl | rfl | rfl | rfl | rfl <;>
      rcases hc' with rfl | rfl | rfl | rfl | rfl <;> rfl
  · obtain ⟨d, rfl⟩ : ∃ d, c = d + 5 := ⟨c - 5, by omega⟩
    have : d + 5 ≠ k := by omega
    simp only [this, if_false]
    rfl

theorem Cells.write_none (x : Cells) {c : Nat} (v : Word) (h : 5 ≤ c) : x.write c v = x := by
  obtain ⟨d, rfl⟩ : ∃ d, c = d + 5 := ⟨c - 5, by omega⟩
  rfl

theorem cellAfter_nil (x : Cells) (k : Nat) : cellAfter x k [] = x.read k := rfl

/-- A list of control operations changes the cells and the results only, and each cell holds the latest
write to it. -/
theorem foldl_ctlApply (ops : List CtlOp) (s : State) :
    ops.foldl ctlApply s =
      { s with cells := (ops.foldl ctlApply s).cells, outputs := (ops.foldl ctlApply s).outputs } ∧
    ∀ k, k < 5 → (ops.foldl ctlApply s).cells.read k = cellAfter s.cells k ops := by
  induction ops generalizing s with
  | nil => exact ⟨rfl, fun _ _ => rfl⟩
  | cons op ops ih =>
    obtain ⟨e, hr⟩ := ih (ctlApply s op)
    cases op with
    | write c v =>
      refine ⟨by rw [List.foldl_cons, e]; rfl, fun k hk => ?_⟩
      rw [List.foldl_cons, hr k hk]
      simp only [cellAfter, ctlApply, List.foldl_cons, Cells.read_write _ _ _ _ hk]
    | read c =>
      refine ⟨by rw [List.foldl_cons, e]; rfl, fun k hk => ?_⟩
      rw [List.foldl_cons, hr k hk]
      rfl

/-- The results that a list of control operations adds. -/
theorem foldl_ctlApply_outputs (ops : List CtlOp) (s : State) :
    (ops.foldl ctlApply s).outputs = ctlResults s.cells ops ++ s.outputs := by
  induction ops generalizing s with
  | nil => rfl
  | cons op ops ih =>
    rw [List.foldl_cons, ih]
    cases op with
    | write c v => rfl
    | read c => simp [ctlResults, ctlApply]

/-- Control operations do not look at the groups still to come. -/
theorem foldl_ctlApply_race (ops : List CtlOp) (s : State) (r : List (List CtlOp)) :
    ops.foldl ctlApply { s with race := r } = { ops.foldl ctlApply s with race := r } := by
  induction ops generalizing s with
  | nil => rfl
  | cons op ops ih =>
    rw [List.foldl_cons, List.foldl_cons, ← ih]
    cases op <;> rfl

theorem cellAfter_congr {x y : Cells} {k : Nat} (h : x.read k = y.read k) (ops : List CtlOp) :
    cellAfter x k ops = cellAfter y k ops := by
  simp [cellAfter, h]

theorem cellAfter_append (x : Cells) (k : Nat) (o1 o2 : List CtlOp) (y : Cells)
    (h : y.read k = cellAfter x k o1) : cellAfter y k o2 = cellAfter x k (o1 ++ o2) := by
  simp only [cellAfter, List.foldl_append] at *
  rw [h]

/-- `j` groups of control operations in a row. -/
def raceSlots : Nat → State → State
  | 0, s => s
  | j + 1, s => raceSlot (raceSlots j s)

theorem raceSlot_spec (s : State) :
    raceSlot s = { s with cells := (raceSlot s).cells, outputs := (raceSlot s).outputs,
                          race := s.race.drop 1 } ∧
    (∀ k, k < 5 → (raceSlot s).cells.read k = cellAfter s.cells k (s.race.take 1).flatten) ∧
    (s.race = [] → raceSlot s = s) := by
  cases h : s.race with
  | nil =>
    have e : raceSlot s = s := by unfold raceSlot; rw [h]
    rw [e]
    exact ⟨by cases s; simp_all, fun _ _ => rfl, fun _ => rfl⟩
  | cons g rest =>
    have e : raceSlot s = g.foldl ctlApply { s with race := rest } := by unfold raceSlot; rw [h]
    obtain ⟨e', hr⟩ := foldl_ctlApply g { s with race := rest }
    rw [e]
    refine ⟨?_, fun k hk => ?_, fun hn => by cases hn⟩
    · conv_lhs => rw [e']
      rfl
    · rw [hr k hk]; simp

theorem raceSlots_spec (j : Nat) (s : State) :
    raceSlots j s = { s with cells := (raceSlots j s).cells, outputs := (raceSlots j s).outputs,
                             race := s.race.drop j } ∧
    (∀ k, k < 5 → (raceSlots j s).cells.read k = cellAfter s.cells k (s.race.take j).flatten) ∧
    (s.race = [] → raceSlots j s = s) := by
  induction j with
  | zero => exact ⟨by cases s; rfl, fun _ _ => by simp [raceSlots, cellAfter], fun _ => rfl⟩
  | succ j ih =>
    obtain ⟨e, hr, hn⟩ := ih
    obtain ⟨e', hr', hn'⟩ := raceSlot_spec (raceSlots j s)
    have hrace : (raceSlots j s).race = s.race.drop j := by rw [e]
    refine ⟨?_, fun k hk => ?_, fun h => ?_⟩
    · rw [hrace, List.drop_drop] at e'
      show raceSlot (raceSlots j s) = { s with
        cells := (raceSlot (raceSlots j s)).cells, outputs := (raceSlot (raceSlots j s)).outputs,
        race := s.race.drop (j + 1) }
      generalize raceSlot (raceSlots j s) = y at e'
      conv_lhs => rw [e', e]
    · show (raceSlot (raceSlots j s)).cells.read k = _
      rw [hr' k hk, hrace, cellAfter_append s.cells k _ _ _ (hr k hk)]
      congr 1
      rw [← List.flatten_append, ← List.take_add]
    · show raceSlot (raceSlots j s) = s
      rw [hn' (by rw [hrace, h]; simp), hn h]

/-- The first `j` groups complete one after the other. -/
theorem raceSlots_eq (j : Nat) (s : State) :
    raceSlots j s = { (s.race.take j).flatten.foldl ctlApply s with race := s.race.drop j } := by
  induction j with
  | zero => rfl
  | succ j ih =>
    have hr : (raceSlots j s).race = s.race.drop j := by rw [ih]
    have e : raceSlots (j + 1) s = raceSlot (raceSlots j s) := rfl
    rw [e]
    unfold raceSlot
    rw [hr]
    rcases hd : s.race.drop j with _ | ⟨g, rest⟩
    · have hl : s.race.length ≤ j := List.drop_eq_nil_iff.1 hd
      rw [ih, hd, List.take_of_length_le hl, List.take_of_length_le (by omega),
        List.drop_eq_nil_iff.2 (by omega)]
    · have ht : (s.race.take (j + 1)).flatten = (s.race.take j).flatten ++ g := by
        rw [List.take_add, hd]
        simp
      have h1 : s.race.drop (j + 1) = rest := by
        rw [← List.drop_drop, hd]
        rfl
      rw [ih, ht, List.foldl_append, h1]
      exact foldl_ctlApply_race g ((s.race.take j).flatten.foldl ctlApply s) rest

theorem latchParams_eq (s : State) :
    latchParams s = { raceSlots 5 s with
      snap := clampCells
        { gainOut := (raceSlots 1 s).cells.gainOut, fbGain := (raceSlots 2 s).cells.fbGain,
          offset := (raceSlots 3 s).cells.offset, tol := (raceSlots 4 s).cells.tol,
          detune := (raceSlots 5 s).cells.detune } } := rfl

/-- What `LatchParams` does: the snapshot is that of the five loads, and only the control operations
of the five groups complete. -/
theorem latchParams_spec (s : State) :
    latchParams s = { s with
      snap := latchedSnapshot s
      cells := (latchParams s).cells
      race := s.race.drop 5
      outputs := (latchParams s).outputs } ∧
    (∀ k, k < 5 → (latchParams s).cells.read k = cellAfter s.cells k (s.race.take 5).flatten) ∧
    (s.race = [] → latchParams s = { s with snap := latchedSnapshot s }) := by
  have hs : (latchParams s).snap = latchedSnapshot s := by
    rw [latchParams_eq]
    simp only [clampCells, latchedSnapshot, loadedCell]
    have h := fun j k (hk : k < 5) => (raceSlots_spec j s).2.1 k hk
    rw [← h 1 0 (by omega), ← h 2 1 (by omega), ← h 3 2 (by omega), ← h 4 3 (by omega),
      ← h 5 4 (by omega)]
    rfl
  have hc : (latchParams s).cells = (raceSlots 5 s).cells := rfl
  have ho : (latchParams s).outputs = (raceSlots 5 s).outputs := rfl
  have he : latchParams s = { raceSlots 5 s with snap := (latchParams s).snap } := rfl
  refine ⟨?_, fun k hk => ?_, fun h => ?_⟩
  · rw [he, hs]
    conv_lhs => rw [(raceSlots_spec 5 s).1]
  · rw [hc]; exact (raceSlots_spec 5 s).2.1 k hk
  · rw [he, hs, (raceSlots_spec 5 s).2.2 h]

@[simp] theorem latchParams_snap (s : State) : (latchParams s).snap = latchedSnapshot s := by
  rw [(latchParams_spec s).1]

@[simp] theorem latchParams_race (s : State) : (latchParams s).race = s.race.drop 5 := by
  rw [(latchParams_spec s).1]

/-- The results of the control reads that complete during a latch. -/
@[simp] theorem latchParams_outputs (s : State) : (latchParams s).outputs =
    ctlResults s.cells (s.race.take 5).flatten ++ s.outputs := by
  have h : (latchParams s).outputs = (raceSlots 5 s).outputs := rfl
  rw [h, raceSlots_eq]
  exact foldl_ctlApply_outputs _ s

/-- The latch looks at the cells and the control operations only. -/
theorem latchedSnapshot_congr {s t : State} (hc : t.cells = s.cells) (hr : t.race = s.race) :
    latchedSnapshot t = latchedSnapshot s := by
  simp [latchedSnapshot, loadedCell, hc, hr]

theorem raceRest_spec (s : State) :
    raceRest s = { s with cells := (raceRest s).cells, outputs := (raceRest s).outputs,
                          race := [] } ∧
    (∀ k, k < 5 → (raceRest s).cells.read k = cellAfter s.cells k s.race.flatten) ∧
    (s.race = [] → raceRest s = s) := by
  obtain ⟨e, hr⟩ := foldl_ctlApply s.race.flatten { s with race := [] }
  refine ⟨?_, fun k hk => ?_, fun h => ?_⟩
  · show s.race.flatten.foldl ctlApply { s with race := [] } = _
    rw [e]; rfl
  · exact hr k hk
  · have e0 : ({ s with race := [] } : State) = s := by rw [← h]
    unfold raceRest
    rw [e0, h]; rfl

/-- The results of the control reads that complete at the end of a command. -/
theorem raceRest_outputs (s : State) :
    (raceRest s).outputs = ctlResults s.cells s.race.flatten ++ s.outputs :=
  foldl_ctlApply_outputs _ _

/-! ## The part of the state the sample steps work on -/

/-- `o` with the elements the sample step reads or writes taken from `s`. -/
def coreOf (s o : State) : State :=
  { o with sr := s.sr, snap := s.snap, an := s.an, hann := s.hann, ramp0 := s.ramp0,
           ramp1 := s.ramp1, osc := s.osc, sine := s.sine, draws := s.draws }

theorem coreOf_self (s : State) : coreOf s s = s := rfl

@[simp] theorem coreOf_buf (s o : State) : (coreOf s o).buf = o.buf := rfl
@[simp] theorem coreOf_draws (s o : State) : (coreOf s o).draws = s.draws := rfl
@[simp] theorem coreOf_an (s o : State) : (coreOf s o).an = s.an := rfl
@[simp] theorem coreOf_snap (s o : State) : (coreOf s o).snap = s.snap := rfl
@[simp] theorem coreOf_osc (s o : State) : (coreOf s o).osc = s.osc := rfl
@[simp] theorem coreOf_ramp0 (s o : State) : (coreOf s o).ramp0 = s.ramp0 := rfl
@[simp] theorem coreOf_ramp1 (s o : State) : (coreOf s o).ramp1 = s.ramp1 := rfl

/-- The estimate that `FrameReady` makes of the spectrum it has just written. -/
def frameEstimate (c : Cfg) (s : State) : Word :=
  estimateOn c s.sr s.snap.tol ((List.range c.n).map (fun k =>
    (Memory.look (Memory.ofWords 0 (c.fftmag (windowed c s))) k).getD
      (Config.unspecified s.draws (specBase + k))))

/-- The analyzer as `FrameReady` leaves it. -/
def frameAnalyzer (c : Cfg) (s : State) : Analyzer :=
  { s.an with
    work := Memory.ofWords 0 (c.fftmag (windowed c s))
    fifoIdx := 0
    frameCnt := s.an.frameCnt + 1#32
    detFreq := frameEstimate c s }

/-- What `FrameReady` does: it writes the spectrum, the cursor, the count and `DETFREQ`, and retargets
ramp 0 unless the estimate is 0. -/
theorem frameReady_spec (c : Cfg) (s : State) :
    frameReady c s = { s with
      an := frameAnalyzer c s
      ramp0 := if feq (frameEstimate c s) fZero then s.ramp0
        else s.ramp0.setTarget (frameEstimate c s) } := by
  have e : frameReady c s =
      if feq (frameEstimate c s) fZero then { s with an := frameAnalyzer c s }
      else { s with an := frameAnalyzer c s, ramp0 := s.ramp0.setTarget (frameEstimate c s) } := rfl
  rw [e]
  split <;> rfl

theorem fftMag_length (n : Nat) (ys : List Word) : (fftMag n ys).length = n := by simp [fftMag]

/-- The estimate of a frame is that of the magnitudes the transform returns. -/
theorem frameEstimate_eq (c : Cfg) (s : State) (h : (c.fftmag (windowed c s)).length = c.n) :
    frameEstimate c s = estimateOn c s.sr s.snap.tol (c.fftmag (windowed c s)) := by
  unfold frameEstimate
  congr 1
  apply List.ext_getElem?
  intro k
  by_cases hk : k < c.n
  · rw [List.getElem?_map, List.getElem?_range hk, Option.map_some, Memory.look_ofWords_zero,
      List.getElem?_eq_getElem (by omega)]
    rfl
  · rw [List.getElem?_eq_none (by simpa using hk), List.getElem?_eq_none (by omega)]

/-- What `AnalyzerPush` does. -/
theorem analyzerPush_spec (c : Cfg) (x : Word) (s : State) :
    analyzerPush c x s =
      if (s.an.fifoIdx + 1) % 2 ^ (c.log2n + 1) = c.n then frameReady c (storeSample c x s)
      else storeSample c x s := rfl

theorem analyzerPush_frame (c : Cfg) (x : Word) (s : State) :
    analyzerPush c x s =
      { s with an := (analyzerPush c x s).an, ramp0 := (analyzerPush c x s).ramp0 } := by
  rw [analyzerPush_spec]
  split
  · rw [frameReady_spec]; rfl
  · rfl

theorem frameReady_core (c : Cfg) (s o : State) :
    frameReady c (coreOf s o) = coreOf (frameReady c s) o := by
  rw [frameReady_spec, frameReady_spec]
  rfl

theorem analyzerPush_core (c : Cfg) (x : Word) (s o : State) :
    analyzerPush c x (coreOf s o) = coreOf (analyzerPush c x s) o := by
  rw [analyzerPush_spec, analyzerPush_spec]
  by_cases h : (s.an.fifoIdx + 1) % 2 ^ (c.log2n + 1) = c.n
  · rw [if_pos (by exact h), if_pos h]
    exact frameReady_core c (storeSample c x s) o
  · rw [if_neg (by exact h), if_neg h]
    rfl

/-- The sample step reads and writes the core elements only. -/
theorem sampleStep_core (c : Cfg) (x : Word) (s o : State) :
    sampleStep c x (coreOf s o) = (coreOf (sampleStep c x s).1 o, (sampleStep c x s).2) := by
  unfold sampleStep
  simp only [analyzerPush_core]
  rfl

/-- What a sample step leaves unchanged. -/
theorem sampleStep_frame (c : Cfg) (x : Word) (s : State) :
    (sampleStep c x s).1 = { s with
      an := (sampleStep c x s).1.an, ramp0 := (sampleStep c x s).1.ramp0,
      ramp1 := (sampleStep c x s).1.ramp1, osc := (sampleStep c x s).1.osc } := by
  have h := analyzerPush_frame c x s
  unfold sampleStep
  simp only []
  rw [h]
  rfl

theorem runSamples_core (c : Cfg) (xs : List Word) (s o : State) :
    runSamples c xs (coreOf s o) =
      (coreOf (runSamples c xs s).1 o, (runSamples c xs s).2) := by
  induction xs generalizing s with
  | nil => rfl
  | cons x xs ih => simp only [runSamples, sampleStep_core, ih]

theorem runSamples_frame (c : Cfg) (xs : List Word) (s : State) :
    (runSamples c xs s).1 = { s with
      an := (runSamples c xs s).1.an, ramp0 := (runSamples c xs s).1.ramp0,
      ramp1 := (runSamples c xs s).1.ramp1, osc := (runSamples c xs s).1.osc } := by
  induction xs generalizing s with
  | nil => rfl
  | cons x xs ih =>
    simp only [runSamples]
    rw [ih, sampleStep_frame]

theorem runSamples_length (c : Cfg) (xs : List Word) (s : State) :
    (runSamples c xs s).2.length = xs.length := by
  induction xs generalizing s with
  | nil => rfl
  | cons x xs ih => simp [runSamples, ih]

theorem runSamples_append (c : Cfg) (xs ys : List Word) (s : State) :
    (runSamples c (xs ++ ys) s).1 = (runSamples c ys (runSamples c xs s).1).1 ∧
    (runSamples c (xs ++ ys) s).2 =
      (runSamples c xs s).2 ++ (runSamples c ys (runSamples c xs s).1).2 := by
  induction xs generalizing s with
  | nil => exact ⟨rfl, rfl⟩
  | cons x xs ih =>
    have h := ih (sampleStep c x s).1
    simp only [List.cons_append, runSamples, h.1, h.2]
    exact ⟨trivial, trivial⟩

/-! ## Loops over the block buffer -/

theorem setBuf_core (j : Nat) (v : Word) (s o : State) :
    setBuf j v (coreOf s o) = coreOf s (setBuf j v o) := rfl

/-- The sample loop runs the sample steps of the samples it finds in `BUF` and puts their outputs in
their place. -/
theorem sampleLoop_spec (c : Cfg) (xs : List Word) (i : Nat) (s : State)
    (h : ∀ j, j < xs.length → some (bufElem s (i + j)) = xs[j]?) :
    sampleLoop c xs.length i s =
      { (runSamples c xs s).1 with buf := (sampleLoop c xs.length i s).buf } ∧
    (∀ j y, (runSamples c xs s).2[j]? = some y →
      (sampleLoop c xs.length i s).buf.look (i + j) = some y) ∧
    (∀ a, a < i ∨ i + xs.length ≤ a →
      (sampleLoop c xs.length i s).buf.look a = s.buf.look a) := by
  induction xs generalizing i s with
  | nil => exact ⟨rfl, fun j y hy => by simp [runSamples] at hy, fun _ _ => rfl⟩
  | cons x xs ih =>
    have hx : bufElem s i = x := by
      have := h 0 (by simp)
      simpa using this
    have hstep : sampleLoop c (x :: xs).length i s =
        sampleLoop c xs.length (i + 1)
          (setBuf i (sampleStep c x s).2 (sampleStep c x s).1) := by
      simp only [List.length_cons, sampleLoop, hx]
    have hcore : setBuf i (sampleStep c x s).2 (sampleStep c x s).1 =
        coreOf (sampleStep c x s).1 (setBuf i (sampleStep c x s).2 (sampleStep c x s).1) := rfl
    have hbuf : (sampleStep c x s).1.buf = s.buf := by rw [sampleStep_frame]
    have hdraws : (sampleStep c x s).1.draws = s.draws := by rw [sampleStep_frame]
    have hrest : ∀ j, j < xs.length →
        some (bufElem (setBuf i (sampleStep c x s).2 (sampleStep c x s).1) (i + 1 + j)) =
          xs[j]? := by
      intro j hj
      have h' := h (j + 1) (by simp; omega)
      have hne : i + 1 + j ≠ i := by omega
      have hadd : i + (j + 1) = i + 1 + j := by omega
      simp only [List.getElem?_cons_succ, hadd] at h'
      rw [← h']
      simp only [bufElem, elemOf, setBuf_buf, setBuf_draws, Memory.look_put_other _ _ hne, hbuf,
        hdraws]
    obtain ⟨e, hy, ho⟩ := ih (i + 1) _ hrest
    rw [hstep]
    have hrun : (runSamples c xs (setBuf i (sampleStep c x s).2 (sampleStep c x s).1)) =
        (coreOf (runSamples c xs (sampleStep c x s).1).1
          (setBuf i (sampleStep c x s).2 (sampleStep c x s).1),
         (runSamples c xs (sampleStep c x s).1).2) := by
      conv_lhs => rw [hcore]
      exact runSamples_core c xs _ _
    refine ⟨?_, fun j y hj => ?_, fun a ha => ?_⟩
    · rw [e, hrun]
      simp only [runSamples]
      rw [runSamples_frame c xs (sampleStep c x s).1]
      rfl
    · cases j with
      | zero =>
        simp only [runSamples, List.getElem?_cons_zero, Option.some.injEq] at hj
        subst hj
        rw [ho (i + 0) (by left; omega)]
        simp [Memory.look_put_self]
      | succ j =>
        simp only [runSamples, List.getElem?_cons_succ] at hj
        have := hy j y (by rw [hrun]; exact hj)
        rw [show i + (j + 1) = i + 1 + j by omega]
        exact this
    · have h1 : a < i + 1 ∨ i + 1 + xs.length ≤ a := by
        simp only [List.length_cons] at ha; omega
      rw [ho a h1]
      have hne : a ≠ i := by simp only [List.length_cons] at ha; omega
      simp only [setBuf_buf, Memory.look_put_other _ _ hne, hbuf]

/-- The flat multiply writes `BUF` only. -/
theorem scaleFlat_spec (g : Word) (k i : Nat) (s : State) :
    scaleFlat g k i s = { s with buf := (scaleFlat g k i s).buf } ∧
    (∀ j, j < k → (scaleFlat g k i s).buf.look (i + j) = some (fmul (bufElem s (i + j)) g)) ∧
    (∀ a, a < i ∨ i + k ≤ a → (scaleFlat g k i s).buf.look a = s.buf.look a) := by
  induction k generalizing i s with
  | zero => exact ⟨rfl, fun j hj => by omega, fun _ _ => rfl⟩
  | succ k ih =>
    obtain ⟨e, hy, ho⟩ := ih (i + 1) (setBuf i (fmul (bufElem s i) g) s)
    refine ⟨?_, fun j hj => ?_, fun a ha => ?_⟩
    · show scaleFlat g k (i + 1) (setBuf i (fmul (bufElem s i) g) s) = _
      rw [e]; rfl
    · show (scaleFlat g k (i + 1) (setBuf i (fmul (bufElem s i) g) s)).buf.look (i + j) = _
      cases j with
      | zero =>
        rw [ho _ (by left; omega)]
        simp [Memory.look_put_self]
      | succ j =>
        rw [show i + (j + 1) = i + 1 + j by omega, hy j (by omega)]
        have hne : i + 1 + j ≠ i := by omega
        simp only [bufElem, elemOf, setBuf_buf, setBuf_draws, Memory.look_put_other _ _ hne]
    · show (scaleFlat g k (i + 1) (setBuf i (fmul (bufElem s i) g) s)).buf.look a = _
      rw [ho a (by omega)]
      have hne : a ≠ i := by omega
      simp only [setBuf_buf, Memory.look_put_other _ _ hne]

/-- The gain ramp writes `BUF` only; sample `j` gets the multiplier with the increment added `j`
times. -/
theorem scaleRamp_spec (inc : Word) (k i : Nat) (gg : Word) (s : State) :
    scaleRamp inc k i gg s = { s with buf := (scaleRamp inc k i gg s).buf } ∧
    (∀ j, j < k → (scaleRamp inc k i gg s).buf.look (i + j) =
      some (fmul (bufElem s (i + j)) (gainAt gg inc j))) ∧
    (∀ a, a < i ∨ i + k ≤ a → (scaleRamp inc k i gg s).buf.look a = s.buf.look a) := by
  have shift : ∀ (gg : Word) (j : Nat), gainAt (fadd gg inc) inc j = gainAt gg inc (j + 1) := by
    intro gg j
    induction j with
    | zero => rfl
    | succ j ih => simp only [gainAt] at *; rw [ih]
  induction k generalizing i gg s with
  | zero => exact ⟨rfl, fun j hj => by omega, fun _ _ => rfl⟩
  | succ k ih =>
    obtain ⟨e, hy, ho⟩ := ih (i + 1) (fadd gg inc) (setBuf i (fmul (bufElem s i) gg) s)
    refine ⟨?_, fun j hj => ?_, fun a ha => ?_⟩
    · show scaleRamp inc k (i + 1) (fadd gg inc) (setBuf i (fmul (bufElem s i) gg) s) = _
      rw [e]; rfl
    · show (scaleRamp inc k (i + 1) (fadd gg inc)
        (setBuf i (fmul (bufElem s i) gg) s)).buf.look (i + j) = _
      cases j with
      | zero =>
        rw [ho _ (by left; omega)]
        simp [Memory.look_put_self, gainAt]
      | succ j =>
        rw [show i + (j + 1) = i + 1 + j by omega, hy j (by omega), shift]
        have hne : i + 1 + j ≠ i := by omega
        simp only [bufElem, elemOf, setBuf_buf, setBuf_draws, Memory.look_put_other _ _ hne]
    · show (scaleRamp inc k (i + 1) (fadd gg inc)
        (setBuf i (fmul (bufElem s i) gg) s)).buf.look a = _
      rw [ho a (by omega)]
      have hne : a ≠ i := by omega
      simp only [setBuf_buf, Memory.look_put_other _ _ hne]

/-- What `GainStage` does. -/
theorem gainStage_spec (len : Nat) (s : State) :
    gainStage len s = { s with
      buf := (gainStage len s).buf
      gain := { cur := s.snap.gainOut
                prev := if len = 0 ∨ feq s.snap.gainOut s.gain.prev = true then s.gain.prev
                  else s.snap.gainOut } } ∧
    (∀ i, i < len →
      (gainStage len s).buf.look i = some (fmul (bufElem s i) (stageGain s len i))) ∧
    (∀ j, len ≤ j → (gainStage len s).buf.look j = s.buf.look j) := by
  unfold gainStage
  by_cases h0 : len = 0
  · subst h0
    exact ⟨by simp, fun i hi => by omega, fun _ _ => rfl⟩
  · simp only [h0, if_false, false_or]
    by_cases hf : feq s.snap.gainOut s.gain.prev = true
    · obtain ⟨e, hy, ho⟩ := scaleFlat_spec s.snap.gainOut len 0
        { s with gain := { s.gain with cur := s.snap.gainOut } }
      simp only [hf, if_true]
      refine ⟨?_, fun i hi => ?_, fun j hj => ?_⟩
      · rw [e]
      · have := hy i hi
        simp only [Nat.zero_add] at this
        rw [this]
        simp only [stageGain, hf, if_true]
        rfl
      · rw [ho j (by right; omega)]
    · obtain ⟨e, hy, ho⟩ := scaleRamp_spec (fdiv (fsub s.snap.gainOut s.gain.prev) (u2f len)) len 0
        s.gain.prev { s with gain := { s.gain with cur := s.snap.gainOut } }
      simp only [hf, if_false, Bool.false_eq_true]
      refine ⟨?_, fun i hi => ?_, fun j hj => ?_⟩
      · rw [e]
      · have := hy i hi
        simp only [Nat.zero_add] at this
        rw [this]
        simp only [stageGain, hf, if_false, Bool.false_eq_true]
        rfl
      · rw [ho j (by right; omega)]

theorem clearRun_spec (k j : Nat) (s : State) :
    clearRun k j s = { s with buf := (clearRun k j s).buf } ∧
    (∀ a, (clearRun k j s).buf.look a =
      if j ≤ a ∧ a < j + k then some fZero else s.buf.look a) := by
  induction k generalizing j s with
  | zero =>
    refine ⟨rfl, fun a => ?_⟩
    have : ¬ (j ≤ a ∧ a < j + 0) := by omega
    simp only [this, if_false]; rfl
  | succ k ih =>
    obtain ⟨e, hl⟩ := ih (j + 1) (setBuf j fZero s)
    refine ⟨?_, fun a => ?_⟩
    · show clearRun k (j + 1) (setBuf j fZero s) = _
      rw [e]; rfl
    · show (clearRun k (j + 1) (setBuf j fZero s)).buf.look a = _
      rw [hl a]
      simp only [setBuf_buf, Memory.look_put]
      by_cases h1 : j + 1 ≤ a ∧ a < j + 1 + k
      · have h2 : j ≤ a ∧ a < j + (k + 1) := by omega
        rw [if_pos h1, if_pos h2]
      · rw [if_neg h1]
        by_cases h3 : a = j
        · rw [if_pos h3, if_pos (by omega)]
        · rw [if_neg h3, if_neg (by omega)]

theorem clearChannels_spec (c : Cfg) (len k ch : Nat) (s : State) :
    clearChannels c len k ch s = { s with buf := (clearChannels c len k ch s).buf } ∧
    (∀ d i, ch ≤ d → d < ch + k → i < len → i < c.bufcap →
      (clearChannels c len k ch s).buf.look (d * c.bufcap + i) = some fZero) ∧
    (∀ a, (∀ d i, ch ≤ d → d < ch + k → i < len → a ≠ d * c.bufcap + i) →
      (clearChannels c len k ch s).buf.look a = s.buf.look a) := by
  induction k generalizing ch s with
  | zero => exact ⟨rfl, fun d i h1 h2 => by omega, fun _ _ => rfl⟩
  | succ k ih =>
    obtain ⟨e, hz, ho⟩ := ih (ch + 1) (clearRun len (ch * c.bufcap) s)
    obtain ⟨e', hl'⟩ := clearRun_spec len (ch * c.bufcap) s
    refine ⟨?_, fun d i h1 h2 hi hb => ?_, fun a ha => ?_⟩
    · show clearChannels c len k (ch + 1) (clearRun len (ch * c.bufcap) s) = { s with
        buf := (clearChannels c len k (ch + 1) (clearRun len (ch * c.bufcap) s)).buf }
      generalize clearChannels c len k (ch + 1) (clearRun len (ch * c.bufcap) s) = y at e
      conv_lhs => rw [e, e']
    · show (clearChannels c len k (ch + 1) (clearRun len (ch * c.bufcap) s)).buf.look _ = _
      by_cases hd : ch + 1 ≤ d
      · exact hz d i hd (by omega) hi hb
      · have hd' : d = ch := by omega
        subst hd'
        by_cases hin : ∃ d' i', d + 1 ≤ d' ∧ d' < d + 1 + k ∧ i' < len ∧
            d * c.bufcap + i = d' * c.bufcap + i'
        · obtain ⟨d', i', hd1, hd2, hi', hab⟩ := hin
          exfalso
          have : d' * c.bufcap ≥ (d + 1) * c.bufcap := Nat.mul_le_mul_right _ hd1
          have h3 : (d + 1) * c.bufcap = d * c.bufcap + c.bufcap := by ring
          omega
        · rw [ho _ (fun d' i' g1 g2 g3 g4 => hin ⟨d', i', g1, g2, g3, g4⟩), hl',
            if_pos (by omega)]
    · show (clearChannels c len k (ch + 1) (clearRun len (ch * c.bufcap) s)).buf.look _ = _
      rw [ho a (fun d i h1 h2 h3 => ha d i (by omega) (by omega) h3), hl']
      split
      · next h =>
        exfalso
        exact ha ch (a - ch * c.bufcap) (le_refl _) (by omega) (by omega) (by omega)
      · rfl

/-- What `ClearExtra` does. -/
theorem clearExtra_spec (c : Cfg) (nch len : Nat) (s : State) :
    clearExtra c nch len s = { s with buf := (clearExtra c nch len s).buf } ∧
    (∀ d i, 1 ≤ d → d < nch → i < len → i < c.bufcap →
      (clearExtra c nch len s).buf.look (d * c.bufcap + i) = some fZero) ∧
    (∀ a, (∀ d i, 1 ≤ d → d < nch → i < len → a ≠ d * c.bufcap + i) →
      (clearExtra c nch len s).buf.look a = s.buf.look a) := by
  obtain ⟨e, hz, ho⟩ := clearChannels_spec c len (nch - 1) 1 s
  exact ⟨e, fun d i h1 h2 => hz d i h1 (by omega),
    fun a ha => ho a (fun d i h1 h2 h3 => ha d i h1 (by omega) h3)⟩

/-! ## Ramps -/

theorem Ramp.next_spec (x : Ramp) :
    x.next.tgt = x.tgt ∧ x.next.step = x.step ∧ x.next.len = x.len ∧
    x.next.rem.toNat = x.rem.toNat - 1 ∧
    x.next.cur = (if x.rem = 0#32 then x.cur else if x.rem = 1#32 then x.tgt
      else fadd x.cur x.step) := by
  unfold Ramp.next
  by_cases h0 : x.rem = 0#32
  · simp [h0]
  · by_cases h1 : x.rem = 1#32
    · simp [h1]
    · have h2 : x.rem - 1#32 ≠ 0#32 := by
        intro h; apply h1
        have := congrArg (· + 1#32) h
        simpa using this
      simp only [h0, h2, if_false, h1]
      refine ⟨trivial, trivial, trivial, ?_, trivial⟩
      have h3 : x.rem.toNat ≠ 0 := fun h => h0 (BitVec.eq_of_toNat_eq (by simpa using h))
      rw [BitVec.toNat_sub]
      have := x.rem.isLt
      simp only [BitVec.toNat_ofNat]
      omega

theorem Ramp.setTarget_same {v : Word} {x : Ramp} (h : feq v x.tgt = true) :
    x.setTarget v = x := by
  simp [Ramp.setTarget, h]

theorem Ramp.setTarget_tgt {v : Word} (x : Ramp) (hv : isNaN v = false) :
    feq v (x.setTarget v).tgt = true := by
  unfold Ramp.setTarget
  split
  · assumption
  · split <;> simp [feq, hv]

theorem Ramp.setTarget_rem {v : Word} {x : Ramp} (h : x.rem.toNat ≤ x.len.toNat) :
    (x.setTarget v).rem.toNat ≤ (x.setTarget v).len.toNat := by
  unfold Ramp.setTarget
  split
  · exact h
  · split
    · simp
    · exact le_refl _

theorem Ramp.setTarget_len (v : Word) (x : Ramp) : (x.setTarget v).len = x.len := by
  unfold Ramp.setTarget
  split
  · rfl
  · split <;> rfl

/-! ## Lifecycle -/

theorem prepareEffect_spec (c : Cfg) (s : State) :
    prepareEffect c s = { s with
      lc := .prepared
      sr := s.sampleRate
      mb := s.maxBlk
      sine := Memory.ofTable c.t c.sintab
      hann := Memory.ofTable c.n c.hanntab
      an := { fifo := Memory.ofTable c.n (fun _ => fZero), fifoIdx := 0,
              work := Memory.ofTable (2 * c.n) (fun _ => fZero), detFreq := fZero,
              frameCnt := 0#32 }
      ramp0 := { cur := fZero, tgt := fZero, step := fZero, rem := 0#32,
                 len := f2uFloorSat (fmul c.durFreq s.sampleRate) }
      ramp1 := { cur := fZero, tgt := fZero, step := fZero, rem := 0#32,
                 len := f2uFloorSat (fmul c.durFb s.sampleRate) }
      osc := { phase := fZero, phaseInc := fZero }
      snap := latchedSnapshot s
      gain := { cur := (latchedSnapshot s).gainOut, prev := (latchedSnapshot s).gainOut }
      cells := (prepareEffect c s).cells
      race := s.race.drop 5
      outputs := (prepareEffect c s).outputs } ∧
    (∀ k, k < 5 → (prepareEffect c s).cells.read k =
      cellAfter s.cells k (s.race.take 5).flatten) ∧
    (s.race = [] → (prepareEffect c s).cells = s.cells ∧ (prepareEffect c s).outputs = s.outputs) := by
  unfold prepareEffect
  generalize hp : ({ s with
      sr := s.sampleRate
      mb := s.maxBlk
      sine := Memory.ofTable c.t c.sintab
      hann := Memory.ofTable c.n c.hanntab
      an := { fifo := Memory.ofTable c.n (fun _ => fZero), fifoIdx := 0,
              work := Memory.ofTable (2 * c.n) (fun _ => fZero), detFreq := fZero,
              frameCnt := 0#32 }
      ramp0 := preparedRamp c.durFreq s.sampleRate s.ramp0
      ramp1 := preparedRamp c.durFb s.sampleRate s.ramp1
      osc := { phase := fZero, phaseInc := fZero } } : State) = p
  obtain ⟨e, hr, hn⟩ := latchParams_spec p
  have hc : p.cells = s.cells := by subst hp; rfl
  have hra : p.race = s.race := by subst hp; rfl
  have ho : p.outputs = s.outputs := by subst hp; rfl
  have hl : latchedSnapshot p = latchedSnapshot s := latchedSnapshot_congr hc hra
  refine ⟨?_, fun k hk => ?_, fun h => ?_⟩
  · simp only [latchParams_snap, hl]
    conv_lhs => rw [e]
    rw [hl, hra]
    subst hp
    rfl
  · have := hr k hk
    rw [hc, hra] at this
    exact this
  · have := hn (by rw [hra, h])
    constructor
    · show (latchParams p).cells = _
      rw [this, ← hc]
    · show (latchParams p).outputs = _
      rw [this, ← ho]

theorem prepareEffect_outputs (c : Cfg) (s : State) : (prepareEffect c s).outputs =
    ctlResults s.cells (s.race.take 5).flatten ++ s.outputs := by
  unfold prepareEffect
  exact latchParams_outputs _

@[simp] theorem prepareEffect_lc (c : Cfg) (s : State) :
    (prepareEffect c s).lc = .prepared := by
  rw [(prepareEffect_spec c s).1]
@[simp] theorem prepareEffect_busy (c : Cfg) (s : State) :
    (prepareEffect c s).busy = s.busy := by
  rw [(prepareEffect_spec c s).1]
@[simp] theorem prepareEffect_faults (c : Cfg) (s : State) :
    (prepareEffect c s).faults = s.faults := by
  rw [(prepareEffect_spec c s).1]
@[simp] theorem prepareEffect_opa (c : Cfg) (s : State) :
    (prepareEffect c s).opa = s.opa := by
  rw [(prepareEffect_spec c s).1]
@[simp] theorem prepareEffect_res (c : Cfg) (s : State) :
    (prepareEffect c s).res = s.res := by
  rw [(prepareEffect_spec c s).1]
@[simp] theorem prepareEffect_sampleRate (c : Cfg) (s : State) :
    (prepareEffect c s).sampleRate = s.sampleRate := by
  rw [(prepareEffect_spec c s).1]
@[simp] theorem prepareEffect_maxBlk (c : Cfg) (s : State) :
    (prepareEffect c s).maxBlk = s.maxBlk := by
  rw [(prepareEffect_spec c s).1]
@[simp] theorem prepareEffect_sr (c : Cfg) (s : State) :
    (prepareEffect c s).sr = s.sampleRate := by
  rw [(prepareEffect_spec c s).1]
@[simp] theorem prepareEffect_mb (c : Cfg) (s : State) :
    (prepareEffect c s).mb = s.maxBlk := by
  rw [(prepareEffect_spec c s).1]
@[simp] theorem prepareEffect_snap (c : Cfg) (s : State) :
    (prepareEffect c s).snap = latchedSnapshot s := by
  rw [(prepareEffect_spec c s).1]
@[simp] theorem prepareEffect_hann (c : Cfg) (s : State) :
    (prepareEffect c s).hann = Memory.ofTable c.n c.hanntab := by
  rw [(prepareEffect_spec c s).1]
@[simp] theorem prepareEffect_sine (c : Cfg) (s : State) :
    (prepareEffect c s).sine = Memory.ofTable c.t c.sintab := by
  rw [(prepareEffect_spec c s).1]
@[simp] theorem prepareEffect_osc (c : Cfg) (s : State) :
    (prepareEffect c s).osc = { phase := fZero, phaseInc := fZero } := by
  rw [(prepareEffect_spec c s).1]
@[simp] theorem prepareEffect_buf (c : Cfg) (s : State) :
    (prepareEffect c s).buf = s.buf := by
  rw [(prepareEffect_spec c s).1]
@[simp] theorem prepareEffect_draws (c : Cfg) (s : State) :
    (prepareEffect c s).draws = s.draws := by
  rw [(prepareEffect_spec c s).1]
@[simp] theorem prepareEffect_pending (c : Cfg) (s : State) :
    (prepareEffect c s).pending = s.pending := by
  rw [(prepareEffect_spec c s).1]
@[simp] theorem prepareEffect_race (c : Cfg) (s : State) :
    (prepareEffect c s).race = s.race.drop 5 := by
  rw [(prepareEffect_spec c s).1]
@[simp] theorem prepareEffect_an (c : Cfg) (s : State) : (prepareEffect c s).an =
    { fifo := Memory.ofTable c.n (fun _ => fZero), fifoIdx := 0,
      work := Memory.ofTable (2 * c.n) (fun _ => fZero), detFreq := fZero, frameCnt := 0#32 } := by
  rw [(prepareEffect_spec c s).1]
@[simp] theorem prepareEffect_ramp0 (c : Cfg) (s : State) : (prepareEffect c s).ramp0 =
    { cur := fZero, tgt := fZero, step := fZero, rem := 0#32,
      len := f2uFloorSat (fmul c.durFreq s.sampleRate) } := by
  rw [(prepareEffect_spec c s).1]
@[simp] theorem prepareEffect_ramp1 (c : Cfg) (s : State) : (prepareEffect c s).ramp1 =
    { cur := fZero, tgt := fZero, step := fZero, rem := 0#32,
      len := f2uFloorSat (fmul c.durFb s.sampleRate) } := by
  rw [(prepareEffect_spec c s).1]
@[simp] theorem prepareEffect_gain (c : Cfg) (s : State) : (prepareEffect c s).gain =
    { cur := (latchedSnapshot s).gainOut, prev := (latchedSnapshot s).gainOut } := by
  rw [(prepareEffect_spec c s).1]

/-! ## The checks of the operands -/

theorem prepareArgsOk_iff (c : Cfg) (s : State) : prepareArgsOk c s = true ↔
    isFinite s.sampleRate = true ∧ fgt s.sampleRate fZero = true ∧ 1 ≤ s.maxBlk.toNat ∧
      s.maxBlk.toNat ≤ c.bufcap := by
  simp only [prepareArgsOk, Bool.and_eq_true, decide_eq_true_eq, and_assoc]

theorem channelsInRange_iff (c : Cfg) (nch : Nat) :
    channelsInRange c nch = true ↔ 1 ≤ nch ∧ nch ≤ c.nchmax := by
  simp only [channelsInRange, Bool.and_eq_true, decide_eq_true_eq]

theorem lenInRange_iff (s : State) (len : Nat) : lenInRange s len = true ↔ len ≤ s.mb.toNat := by
  simp only [lenInRange, decide_eq_true_eq]

theorem rampInRange_iff (r : Nat) : rampInRange r = true ↔ r ≤ 1 := by
  simp only [rampInRange, decide_eq_true_eq]

/-! ## The body of `PROCESS` -/

/-- The state in which the sample loop of `PROCESS` starts. -/
def blockStart (s : State) : State :=
  { latchParams s with ramp1 := (latchParams s).ramp1.setTarget (latchParams s).snap.fbGain }

theorem processBlock_eq (c : Cfg) (nch len : Nat) (s : State) :
    processBlock c nch len s =
      clearExtra c nch len (gainStage len (sampleLoop c len 0 (blockStart s))) := rfl

/-- The sample loop starts from the state before the command with the snapshot latched and ramp 1
retargeted; what the control agent did meanwhile lies outside the core elements. -/
theorem blockStart_core (s : State) : blockStart s =
    coreOf { s with snap := latchedSnapshot s,
                    ramp1 := Ramp.setTarget (latchedSnapshot s).fbGain s.ramp1 }
      (latchParams s) := by
  have la := (latchParams_spec s).1
  have e1 : (latchParams s).ramp1 = s.ramp1 := by rw [la]
  have e2 : (latchParams s).snap = latchedSnapshot s := by rw [la]
  unfold blockStart
  rw [e1, e2]
  generalize latchParams s = y at *
  conv_lhs => rw [la]
  conv_rhs => rw [la]
  rfl

theorem sampleLoop_frame (c : Cfg) (k i : Nat) (s : State) :
    sampleLoop c k i s = { s with
      an := (sampleLoop c k i s).an, ramp0 := (sampleLoop c k i s).ramp0,
      ramp1 := (sampleLoop c k i s).ramp1, osc := (sampleLoop c k i s).osc,
      buf := (sampleLoop c k i s).buf } := by
  induction k generalizing i s with
  | zero => rfl
  | succ k ih =>
    have h := ih (i + 1)
      (setBuf i (sampleStep c (bufElem s i) s).2 (sampleStep c (bufElem s i) s).1)
    have e : sampleLoop c (k + 1) i s = sampleLoop c k (i + 1)
      (setBuf i (sampleStep c (bufElem s i) s).2 (sampleStep c (bufElem s i) s).1) := rfl
    have hf := sampleStep_frame c (bufElem s i) s
    rw [e]
    generalize (sampleStep c (bufElem s i) s).1 = x at *
    generalize sampleLoop c k (i + 1) (setBuf i (sampleStep c (bufElem s i) s).2 x) = y at *
    rw [h]
    conv_lhs => rw [hf]
    rfl

/-- What `PROCESS` leaves unchanged. -/
theorem processBlock_frame (c : Cfg) (nch len : Nat) (s : State) :
    processBlock c nch len s = { s with
      snap := latchedSnapshot s
      cells := (latchParams s).cells
      race := s.race.drop 5
      outputs := (latchParams s).outputs
      an := (processBlock c nch len s).an
      ramp0 := (processBlock c nch len s).ramp0
      ramp1 := (processBlock c nch len s).ramp1
      osc := (processBlock c nch len s).osc
      gain := (processBlock c nch len s).gain
      buf := (processBlock c nch len s).buf } := by
  have h1 : blockStart s = { s with
      snap := latchedSnapshot s, cells := (latchParams s).cells, race := s.race.drop 5,
      outputs := (latchParams s).outputs, ramp1 := (blockStart s).ramp1 } := by
    have e := (latchParams_spec s).1
    unfold blockStart
    generalize (latchParams s).ramp1.setTarget (latchParams s).snap.fbGain = r
    generalize latchParams s = y at *
    conv_lhs => rw [e]
  have h2 := sampleLoop_frame c len 0 (blockStart s)
  have h3 := (gainStage_spec len (sampleLoop c len 0 (blockStart s))).1
  have h4 := (clearExtra_spec c nch len (gainStage len (sampleLoop c len 0 (blockStart s)))).1
  rw [processBlock_eq]
  generalize clearExtra c nch len (gainStage len (sampleLoop c len 0 (blockStart s))) = w at *
  rw [h4]
  generalize gainStage len (sampleLoop c len 0 (blockStart s)) = z at *
  rw [h3]
  generalize sampleLoop c len 0 (blockStart s) = y at *
  rw [h2]
  generalize blockStart s = x at *
  rw [h1]

/-! ## What each streaming command is -/

theorem exec_process (nch len : Nat) (s : State) : exec (.process nch len) s =
    streaming (.process nch len) (channelsInRange cfg nch && lenInRange s len)
      (processBlock cfg nch len) s := rfl
theorem exec_latch (s : State) : exec .latch s = streaming .latch true latchParams s := rfl
theorem exec_push (s : State) : exec .push s =
    streaming .push true (fun s => analyzerPush cfg s.opa s) s := rfl
theorem exec_estimate (s : State) : exec .estimate s =
    streaming .estimate true (fun s => setRes (estimate cfg s.snap.tol s) s) s := rfl
theorem exec_rreset (r : Nat) (s : State) : exec (.rreset r) s =
    streaming (.rreset r) (rampInRange r)
      (fun s => s.withRamp r (Ramp.reset (durOf cfg r) s.sr (s.ramp r))) s := rfl
theorem exec_rset (r : Nat) (s : State) : exec (.rset r) s =
    streaming (.rset r) (rampInRange r)
      (fun s => s.withRamp r (Ramp.setTarget s.opa (s.ramp r))) s := rfl
theorem exec_rnext (r : Nat) (s : State) : exec (.rnext r) s =
    streaming (.rnext r) (rampInRange r)
      (fun s => setRes (s.ramp r).next.cur (s.withRamp r (s.ramp r).next)) s := rfl
theorem exec_afreq (s : State) : exec .afreq s =
    streaming .afreq true (fun s => setRes (appliedFreq cfg s.opa s) s) s := rfl
theorem exec_oscnext (s : State) : exec .oscnext s =
    streaming .oscnext true (fun s => setRes (oscOutput cfg s) (oscAdvance cfg s.opa s)) s := rfl
theorem exec_sample (s : State) : exec .sample s =
    streaming .sample true
      (fun s => setRes (sampleStep cfg s.opa s).2 (sampleStep cfg s.opa s).1) s := rfl
theorem exec_gainstg (len : Nat) (s : State) : exec (.gainstg len) s =
    streaming (.gainstg len) (lenInRange s len) (gainStage len) s := rfl
theorem exec_prepare (s : State) : exec .prepare s =
    if prepareArgsOk cfg s then .next (prepareEffect cfg s)
    else .next (recordFault .pfail (encode .prepare) s) := rfl
theorem exec_release (s : State) : exec .release s = .next (releaseEffect cfg s) := rfl

end Sys2Proof.Machine
end

