-- ==== Sys2Proof/Laws/PerInstr.lean ====
section
/-! SUPPORT. Statements made instruction by instruction. `RowMatch`: the word of a well-formed command
carries the match bits of its own row of the opcode table under that row's mask (R94, R95). -/

namespace Sys2Proof.Laws.RowMatch

/-- The word of `i` belongs to the row of `i`. -/
def Statement (i : Instr) : Prop := i.wellFormed = true → encode i &&& rowMask i = rowMatch i

theorem append_mask (a : BitVec 8) (x : BitVec 4) (y : BitVec 20) :
    (a ++ x ++ y) &&& 0xFF000000#32 = a ++ 0#4 ++ 0#20 ∧
    (a ++ x ++ 0#20) &&& 0xFF0FFFFF#32 = a ++ 0#4 ++ 0#20 ∧
    (a ++ 0#4 ++ y) &&& 0xFFF00000#32 = a ++ 0#4 ++ 0#20 := by
  have h1 : (0xFF000000#32 : BitVec 32) = BitVec.allOnes 8 ++ 0#4 ++ 0#20 := by decide
  have h2 : (0xFF0FFFFF#32 : BitVec 32) = BitVec.allOnes 8 ++ 0#4 ++ 0xFFFFF#20 := by decide
  have h3 : (0xFFF00000#32 : BitVec 32) = BitVec.allOnes 8 ++ 0xF#4 ++ 0#20 := by decide
  refine ⟨?_, ?_, ?_⟩
  · rw [h1, BitVec.and_append, BitVec.and_append, BitVec.and_allOnes]; simp
  · rw [h2, BitVec.and_append, BitVec.and_append, BitVec.and_allOnes]; simp
  · rw [h3, BitVec.and_append, BitVec.and_append, BitVec.and_allOnes]; simp

theorem nop : Statement .nop := fun _ => by decide
theorem prepare : Statement .prepare := fun _ => by decide
theorem release : Statement .release := fun _ => by decide
theorem process (nch len : Nat) : Statement (.process nch len) := fun _ =>
  (append_mask 0x03#8 (BitVec.ofNat 4 nch) (BitVec.ofNat 20 len)).1.trans rfl
theorem latch : Statement .latch := fun _ => by decide
theorem push : Statement .push := fun _ => by decide
theorem estimate : Statement .estimate := fun _ => by decide
theorem rreset (r : Nat) : Statement (.rreset r) := fun _ =>
  (append_mask 0x20#8 (BitVec.ofNat 4 r) 0#20).2.1.trans rfl
theorem rset (r : Nat) : Statement (.rset r) := fun _ =>
  (append_mask 0x21#8 (BitVec.ofNat 4 r) 0#20).2.1.trans rfl
theorem rnext (r : Nat) : Statement (.rnext r) := fun _ =>
  (append_mask 0x22#8 (BitVec.ofNat 4 r) 0#20).2.1.trans rfl
theorem afreq : Statement .afreq := fun _ => by decide
theorem oscnext : Statement .oscnext := fun _ => by decide
theorem sample : Statement .sample := fun _ => by decide
theorem gainstg (len : Nat) : Statement (.gainstg len) := fun _ =>
  (append_mask 0x41#8 0#4 (BitVec.ofNat 20 len)).2.2.trans rfl

end Sys2Proof.Laws.RowMatch
end

