-- ==== Sys2Proof/Laws/Port.lean ====
section
/-! SUPPORT. The register map above the registers, and what the end of a command does. -/

namespace Sys2Proof.Machine

open Sys2Proof.Safety

/-- The commands of the canonical block are those of `exec`. -/
@[simp] theorem execFor_cfg (i : Instr) (s : State) : execFor cfg i s = exec i s := by
  cases i <;> rfl

/-- From index `0x3D` on the map holds only the windows (R62). -/
theorem hostElem_window (c : Cfg) {a : Nat} (h : 0x3D ≤ a) : hostElem c a = windowElem c a := by
  obtain ⟨b, rfl⟩ : ∃ b, a = b + 61 := ⟨a - 61, by omega⟩
  have hd : b + 61 ∉ debugIndices := by
    simp only [debugIndices, List.mem_cons, List.not_mem_nil, or_false]
    omega
  show (if b + 61 ∈ debugIndices then HostElem.debug (b + 61) else windowElem c (b + 61)) = _
  rw [if_neg hd]

theorem windowElem_spec {c : Cfg} {a : Nat} (h : specBase ≤ a) (h' : a < specBase + c.n) :
    windowElem c a = .spec (a - specBase) := if_pos ⟨h, h'⟩

theorem windowElem_buf {c : Cfg} {a : Nat} (hn : c.n ≤ 0x10000) (ht : c.t ≤ 0x10000)
    (h : bufBase ≤ a) (h' : a < bufBase + c.nchmax * c.bufcap) :
    windowElem c a = .buf (a - bufBase) := by
  unfold windowElem
  rw [if_neg, if_neg, if_neg, if_pos ⟨h, h'⟩] <;>
    simp only [specBase, sineBase, hannBase, bufBase] at * <;> omega

/-- A refused or idle control agent leaves nothing to complete: with no groups and no second bus master
the end of a command drops `BUSY` only. -/
theorem endCommand_quiet (s0 s : State) (h : s.race = []) :
    endCommand {} s0 s = { s with busy := false } := by
  show { raceRest s with busy := false } = _
  rw [(raceRest_spec s).2.2 h]

/-- The end of a command changes the cells, the results of reads and `BUSY` only. -/
theorem endCommand_frame (m : Meanwhile) (s0 s : State) :
    endCommand m s0 s = { s with
      busy := false, race := [], cells := (endCommand m s0 s).cells,
      outputs := (endCommand m s0 s).outputs } := by
  have h := (raceRest_spec
    (statusReads m.statusLate (statusWord s) (statusReads m.statusEarly (statusWord s0) s))).1
  have e : endCommand m s0 s = { raceRest (statusReads m.statusLate (statusWord s)
      (statusReads m.statusEarly (statusWord s0) s)) with busy := false } := rfl
  rw [e]
  generalize raceRest (statusReads m.statusLate (statusWord s)
    (statusReads m.statusEarly (statusWord s0) s)) = y at *
  conv_lhs => rw [h]
  rfl

/-- The results the end of a command adds: the second bus master's reads of `STATUS`, then those of
the control reads that complete. -/
theorem endCommand_outputs (m : Meanwhile) (s0 s : State) :
    (endCommand m s0 s).outputs = ctlResults s.cells s.race.flatten ++
      List.replicate m.statusLate (.status (statusWord s)) ++
      List.replicate m.statusEarly (.status (statusWord s0)) ++ s.outputs := by
  show (raceRest _).outputs = _
  rw [raceRest_outputs]
  simp [statusReads]

/-- The cells after the end of a command hold the latest control writes. -/
theorem endCommand_cells (m : Meanwhile) (s0 s : State) {k : Nat} (hk : k < 5) :
    (endCommand m s0 s).cells.read k = cellAfter s.cells k s.race.flatten :=
  (raceRest_spec (statusReads m.statusLate (statusWord s)
    (statusReads m.statusEarly (statusWord s0) s))).2.1 k hk

end Sys2Proof.Machine
end

