-- ==== Sys2Proof/Laws/Tables.lean ====
section
/-! SUPPORT. Laws of the rounded square root that the magnitudes of `FFTMAG` are made with (R14). -/

namespace Sys2Proof.Machine

open Sys2Proof.Safety

/-- The bits still to decide enclose the root. -/
theorem isqrtFrom_spec (v : Nat) : ∀ (b acc : Nat), acc * acc ≤ v → v < (acc + 2 ^ b) * (acc + 2 ^ b) →
    isqrtFrom v b acc * isqrtFrom v b acc ≤ v ∧
      v < (isqrtFrom v b acc + 1) * (isqrtFrom v b acc + 1)
  | 0, acc, h0, h1 => ⟨h0, h1⟩
  | b + 1, acc, h0, h1 => by
    have u : isqrtFrom v (b + 1) acc =
      isqrtFrom v b (if (acc + 2 ^ b) * (acc + 2 ^ b) ≤ v then acc + 2 ^ b else acc) := rfl
    rw [u]
    have e : acc + 2 ^ b + 2 ^ b = acc + 2 ^ (b + 1) := by rw [pow_succ]; ring
    split
    · next h => exact isqrtFrom_spec v b _ h (by rw [e]; exact h1)
    · next h => exact isqrtFrom_spec v b _ h0 (not_le.1 h)

/-- The integer square root is the root rounded down. -/
theorem isqrt_eq (v : Nat) : isqrt v = Nat.sqrt v := by
  have h1 : v < (0 + 2 ^ (Nat.log2 v / 2 + 1)) * (0 + 2 ^ (Nat.log2 v / 2 + 1)) := by
    rw [zero_add, ← pow_add]
    exact lt_of_lt_of_le Nat.lt_log2_self (Nat.pow_le_pow_right (by norm_num) (by omega))
  obtain ⟨a, b⟩ := isqrtFrom_spec v (Nat.log2 v / 2 + 1) 0 (Nat.zero_le _) h1
  exact Nat.eq_sqrt.2 ⟨a, b⟩

theorem sqrt_shift (p x : Nat) : Nat.sqrt (x * 4 ^ p) / 2 ^ p = Nat.sqrt x := by
  refine Nat.eq_sqrt.2 ⟨?_, ?_⟩
  · have h4 : 4 ^ p = 2 ^ p * 2 ^ p := by rw [← Nat.mul_pow]
    have hp : 0 < 2 ^ p * 2 ^ p := by positivity
    have h1 := Nat.div_mul_le_self (Nat.sqrt (x * 4 ^ p)) (2 ^ p)
    have h2 := Nat.sqrt_le (x * 4 ^ p)
    generalize Nat.sqrt (x * 4 ^ p) / 2 ^ p = g at *
    have h3 := (Nat.mul_le_mul h1 h1).trans h2
    refine Nat.le_of_mul_le_mul_right ?_ hp
    rw [h4] at h3
    calc g * g * (2 ^ p * 2 ^ p) = g * 2 ^ p * (g * 2 ^ p) := by ring
      _ ≤ _ := h3
  · have h4 : 4 ^ p = 2 ^ p * 2 ^ p := by rw [← Nat.mul_pow]
    have h1 : Nat.sqrt (x * 4 ^ p) < (Nat.sqrt (x * 4 ^ p) / 2 ^ p + 1) * 2 ^ p := by
      have := Nat.lt_mul_div_succ (Nat.sqrt (x * 4 ^ p)) (Nat.two_pow_pos p)
      rwa [mul_comm (2 ^ p)] at this
    have h2 := Nat.sqrt_lt.1 h1
    generalize Nat.sqrt (x * 4 ^ p) / 2 ^ p = g at *
    refine Nat.lt_of_mul_lt_mul_right (a := 2 ^ p * 2 ^ p) ?_
    rw [h4] at h2
    calc x * (2 ^ p * 2 ^ p) < _ := h2
      _ = _ := by ring

/-- `roundSqrt` of a square given with `2 p` more bits than it needs. -/
theorem roundSqrt_eq (p x : Nat) : roundSqrt p (x * 4 ^ p) =
    let e := binade (Nat.sqrt x)
    let f := Nat.sqrt x / 2 ^ e
    min (e * 2 ^ 23 + (if 4 * x < ((2 * f + 1) * 2 ^ e) ^ 2 then f
      else if ((2 * f + 1) * 2 ^ e) ^ 2 < 4 * x then f + 1 else f + f % 2)) infMag := by
  have h4 : 4 ^ p = 2 ^ p * 2 ^ p := by rw [← Nat.mul_pow]
  have hp : 0 < 2 ^ p * 2 ^ p := by positivity
  unfold roundSqrt
  simp only [isqrt_eq, sqrt_shift]
  rw [pow_add, ← Nat.div_div_eq_div_mul, sqrt_shift]
  generalize hf : Nat.sqrt x / 2 ^ binade (Nat.sqrt x) = f
  generalize 2 ^ binade (Nat.sqrt x) = d
  have e1 : (2 * f + 1) * (2 ^ p * d) * ((2 * f + 1) * (2 ^ p * d)) =
      ((2 * f + 1) * d) ^ 2 * (2 ^ p * 2 ^ p) := by ring
  have e2 : 4 * (x * 4 ^ p) = 4 * x * (2 ^ p * 2 ^ p) := by rw [h4]; ring
  rw [e1, e2]
  simp only [Nat.mul_lt_mul_right hp]

theorem roundSqrt_le (p v : Nat) : roundSqrt p v ≤ infMag := min_le_right _ _

/-- The midpoint comparisons of two grid points `r d` and `k d` around the root of `x`. -/
theorem grid_nearest {x d f r : Nat} (hd : 0 < d) (h0 : (f * d) ^ 2 ≤ x) (h1 : x < ((f + 1) * d) ^ 2)
    (hr : r = if 4 * x < ((2 * f + 1) * d) ^ 2 then f
      else if ((2 * f + 1) * d) ^ 2 < 4 * x then f + 1 else f + f % 2) (k : Nat) :
    (r < k → 4 * x ≤ (r * d + k * d) ^ 2) ∧ (k < r → (r * d + k * d) ^ 2 ≤ 4 * x) ∧
    (k ≠ r → (r * d + k * d) ^ 2 = 4 * x → r % 2 = 0) := by
  have mono : ∀ {a b : Nat}, a ≤ b → (a * d) ^ 2 ≤ (b * d) ^ 2 := fun h =>
    Nat.pow_le_pow_left (Nat.mul_le_mul_right _ h) 2
  have smono : ∀ {a b : Nat}, a < b → (a * d) ^ 2 < (b * d) ^ 2 := fun h =>
    Nat.pow_lt_pow_left (Nat.mul_lt_mul_of_pos_right h hd) (by norm_num)
  have e0 : (2 * f * d) ^ 2 = 4 * (f * d) ^ 2 := by ring
  have e1 : ((2 * f + 2) * d) ^ 2 = 4 * ((f + 1) * d) ^ 2 := by ring
  rw [← Nat.add_mul]
  have key : (r = f ∧ 4 * x < ((2 * f + 1) * d) ^ 2) ∨ (r = f + 1 ∧ ((2 * f + 1) * d) ^ 2 < 4 * x) ∨
      (r = f + f % 2 ∧ ((2 * f + 1) * d) ^ 2 = 4 * x) := by
    split at hr
    · exact .inl ⟨hr, by assumption⟩
    · split at hr
      · exact .inr (.inl ⟨hr, by assumption⟩)
      · exact .inr (.inr ⟨hr, by omega⟩)
  have hrf : r = f ∨ r = f + 1 := by rcases key with ⟨h, -⟩ | ⟨h, -⟩ | ⟨h, -⟩ <;> omega
  refine ⟨fun hk => ?_, fun hk => ?_, fun hk he => ?_⟩
  · rcases hrf with rfl | rfl
    · have := mono (show 2 * r + 1 ≤ r + k by omega)
      rcases key with ⟨h, h'⟩ | ⟨h, h'⟩ | ⟨h, h'⟩ <;> omega
    · have := mono (show 2 * f + 2 ≤ f + 1 + k by omega)
      omega
  · rcases hrf with rfl | rfl
    · have := mono (show r + k ≤ 2 * r by omega)
      omega
    · have := mono (show f + 1 + k ≤ 2 * f + 1 by omega)
      rcases key with ⟨h, h'⟩ | ⟨h, h'⟩ | ⟨h, h'⟩ <;> omega
  · rcases key with ⟨h, h'⟩ | ⟨h, h'⟩ | ⟨h, h'⟩
    · exfalso
      subst h
      rcases Nat.lt_or_gt_of_ne hk with hk | hk
      · have := smono (show r + k < 2 * r by omega); omega
      · have := mono (show 2 * r + 1 ≤ r + k by omega); omega
    · exfalso
      subst h
      rcases Nat.lt_or_gt_of_ne hk with hk | hk
      · have := mono (show f + 1 + k ≤ 2 * f + 1 by omega); omega
      · have := mono (show 2 * f + 2 ≤ f + 1 + k by omega); omega
    · omega

theorem units_nonneg_form {q : Word} (h : 0 ≤ units q) : units q = (magUnits (fMag q) : Int) := by
  unfold units at *
  split at h
  · next hs => rw [if_pos hs]; omega
  · next hs => rw [if_neg hs]

/-- The units of an infinity: the first value of the binade after the last. -/
theorem magUnits_inf : magUnits infMag = 2 ^ 23 * 2 ^ 254 := by
  unfold magUnits infMag
  rfl

/-- The significand of a root of 24 bits or more. -/
theorem significand_spec {s : Nat} (h : 2 ^ 24 ≤ s) :
    2 ^ 23 ≤ s / 2 ^ binade s ∧ s / 2 ^ binade s < 2 ^ 24 := by
  obtain ⟨b1, b2⟩ := binade_spec h
  rw [Nat.add_comm, pow_add] at b1 b2
  have hd : 0 < 2 ^ binade s := Nat.two_pow_pos _
  exact ⟨(Nat.le_div_iff_mul_le hd).2 b1, (Nat.div_lt_iff_lt_mul hd).2 b2⟩

/-- The units of a significand in the binade of `s`, before saturation. -/
theorem magUnits_significand {s r : Nat} (h0 : s / 2 ^ binade s ≤ r) (h1 : r ≤ s / 2 ^ binade s + 1) :
    magUnits (binade s * 2 ^ 23 + r) = r * 2 ^ binade s := by
  rcases Nat.lt_or_ge s (2 ^ 24) with h | h
  · rw [binade_small h, pow_zero, Nat.div_one] at h0 h1
    rw [binade_small h, zero_mul, zero_add, pow_zero, mul_one]
    rcases Nat.lt_or_ge r (2 ^ 23) with h2 | h2
    · unfold magUnits; rw [if_pos (Nat.div_eq_of_lt h2)]
    · have := magUnits_binade (e := 0) h2 (by omega)
      rwa [zero_mul, zero_add, pow_zero, mul_one] at this
  · obtain ⟨a, b⟩ := significand_spec h
    exact magUnits_binade (by omega) (by omega)

/-- The midpoint comparisons of a rounded root with any other value of `F`. -/
theorem root_nearest {x s r m' : Nat} (hs0 : s ^ 2 ≤ x) (hs1 : x < (s + 1) ^ 2)
    (hr : r = if 4 * x < ((2 * (s / 2 ^ binade s) + 1) * 2 ^ binade s) ^ 2 then s / 2 ^ binade s
      else if ((2 * (s / 2 ^ binade s) + 1) * 2 ^ binade s) ^ 2 < 4 * x then s / 2 ^ binade s + 1
      else s / 2 ^ binade s + s / 2 ^ binade s % 2) :
    (r * 2 ^ binade s < magUnits m' → 4 * x ≤ (r * 2 ^ binade s + magUnits m') ^ 2) ∧
    (magUnits m' < r * 2 ^ binade s → (r * 2 ^ binade s + magUnits m') ^ 2 ≤ 4 * x) ∧
    (magUnits m' ≠ r * 2 ^ binade s → (r * 2 ^ binade s + magUnits m') ^ 2 = 4 * x → r % 2 = 0) := by
  have hd : 0 < 2 ^ binade s := Nat.two_pow_pos _
  have f0 : s / 2 ^ binade s * 2 ^ binade s ≤ s := Nat.div_mul_le_self _ _
  have f1 : s + 1 ≤ (s / 2 ^ binade s + 1) * 2 ^ binade s := by
    have := Nat.lt_mul_div_succ s hd
    rwa [mul_comm] at this
  have h0 := (Nat.pow_le_pow_left f0 2).trans hs0
  have h1 := lt_of_lt_of_le hs1 (Nat.pow_le_pow_left f1 2)
  have grid := fun k => grid_nearest hd h0 h1 hr k
  by_cases hq : 2 ^ binade s ∣ magUnits m'
  · obtain ⟨k, hk⟩ := hq
    rw [mul_comm] at hk
    rw [hk]
    obtain ⟨a, b, c⟩ := grid k
    exact ⟨fun h => a (Nat.lt_of_mul_lt_mul_right h), fun h => b (Nat.lt_of_mul_lt_mul_right h),
      fun h => c (fun e => h (by rw [e]))⟩
  · -- a value off the grid lies below the binade
    have hsb : 2 ^ 24 ≤ s := by
      by_contra h
      exact hq (by rw [binade_small (Nat.lt_of_not_le h)]; exact one_dvd _)
    have hlt : magUnits m' < 2 ^ 23 * 2 ^ binade s := by
      by_contra hge
      refine hq (magUnits_dvd ?_)
      rw [Nat.add_comm, pow_add]
      exact Nat.le_of_not_lt hge
    have hf : 2 ^ 23 ≤ r := by
      refine (significand_spec hsb).1.trans ?_
      rw [hr]
      split
      · exact le_rfl
      · split <;> exact Nat.le_add_right _ _
    have hle : 2 ^ 23 * 2 ^ binade s ≤ r * 2 ^ binade s := Nat.mul_le_mul_right _ hf
    have strict : (r * 2 ^ binade s + magUnits m') ^ 2 < 4 * x := by
      have h2 : (r * 2 ^ binade s + magUnits m') ^ 2 < (r * 2 ^ binade s + 2 ^ 23 * 2 ^ binade s) ^ 2 :=
        Nat.pow_lt_pow_left (Nat.add_lt_add_left hlt _) (by norm_num)
      rcases Nat.lt_or_eq_of_le hf with h | h
      · exact lt_of_lt_of_le h2 ((grid (2 ^ 23)).2.1 h)
      · have e2 : (r * 2 ^ binade s + 2 ^ 23 * 2 ^ binade s) ^ 2 =
            4 * (2 ^ 23 * 2 ^ binade s) ^ 2 := by rw [← h]; ring
        have h3 : (2 ^ 23 * 2 ^ binade s) ^ 2 ≤ x := (Nat.pow_le_pow_left
          (Nat.mul_le_mul_right _ (significand_spec hsb).1) 2).trans h0
        exact lt_of_lt_of_le h2 (e2.trans_le (Nat.mul_le_mul_left _ h3))
    exact ⟨fun h => absurd (hlt.trans_le hle) h.not_gt, fun _ => strict.le,
      fun _ h => absurd h strict.ne⟩

theorem magUnits_finite_lt {m : Nat} (h : m < infMag) : magUnits m < 2 ^ 23 * 2 ^ 254 := by
  have hr := Nat.mod_lt m (show 0 < 2 ^ 23 by norm_num)
  have hq : m / 2 ^ 23 ≤ 254 := Nat.le_of_lt_succ (Nat.div_lt_of_lt_mul h)
  unfold magUnits
  split
  · next h0 =>
    have : m < 2 ^ 23 := (Nat.div_eq_zero_iff.1 h0).resolve_left (by norm_num)
    exact this.trans_le (Nat.le_mul_of_pos_right _ (Nat.two_pow_pos _))
  · calc (m % 2 ^ 23 + 2 ^ 23) * 2 ^ (m / 2 ^ 23 - 1) < 2 ^ 24 * 2 ^ (m / 2 ^ 23 - 1) :=
          Nat.mul_lt_mul_of_pos_right (by omega) (Nat.two_pow_pos _)
      _ ≤ 2 ^ 24 * 2 ^ 253 := Nat.mul_le_mul_left _ (Nat.pow_le_pow_right (by norm_num) (by omega))
      _ = 2 ^ 23 * 2 ^ 254 := by rw [← pow_add, ← pow_add]

/-- A root whose rounding saturates is beyond the finite values. -/
theorem clip_le {s r : Nat} (hr : s / 2 ^ binade s ≤ r ∧ r ≤ s / 2 ^ binade s + 1)
    (h : infMag < binade s * 2 ^ 23 + r) : 2 ^ 23 * 2 ^ 254 ≤ s := by
  have hI : infMag = 255 * 2 ^ 23 := rfl
  have hbig : 2 ^ 24 ≤ s := by
    by_contra hn
    rw [binade_small (Nat.lt_of_not_le hn), pow_zero, Nat.div_one] at hr
    rw [binade_small (Nat.lt_of_not_le hn)] at h
    omega
  have h254 : 254 ≤ binade s := by
    have := significand_spec hbig
    omega
  have h1 := (binade_spec hbig).1
  rw [Nat.add_comm, pow_add] at h1
  exact (Nat.mul_le_mul_left _ (Nat.pow_le_pow_right (by norm_num) h254)).trans h1

/-- `roundSqrt` gives the value of `F` nearest to a square root, with an even pattern on a tie. -/
theorem roundSqrt_nearest (p x : Nat) :
    NearestRoot (packF false (roundSqrt p (x * 4 ^ p))) (x : Int) := by
  have hlt : roundSqrt p (x * 4 ^ p) < 2 ^ 31 := lt_of_le_of_lt (roundSqrt_le _ _) (by decide)
  suffices h : ∀ m', m' < infMag →
      (magUnits (roundSqrt p (x * 4 ^ p)) < magUnits m' →
        4 * x ≤ (magUnits (roundSqrt p (x * 4 ^ p)) + magUnits m') ^ 2) ∧
      (magUnits m' < magUnits (roundSqrt p (x * 4 ^ p)) →
        (magUnits (roundSqrt p (x * 4 ^ p)) + magUnits m') ^ 2 ≤ 4 * x) ∧
      (magUnits m' ≠ magUnits (roundSqrt p (x * 4 ^ p)) →
        (magUnits (roundSqrt p (x * 4 ^ p)) + magUnits m') ^ 2 = 4 * x →
          roundSqrt p (x * 4 ^ p) % 2 = 0) by
    refine ⟨isNaN_packF (roundSqrt_le _ _), fSign_packF _ _, fun q hq hq0 => ?_⟩
    obtain ⟨a, b, c⟩ := h (fMag q) (by simpa [isFinite] using hq)
    rw [units_packF_false hlt, units_nonneg_form hq0]
    refine ⟨fun h => by exact_mod_cast a (by exact_mod_cast h),
      fun h => by exact_mod_cast b (by exact_mod_cast h), fun h h' => ?_⟩
    have := c (by exact_mod_cast h) (by exact_mod_cast h')
    rw [BitVec.getLsbD, packF_toNat _ hlt]
    simp [Nat.testBit_zero, this]
  intro m' hm'
  rw [roundSqrt_eq]
  have hs0 := Nat.sqrt_le' x
  have hs1 := Nat.lt_succ_sqrt' x
  generalize Nat.sqrt x = s at *
  generalize hr : (if 4 * x < ((2 * (s / 2 ^ binade s) + 1) * 2 ^ binade s) ^ 2 then s / 2 ^ binade s
    else if ((2 * (s / 2 ^ binade s) + 1) * 2 ^ binade s) ^ 2 < 4 * x then s / 2 ^ binade s + 1
    else s / 2 ^ binade s + s / 2 ^ binade s % 2) = r
  simp only [hr]
  have hrange : s / 2 ^ binade s ≤ r ∧ r ≤ s / 2 ^ binade s + 1 := by
    rw [← hr]
    split
    · exact ⟨le_rfl, Nat.le_succ _⟩
    · split
      · exact ⟨Nat.le_succ _, le_rfl⟩
      · exact ⟨Nat.le_add_right _ _, Nat.add_le_add_left (Nat.lt_succ_iff.1 (Nat.mod_lt _ two_pos)) _⟩
  rcases Nat.lt_or_ge infMag (binade s * 2 ^ 23 + r) with hclip | hclip
  · rw [min_eq_right hclip.le, magUnits_inf]
    have hu := magUnits_finite_lt hm'
    have hs : 2 ^ 23 * 2 ^ 254 ≤ s := clip_le hrange hclip
    refine ⟨fun h => absurd hu h.not_gt, fun _ => ?_, fun _ _ => by decide⟩
    have h1 := Nat.pow_le_pow_left ((Nat.add_le_add hs (hu.le.trans hs))) 2
    calc _ ≤ (s + s) ^ 2 := h1
      _ = 4 * s ^ 2 := by ring
      _ ≤ 4 * x := Nat.mul_le_mul_left _ hs0
  · rw [min_eq_left hclip, magUnits_significand hrange.1 hrange.2]
    obtain ⟨a, b, c⟩ := root_nearest (m' := m') hs0 hs1 hr.symm
    refine ⟨a, b, fun h h' => ?_⟩
    have := c h h'
    omega

end Sys2Proof.Machine
end

