-- ==== Sys2Proof/Tests/Slice0.lean ====
section
/-! SUPPORT. The builder's own tests: the checks of well-formedness, a word of every command, small steps
with the values of `spec/95_test_vectors.md`, and for every statement with hypotheses a state and
operands that meet them. -/

namespace Sys2Proof.Tests

open Sys2Proof.Machine Sys2Proof.Safety

/-! ## Well-formedness: each check refuses an ill-formed term -/

theorem test_wf_refuses_selectors : (Instr.process 16 0).wellFormed = false ∧
    (Instr.rreset 16).wellFormed = false ∧ (Instr.rset 16).wellFormed = false ∧
    (Instr.rnext 16).wellFormed = false := by decide
theorem test_wf_refuses_immediates : (Instr.process 1 1048576).wellFormed = false ∧
    (Instr.gainstg 1048576).wellFormed = false := by decide
theorem test_wf_accepts_the_largest : (Instr.process 15 1048575).wellFormed = true ∧
    (Instr.gainstg 1048575).wellFormed = true ∧ (Instr.rnext 15).wellFormed = true := by decide

/-! ## Decoding: words written out from the encoding (R90, R94; `95_test_vectors.md` 2.1) -/

theorem test_decode_nop : decode 0b00000000_0000_00000000000000000000#32 = .ok .nop := by rfl
theorem test_decode_prepare :
    decode 0b00000001_0000_00000000000000000000#32 = .ok .prepare := by rfl
theorem test_decode_release :
    decode 0b00000010_0000_00000000000000000000#32 = .ok .release := by rfl
theorem test_decode_process :
    decode 0b00000011_0010_00000000000000001000#32 = .ok (.process 2 8) := by rfl
theorem test_decode_latch : decode 0b00000100_0000_00000000000000000000#32 = .ok .latch := by rfl
theorem test_decode_push : decode 0b00010000_0000_00000000000000000000#32 = .ok .push := by rfl
theorem test_decode_estimate :
    decode 0b00010001_0000_00000000000000000000#32 = .ok .estimate := by rfl
theorem test_decode_rreset :
    decode 0b00100000_0001_00000000000000000000#32 = .ok (.rreset 1) := by rfl
theorem test_decode_rset :
    decode 0b00100001_0001_00000000000000000000#32 = .ok (.rset 1) := by rfl
theorem test_decode_rnext :
    decode 0b00100010_0010_00000000000000000000#32 = .ok (.rnext 2) := by rfl
theorem test_decode_afreq : decode 0b00110000_0000_00000000000000000000#32 = .ok .afreq := by rfl
theorem test_decode_oscnext :
    decode 0b00110001_0000_00000000000000000000#32 = .ok .oscnext := by rfl
theorem test_decode_sample :
    decode 0b01000000_0000_00000000000000000000#32 = .ok .sample := by rfl
theorem test_decode_gainstg :
    decode 0b01000001_0000_00000000000000000100#32 = .ok (.gainstg 4) := by rfl
theorem test_decode_refuses : decode 0x10000001#32 = .error .nonzeroField ∧
    decode 0x00100000#32 = .error .nonzeroField ∧ decode 0x41100004#32 = .error .nonzeroField ∧
    decode 0x22000001#32 = .error .nonzeroField ∧
    decode 0x12000000#32 = .error .unassignedOpcode ∧
    decode 0x42000000#32 = .error .unassignedOpcode := by refine ⟨?_, ?_, ?_, ?_, ?_, ?_⟩ <;> rfl
theorem test_table_word : decodeTableWord 32 0x03200008 = some (.process 2 8) := by rfl

/-! ## Configurations and tables -/

/-- The test configuration `TC` of `95_test_vectors.md`. -/
def tc : Cfg := cfgWith 2 4 true 0x3F800000#32 0x3F000000#32 0x3E800000#32 8 2

theorem test_configurations_are_legal : cfg.scalarsLegal = true ∧ tc.scalarsLegal = true := by decide +kernel
theorem test_tables : cfg.sintab 1 = 0x3BC90F88#32 ∧ cfg.hanntab 1 = 0x351DFDA3#32 ∧
    cfg.hanntab 2047 = cfg.hanntab 2048 ∧ tc.sintab 3 = 0xBF800000#32 ∧
    tc.hanntab 1 = 0x3F400000#32 := by decide +kernel
/-- The last row of section 2.2 with interior values. -/
theorem test_fftmag : tc.fftmag [0x00000000#32, 0xBF400000#32, 0x3EC00000#32, 0x00000000#32] =
    [0x3EC00000#32, 0x3F56A99B#32, 0x3F900000#32, 0x3F56A99B#32] := by decide +kernel
/-- Section 2.5. -/
theorem test_pmod : pmod 4 0x40800000#32 = 0x00000000#32 ∧ pmod 4 0xBF000000#32 = 0x40600000#32 ∧
    pmod 4 0x407FFFFF#32 = 0x407FFFFF#32 ∧ pmod 4 0xAEDBE6FF#32 = 0x00000000#32 ∧
    pmod 4 0x7F800000#32 = 0x00000000#32 := by decide +kernel
/-- Section 2.3: thresholds and bin frequencies of the canonical configuration. -/
theorem test_arithmetic : fmul 0x3E99999A#32 0x437A0000#32 = 0x42960000#32 ∧
    fmul 0x3E99999A#32 0x42C80000#32 = 0x41F00001#32 ∧
    binFreq cfg 0x472C4400#32 20 = 0x43576277#32 ∧
    binFreq cfg 0x472C4400#32 2048 = 0x46AC4EC6#32 := by decide +kernel

/-! ## One step of each command -/

/-- The state an outcome holds; `State.reset` where there is none. -/
def after : Host.Outcome State Fault Refusal → State
  | .next t => t
  | .fault _ => State.reset
  | .refused _ => State.reset

/-- A state with the registers `PREPARE` reads, at 8.0 Hz and 8 samples. -/
def tcConfigured (cells : Cells) : State :=
  { State.reset with sampleRate := 0x41000000#32, maxBlk := 8#32, cells := cells }

/-- Cells of program P3: gain 1, feedback 0.5, offset 12, tolerance 0.5, detune 1. -/
def p3Cells : Cells :=
  { gainOut := 0x3F800000#32, fbGain := 0x3F000000#32, offset := 12#32, tol := 0x3F000000#32,
    detune := 0x3F800000#32 }

/-- An open session in `TC`. -/
def tcSession : State := prepareEffect tc (tcConfigured p3Cells)

theorem test_nop : exec .nop tcSession = .next tcSession := rfl
theorem test_prepare : (after (prepareCmd tc (tcConfigured p3Cells))).lc = .prepared ∧
    (after (prepareCmd tc (tcConfigured p3Cells))).ramp0.len = 4#32 ∧
    (after (prepareCmd tc (tcConfigured p3Cells))).ramp1.len = 2#32 ∧
    (after (prepareCmd tc (tcConfigured p3Cells))).hann =
      [(0, 0x00000000#32), (1, 0x3F400000#32), (2, 0x3F400000#32), (3, 0x00000000#32)] := by
  decide +kernel
theorem test_prepare_pfail :
    (after (prepareCmd tc { tcConfigured p3Cells with maxBlk := 9#32 })).faults.cause = 4#32 ∧
    statusWord (after (prepareCmd tc { tcConfigured p3Cells with maxBlk := 9#32 })) =
      0x00000040#32 := by decide +kernel
theorem test_release : statusWord (after (releaseCmd tc tcSession)) = 0x00000003#32 ∧
    (after (releaseCmd tc tcSession)).sine = [] ∧
    (after (releaseCmd tc tcSession)).cells = p3Cells := by decide +kernel
/-- The first row of the latch table of section 2.6. -/
theorem test_latch : (after (exec .latch { tcSession with cells :=
      { gainOut := 0x3FC00000#32, fbGain := 0xBE800000#32, offset := 25#32, tol := 0x7FC00000#32,
        detune := 0x42960000#32 } })).snap =
    { gainOut := 0x3F800000#32, fbGain := 0x00000000#32, offset := 24#32, tol := 0x00000000#32,
      detune := 0x42480000#32 } := by decide +kernel
/-- The second row, with a negative offset. -/
theorem test_latch_negative : (after (exec .latch { tcSession with cells :=
      { gainOut := 0x7F800000#32, fbGain := 0xFF800000#32, offset := 0xFFFFFFFF#32,
        tol := 0x3FC00000#32, detune := 0xC24A0000#32 } })).snap =
    { gainOut := 0x3F800000#32, fbGain := 0x00000000#32, offset := 0#32, tol := 0x3F800000#32,
      detune := 0xC2480000#32 } := by decide +kernel
/-- The fourth push of the frame [0, 1, -1, 0] of section 2.2, with the retarget of ramp 0. -/
def tcAlmostFull : State :=
  { tcSession with opa := 0x00000000#32
                   an := { tcSession.an with
                     fifo := Memory.ofWords 0 [0x00000000#32, 0x3F800000#32, 0xBF800000#32]
                     fifoIdx := 3 } }
theorem test_push_completes : (after (pushCmd tc tcAlmostFull)).an.work =
      Memory.ofWords 0 [0x00000000#32, 0x3F87C3B6#32, 0x3FC00000#32, 0x3F87C3B6#32] ∧
    (after (pushCmd tc tcAlmostFull)).an.detFreq = 0x40AAAAAB#32 ∧
    (after (pushCmd tc tcAlmostFull)).an.fifoIdx = 0 ∧
    (after (pushCmd tc tcAlmostFull)).ramp0.step = 0x3FAAAAAB#32 ∧
    (after (pushCmd tc tcAlmostFull)).ramp0.rem = 4#32 := by decide +kernel
theorem test_push_stores :
    (after (pushCmd tc { tcSession with opa := 0x3F800000#32 })).an.fifo.look 0 =
      some 0x3F800000#32 ∧
    (after (pushCmd tc { tcSession with opa := 0x3F800000#32 })).an.fifoIdx = 1 := by
  decide +kernel
/-- Program P3, step 13. -/
theorem test_estimate : (after (estimateCmd tc { tcSession with an := { tcSession.an with
      work := Memory.ofWords 0 [0x00000000#32, 0x3F87C3B6#32, 0x3FC00000#32, 0x3F87C3B6#32] } })).res
    = 0x40AAAAAB#32 := by decide +kernel
theorem test_estimate_silent : (after (estimateCmd tc { tcSession with res := 1#32 })).res =
    0x00000000#32 := by decide +kernel
/-- Section 2.4. -/
theorem test_rreset : (after (rresetCmd tc 0 { tcSession with ramp0 :=
      { cur := 0x3E800000#32, tgt := 0x3F800000#32, step := 0x3E800000#32, rem := 3#32,
        len := 4#32 } })).ramp0 =
    { cur := 0x3F800000#32, tgt := 0x3F800000#32, step := 0x00000000#32, rem := 0#32,
      len := 4#32 } := by decide +kernel
theorem test_rset : (after (exec (.rset 0) { tcSession with opa := 0xC0400000#32 })).ramp0 =
    { cur := 0x00000000#32, tgt := 0xC0400000#32, step := 0xBF400000#32, rem := 4#32,
      len := 4#32 } := by decide +kernel
theorem test_rset_negative_zero :
    (after (exec (.rset 0) { tcSession with opa := 0x80000000#32 })).ramp0 = tcSession.ramp0 := by
  decide +kernel
theorem test_rnext_lands_on_the_target : (after (exec (.rnext 1) { tcSession with ramp1 :=
      { cur := 0x3D99999A#32, tgt := 0x3DCCCCCD#32, step := 0x3CCCCCCD#32, rem := 1#32,
        len := 4#32 } })).res = 0x3DCCCCCD#32 := by decide +kernel
theorem test_rnext_adds : (after (exec (.rnext 0) { tcSession with ramp0 :=
      { cur := 0x3CCCCCCD#32, tgt := 0x3DCCCCCD#32, step := 0x3CCCCCCD#32, rem := 3#32,
        len := 4#32 } })).res = 0x3D4CCCCD#32 := by decide +kernel
/-- Section 2.5. -/
theorem test_afreq : (after (afreqCmd tc { tcSession with
      opa := 0x435C0000#32, snap := { tcSession.snap with offset := 7#32, detune := 0#32 } })).res =
    0x43A4D054#32 := by decide +kernel
theorem test_oscnext : (after (oscnextCmd tc { tcSession with
      opa := 0x3F800000#32, osc := { phase := 0x40600000#32, phaseInc := 0#32 } })).res =
      0xBF000000#32 ∧
    (after (oscnextCmd tc { tcSession with
      opa := 0x3F800000#32, osc := { phase := 0x40600000#32, phaseInc := 0#32 } })).osc =
      { phase := 0x00000000#32, phaseInc := 0x3F000000#32 } := by decide +kernel
theorem test_oscnext_infinite : (after (oscnextCmd tc { tcSession with
      opa := 0x7F800000#32, osc := { phase := 0x3F000000#32, phaseInc := 0x3F000000#32 } })).osc =
    { phase := 0x00000000#32, phaseInc := 0x7F800000#32 } := by decide +kernel
/-- Program P3, step 15. -/
def p3Step15 : State :=
  { tcSession with
    opa := 0x3F800000#32
    ramp0 := { cur := 0x40000000#32, tgt := 0x40AAAAAB#32, step := 0x3F555556#32, rem := 4#32,
               len := 4#32 }
    ramp1 := { cur := 0x3F800000#32, tgt := 0x3F800000#32, step := 0x3F000000#32, rem := 0#32,
               len := 2#32 }
    osc := { phase := 0x3F800000#32, phaseInc := 0x3F800000#32 } }
theorem test_sample : (after (sampleCmd tc p3Step15)).res = 0x3FC00000#32 ∧
    (after (sampleCmd tc p3Step15)).osc = { phase := 0x3EAAAAB0#32, phaseInc := 0x40555556#32 } ∧
    (after (sampleCmd tc p3Step15)).ramp0.cur = 0x40355556#32 ∧
    (after (sampleCmd tc p3Step15)).an.fifoIdx = 1 := by decide +kernel
/-- The gain-stage table of section 2.6. -/
theorem test_gainstg : (after (exec (.gainstg 4) { tcSession with
      snap := { tcSession.snap with gainOut := 0x00000000#32 }
      buf := Memory.ofWords 0 [0x3F800000#32, 0x40000000#32, 0x40400000#32, 0x40800000#32] })).buf =
    Memory.ofWords 0 [0x3F800000#32, 0x3FC00000#32, 0x3FC00000#32, 0x3F800000#32] := by
  decide +kernel
theorem test_gainstg_empty : (after (exec (.gainstg 0) { tcSession with
      snap := { tcSession.snap with gainOut := 0x00000000#32 } })).gain =
    { cur := 0x00000000#32, prev := 0x3F800000#32 } := by decide +kernel
/-- Program P1: one block of two channels. -/
def p1Start : State :=
  { prepareEffect tc (tcConfigured
      { gainOut := 0x3F800000#32, fbGain := 0x3F800000#32, offset := 0#32, tol := 0x3F000000#32,
        detune := 0#32 }) with
    buf := Memory.ofWords 0 [0#32, 0x3F800000#32, 0xBF800000#32, 0#32, 0#32, 0x3F800000#32,
      0xBF800000#32, 0#32, 0x41100000#32, 0x41100000#32, 0x41100000#32, 0x41100000#32,
      0x41100000#32, 0x41100000#32, 0x41100000#32, 0x41100000#32] }
theorem test_process : (after (processCmd tc 2 8 p1Start)).buf = Memory.ofWords 0
      [0x00000000#32, 0x3F800000#32, 0xBF800000#32, 0x00000000#32, 0x3EAAAAAB#32, 0x3F800000#32,
       0xBF800000#32, 0xBEAAAAAC#32, 0#32, 0#32, 0#32, 0#32, 0#32, 0#32, 0#32, 0#32] ∧
    (after (processCmd tc 2 8 p1Start)).osc =
      { phase := 0x3FAAAAAC#32, phaseInc := 0x402AAAAB#32 } ∧
    (after (processCmd tc 2 8 p1Start)).an.frameCnt = 2#32 := by decide +kernel
theorem test_process_badoper :
    statusWord (after (processCmd tc 3 1 p1Start)) = 0x00000011#32 := by decide +kernel

/-! ## Ports -/

/-- The word a host read of an index returns in `TC` after reset. -/
def readAt (a : Nat) : Option Word := elemContent tc State.reset (hostElem tc a)
/-- Section 2.9. -/
theorem test_reads_after_reset : readAt 0x08 = some 0x46424B31#32 ∧ readAt 0x09 = some 4#32 ∧
    readAt 0x0B = some 8#32 ∧ readAt 0x0D = some 0#32 ∧ readAt 0x10004 = some 0#32 ∧
    readAt 0x40010 = some 0#32 := by decide +kernel
/-- The first row of program P4, through the queue of host operations. -/
theorem test_step_from_reset : (after (step (State.reset.withFetchWord 32 0x03100004))).faults.cmd =
      0x03100004#32 ∧
    statusWord (after (step (State.reset.withFetchWord 32 0x03100004))) = 0x00000020#32 := by
  decide +kernel
/-- R63: the bytes of `RES` at byte address `0x0C`. -/
theorem test_bus_lane : busLane 0x3FC00000#32 3 = 0x3F#8 ∧ busLane 0x3FC00000#32 2 = 0xC0#8 ∧
    busIndex 0x0C#21 = 0x03#19 := by decide

/-! ## Witnesses: a state and operands that meet the hypotheses of each statement -/

/-- A state of the canonical configuration with usable arguments for `PREPARE`: 48000.0 Hz, 8192
samples. -/
def configured : State :=
  { State.reset with sampleRate := 0x473B8000#32, maxBlk := 8192#32 }

/-- A small open session of the canonical configuration: the registers the hypotheses look at. -/
def session : State :=
  { configured with lc := .prepared, sr := 0x473B8000#32, mb := 8192#32 }

/-- A state with one operation to come. -/
def withEvent (e : Event) (s : State) : State := { s with pending := [e] }

theorem witness_DecodeOfEncodeIsTheInstruction : (Instr.process 15 1048575).wellFormed = true ∧
    (Instr.gainstg 0).wellFormed = true ∧ (Instr.rset 15).wellFormed = true ∧
    Instr.nop.wellFormed = true := by decide
theorem witness_EncodeOfDecodeIsTheWord : decode 0x03FFFFFF#32 = .ok (.process 15 1048575) := by rfl
theorem witness_LegalWordsAreTheTableRows : ∀ i, decode 0x05000000#32 ≠ .ok i := by
  intro i h
  cases h
theorem witness_StepRunsTheDecodedCommand :
    let m : Meanwhile :=
      { ctl := [[.write 0 1#32], [], [], [], [], [.write 1 2#32, .read 1]]
        statusEarly := 1
        statusLate := 1 }
    (withEvent (.hostWrite 0#19 0x04000000#32 m) session).pending =
      .hostWrite 0#19 0x04000000#32 m :: [] ∧
    decode 0x04000000#32 = .ok .latch ∧ Instr.latch.wellFormed = true ∧
    ∃ t, exec .latch { session with pending := [], busy := true, race := m.ctl } = .next t ∧
      t.race.flatten = [.write 1 2#32, .read 1] :=
  ⟨rfl, rfl, rfl, _, rfl, rfl⟩
theorem witness_CommandStepWithoutOtherAgents :
    (withEvent (.hostWrite 0#19 0x02000000#32 {}) session).pending =
      .hostWrite 0#19 0x02000000#32 {} :: [] ∧
    decode 0x02000000#32 = .ok .release ∧ Instr.release.wellFormed = true ∧
    ∃ t, exec .release { session with busy := true, race := [] } = .next t :=
  ⟨rfl, rfl, rfl, _, rfl⟩
theorem witness_IllegalWordOnlyRecordsIllcmd :
    (withEvent (.hostWrite 0#19 0x00100000#32 {}) session).pending =
      .hostWrite 0#19 0x00100000#32 {} :: [] ∧
    decode 0x00100000#32 = .error .nonzeroField ∧
    decode 0xFFFFFFFF#32 = .error .unassignedOpcode := ⟨rfl, rfl, rfl⟩
theorem witness_FaultRecordKeepsTheFirstFault : State.reset.faults.cause = 0#32 ∧
    (recordFault .illcmd 5#32 State.reset).faults.cause ≠ 0#32 ∧ Cause.illcmd ≠ Cause.pfail := by
  decide
theorem witness_StreamingOutsideASessionIsCviol : (Instr.rnext 2).isStreaming = true ∧
    State.reset.lc = .uninitialized ∧ ({ State.reset with lc := .released } : State).lc = .released :=
  ⟨rfl, rfl, rfl⟩
theorem witness_OperandOutOfRangeIsBadoper : session.lc = .prepared ∧ 2 < 3 ∧
    session.mb.toNat < 8193 ∧ 1 < 2 := by decide
theorem witness_PrepareWithUnusableArgumentsIsPfail :
    isFinite { configured with sampleRate := 0x7F800000#32 }.sampleRate = false ∧
    fgt { configured with sampleRate := 0x80000000#32 }.sampleRate fZero = false ∧
    { configured with maxBlk := 0#32 }.maxBlk = 0#32 ∧
    8192 < { configured with maxBlk := 8193#32 }.maxBlk.toNat := by decide
theorem witness_FirstFaultIsKeptUntilReset :
    (withEvent (.hostRead 1#19) (recordFault .illcmd 5#32 session)).pending =
      .hostRead 1#19 :: [] ∧ Event.hostRead 1#19 ≠ .reset ∧
    (recordFault .illcmd 5#32 session).faults.sticky .illcmd = true ∧
    (recordFault .illcmd 5#32 session).faults.cause ≠ 0#32 ∧
    ∃ t, step (withEvent (.hostRead 1#19) (recordFault .illcmd 5#32 session)) = .next t :=
  ⟨rfl, by decide, rfl, by decide, _, rfl⟩
theorem witness_PrepareInitialisesTheSession : isFinite configured.sampleRate = true ∧
    fgt configured.sampleRate fZero = true ∧ 1 ≤ configured.maxBlk.toNat ∧
    configured.maxBlk.toNat ≤ 8192 ∧ 1 ≤ { configured with maxBlk := 1#32 }.maxBlk.toNat ∧
    configured.race = [] := by decide
theorem witness_PrepareTwiceIsPrepareOnce :
    configured.race = [] ∧ ∃ t, exec .prepare configured = .next t := by
  refine ⟨rfl, prepareEffect cfg configured, ?_⟩
  rw [exec_prepare, if_pos]
  rw [prepareArgsOk_iff, cfg_bufcap]
  decide
theorem witness_ReleaseDiscardsTheContext :
    session.lc ≠ .released ∧ ({ session with lc := .released } : State).lc = .released :=
  ⟨by decide, rfl⟩
theorem witness_LifecycleTransitionTable : (∃ t, exec .nop session = .next t) ∧
    (∃ t, exec .release session = .next t) ∧ (∃ t, exec .prepare State.reset = .next t) ∧
    (∃ t, exec .latch session = .next t) ∧ (∃ t, exec (.rset 2) session = .next t) ∧
    (∃ t, exec .latch State.reset = .next t) ∧ Instr.latch.isStreaming = true := by
  refine ⟨⟨_, rfl⟩, ⟨_, rfl⟩, ⟨recordFault .pfail (encode .prepare) State.reset, ?_⟩, ⟨_, rfl⟩,
    ⟨_, rfl⟩, ⟨_, rfl⟩, rfl⟩
  rw [exec_prepare, if_neg]
  rw [prepareArgsOk_iff]
  decide
theorem witness_LatchTakesTheSnapshot : session.lc = .prepared ∧ session.race = [] ∧ 0 < 5 ∧
    ({ session with race := [[.read 0], [.write 1 fOne]] } : State).lc = .prepared := by
  decide
theorem witness_LatchedSnapshotIsInRange : session.lc = .prepared ∧ 1 ≤ 2 ∧ 2 ≤ 2 ∧
    8192 ≤ session.mb.toNat ∧ isFinite configured.sampleRate = true ∧
    fgt configured.sampleRate fZero = true ∧ 1 ≤ configured.maxBlk.toNat ∧
    configured.maxBlk.toNat ≤ 8192 := by decide
theorem witness_ClampGivesTheNearestBound : isNaN fZero = false ∧ isNaN fOne = false ∧
    flt fOne fZero = false ∧ isNaN 0x7FC00000#32 = true ∧ flt 0xFF800000#32 fZero = true ∧
    flt fOne 0x3F800001#32 = true ∧ between fZero fOne 0x80000000#32 = true ∧
    between fZero fOne fOne = true ∧ (0#32 : Word).toInt ≤ (24#32 : Word).toInt := by decide
theorem witness_PushStoresTheSample : session.lc = .prepared ∧ session.an.fifoIdx + 1 < 4096 ∧
    { session.an with fifoIdx := 4094 }.fifoIdx + 1 < 4096 := by decide
theorem witness_PushCompletesTheFrame :
    ({ session with an := { session.an with fifoIdx := 4095 } } : State).an.fifoIdx + 1 = 4096 ∧
    (Memory.put [] 4095 0x3F800000#32).look 4095 = some 0x3F800000#32 ∧
    Memory.look [(4095, 0x3F000000#32)] 4095 = some 0x3F000000#32 := by decide
theorem witness_FrameCadenceAfterPrepare : isFinite configured.sampleRate = true ∧
    fgt configured.sampleRate fZero = true ∧ 1 ≤ configured.maxBlk.toNat ∧
    configured.maxBlk.toNat ≤ 8192 ∧
    ∀ f ∈ [Feed.mk .push fOne [] [], ⟨.sample, fOne, [], []⟩,
        ⟨.process 2 8192, fOne, [], [[.write 0 fOne]]⟩],
      f.cmd = .push ∨ f.cmd = .sample ∨ ∃ nch len, f.cmd = .process nch len ∧
        1 ≤ nch ∧ nch ≤ 2 ∧ len ≤ configured.maxBlk.toNat := by
  refine ⟨by decide, by decide, by decide, by decide, ?_⟩
  rintro f hf
  simp only [List.mem_cons, List.not_mem_nil, or_false] at hf
  rcases hf with rfl | rfl | rfl
  · exact .inl rfl
  · exact .inr (.inl rfl)
  · exact .inr (.inr ⟨2, 8192, rfl, by decide, by decide, by decide⟩)
theorem witness_SpectrumIsMirrored : 0 < 1 ∧ 1 < 2048 ∧ 0 < 2047 ∧ 2047 < 2048 := by decide
theorem witness_SpectrumOfAFiniteFrame :
    (∀ y ∈ [0x80000000#32], isFinite y = true ∧ fMag y = 0) ∧
    (∀ y ∈ fOne :: List.replicate 4095 0x80000000#32, isFinite y = true) ∧
    (fOne :: List.replicate 4095 0x80000000#32).length = 4096 ∧
    ∀ i, 0 < i → i < 4096 →
      fMag ((fOne :: List.replicate 4095 0x80000000#32).getD i 0#32) = 0 := by
  refine ⟨List.forall_mem_singleton.2 (by decide), fun y hy => ?_, ?_, fun i h0 h1 => ?_⟩
  · rcases List.mem_cons.1 hy with rfl | hy
    · decide
    · rw [List.eq_of_mem_replicate hy]; decide
  · rw [List.length_cons, List.length_replicate]
  · obtain ⟨j, rfl⟩ : ∃ j, i = j + 1 := ⟨i - 1, by omega⟩
    rw [List.getD_cons_succ, List.getD_replicate _ (by omega)]
    decide
theorem witness_EstimateWritesOnlyTheResult : session.lc = .prepared ∧
    Memory.look [(0, 1#32), (4095, 2#32)] 4095 = some 2#32 := by decide
theorem witness_EstimateTakesTheFirstMaximum : (List.replicate 4096 fOne).length = 4096 ∧
    isNaN ((List.replicate 4096 fOne).getD 0 0#32) = false ∧
    (List.replicate 4096 0x7FC00000#32).length = 4096 ∧
    isNaN ((List.replicate 4096 0x7FC00000#32).getD 0 0#32) = true :=
  ⟨List.length_replicate, by decide, List.length_replicate, by decide⟩
theorem witness_WinningBinIsInTheLowerHalf : (List.replicate 4096 fOne).length = 4096 ∧
    ∀ k, 0 < k → k < 2048 →
      (List.replicate 4096 fOne)[4096 - k]? = (List.replicate 4096 fOne)[k]? := by
  refine ⟨List.length_replicate, fun k h0 h1 => ?_⟩
  rw [List.getElem?_replicate, List.getElem?_replicate, if_pos (by omega), if_pos (by omega)]
theorem witness_NopChangesNothing :
    (0x00FFFFFF#32 : Word).toNat < 2 ^ 24 ∧ (0x00000001#32 : Word) ≠ 0x00000000#32 := by decide
/-- For `RresetEndsTheRamp`, `RsetStartsARampFromTheCurrentValue`, `RnextAdvancesTheRamp`. -/
theorem witness_RampCommands : session.lc = .prepared ∧
    ({ session with lc := .processing } : State).lc = .processing ∧ 0 ≤ 1 ∧ 1 ≤ 1 := by decide
theorem witness_RampReachesItsTargetExactly :
    let s : State := { session with opa := fOne, ramp1 := { Ramp.zero with len := 2#32 } }
    s.lc = .prepared ∧ 1 ≤ 1 ∧ feq s.opa (s.ramp 1).tgt = false ∧ (s.ramp 1).len ≠ 0#32 ∧
    1 < (s.ramp 1).len.toNat ∧ (s.ramp 1).len.toNat ≤ 2 := by
  decide
/-- For `AfreqAppliesThePitchFormula`, `OscnextReadsThenAdvances`. -/
theorem witness_OscillatorCommands : session.lc = .prepared ∧
    ({ session with sine := [(0, 0#32), (1, 0x3BC90F88#32)] } : State).sine.look
      (f2u (ffloor session.osc.phase)) = some 0#32 ∧
    ({ session with sine := [(0, 0#32), (1, 0x3BC90F88#32)] } : State).sine.look
      ((f2u (ffloor session.osc.phase) + 1) % 1024) = some 0x3BC90F88#32 := by decide +kernel
theorem witness_PhaseStaysInRange :
    ∃ t, exec .oscnext session = .next t ∧ t.lc = .processing ∧ t.faults = session.faults :=
  ⟨_, rfl, rfl, rfl⟩
theorem witness_PmodIsTheFlooredModulo : 2 ≤ 2 ∧ 65536 ≤ 65536 ∧ isFinite 0x7F800000#32 = false ∧
    isFinite 0xBF000000#32 = true ∧ phaseInRange 4 0x40600000#32 = true ∧
    fSign 0x40600000#32 = false ∧
    units 0x40600000#32 = units 0xBF000000#32 % ((4 * 2 ^ 149 : Nat) : Int) := by decide +kernel
/-- For `SampleRunsTheFourSteps`, `SamplesAreTheStepsOfTheStream`, `GainstgScalesTheBlock`,
`ProcessRunsTheBlock`. -/
theorem witness_BlockCommands : session.lc = .prepared ∧ 0 ≤ session.mb.toNat ∧
    8192 ≤ session.mb.toNat ∧ session.mb.toNat ≤ 8192 ∧ session.race = [] ∧
    Memory.look [(0, fOne)] 0 = some fOne := by decide
theorem witness_GainSettlesInOneBlock :
    ∃ t u, 0 < 1 ∧ isNaN session.snap.gainOut = false ∧ session.lc = .prepared ∧
      1 ≤ session.mb.toNat ∧ exec (.gainstg 1) session = .next t ∧
      exec (.gainstg 1) t = .next u ∧ (t.buf.look 0).isSome = true :=
  ⟨_, _, by decide, by decide, rfl, by decide, rfl, rfl, rfl⟩
/-- A `PROCESS` of one channel runs in a session. -/
theorem process_runs (s : State) (n : Nat) (hs : s.inSession = true) (hn : n ≤ s.mb.toNat) :
    ∃ t, exec (.process 1 n) s = .next t ∧ t.lc = .processing ∧ t.faults = s.faults ∧
      t.mb = s.mb := by
  refine ⟨processBlock cfg 1 n { s with lc := .processing }, ?_, ?_, ?_, ?_⟩
  · rw [exec_process, streaming_run hs]
    rw [Bool.and_eq_true, channelsInRange_iff, lenInRange_iff, cfg_nchmax]
    exact ⟨by decide, hn⟩
  all_goals rw [processBlock_frame]
theorem witness_BlockBoundariesAreInvisible :
    let b : Memory := [(0, fOne), (1, fOne)]
    (∀ i, i < [fOne].length → b.look i = [fOne][i]?) ∧
    (∀ i, i < [fOne, fOne].length → b.look i = [fOne, fOne][i]?) ∧ session.race = [] ∧
    1 + 1 ≤ session.mb.toNat ∧ session.mb.toNat ≤ 8192 ∧
    ∃ t1 t2 u, exec (.process 1 1) { session with buf := b } = .next t1 ∧
      exec (.process 1 1) { t1 with buf := b } = .next t2 ∧
      exec (.process 1 2) { session with buf := b } = .next u := by
  obtain ⟨t1, h1, hl, -, hm⟩ :=
    process_runs { session with buf := [(0, fOne), (1, fOne)] } 1 rfl (by decide)
  obtain ⟨t2, h2, -⟩ := process_runs { t1 with buf := [(0, fOne), (1, fOne)] } 1
    (by show t1.inSession = true; unfold State.inSession; rw [hl])
    (by show 1 ≤ t1.mb.toNat; rw [hm]; decide)
  obtain ⟨u, h3, -⟩ :=
    process_runs { session with buf := [(0, fOne), (1, fOne)] } 2 rfl (by decide)
  exact ⟨by decide, by decide, rfl, by decide, by decide, t1, t2, u, h1, h2, h3⟩
theorem witness_ControlWritesAfterTheLatchDoNotReachTheBlock :
    let s : State := { session with race := [[], [], [], [], [.write 0 fOne]] }
    5 ≤ s.race.length ∧ ∃ t, exec (.process 1 1) s = .next t ∧ t.lc = .processing ∧
      t.faults = s.faults := by
  obtain ⟨t, h, hl, hf, -⟩ := process_runs
    { session with race := [[], [], [], [], [.write 0 fOne]] } 1 rfl (by decide)
  exact ⟨by decide, t, h, hl, hf⟩
theorem witness_CommandsWriteOnlyWhatTheyOwn :
    (∃ t, exec .latch session = .next t) ∧
    (∃ t, exec (.rnext 2) session = .next t ∧ t.faults ≠ session.faults) ∧ session.race = [] ∧
    writesRes .latch = false ∧ latches .push = false := by
  refine ⟨⟨_, rfl⟩, ⟨recordFault .badoper (encode (.rnext 2)) session, rfl, by decide⟩, rfl, rfl,
    rfl⟩
theorem witness_SessionConstantsAreKept :
    let s : State := { session with
      ramp0 := { Ramp.zero with len := f2uFloorSat (fmul 0x3CCCCCCD#32 session.sr) }
      ramp1 := { Ramp.zero with len := f2uFloorSat (fmul 0x3BA3D70A#32 session.sr) } }
    (Instr.rreset 1).isStreaming = true ∧ (∃ t, exec (.rreset 1) s = .next t) ∧
    s.ramp0.len = f2uFloorSat (fmul 0x3CCCCCCD#32 s.sr) ∧
    s.ramp1.len = f2uFloorSat (fmul 0x3BA3D70A#32 s.sr) := ⟨rfl, ⟨_, rfl⟩, rfl, rfl⟩
/-- The invariant holds with a session open: after a `PREPARE` of the configured state. -/
theorem witness_EveryStepKeepsTheInvariant : Inv cfg (prepareEffect cfg configured) ∧
    (prepareEffect cfg configured).inSession = true ∧
    ∃ t, step (prepareEffect cfg configured) = .next t := by
  have hs : latchedSnapshot configured =
      { gainOut := 0#32, fbGain := 0#32, offset := 0#32, tol := 0#32, detune := 0#32 } := by
    decide +kernel
  have bound : ∀ (n m : Nat) (f : Nat → Word), n ≤ m → ∀ p ∈ Memory.ofTable n f, p.1 < m :=
    fun n m f h p hp => lt_of_lt_of_le (Memory.mem_ofTable hp) h
  refine ⟨⟨by rw [prepareEffect_busy]; rfl, by rw [prepareEffect_race]; rfl, ?_, ?_, ?_,
    fun _ => ?_⟩, by simp [State.inSession], ?_⟩
  · rw [prepareEffect_faults]
    exact .inl ⟨rfl, rfl, fun k => by cases k <;> rfl⟩
  · refine ⟨?_, ?_, ?_, ?_, ?_⟩
    · have e : (prepareEffect cfg configured).an.fifo = Memory.ofTable cfg.n (fun _ => fZero) := by
        rw [prepareEffect_an]
      rw [e]; exact ⟨Memory.wf_ofTable _ _, bound _ _ _ (le_refl _)⟩
    · have e : (prepareEffect cfg configured).an.work =
          Memory.ofTable (2 * cfg.n) (fun _ => fZero) := by
        rw [prepareEffect_an]
      rw [e]; exact ⟨Memory.wf_ofTable _ _, bound _ _ _ (le_refl _)⟩
    · rw [prepareEffect_hann]; exact ⟨Memory.wf_ofTable _ _, bound _ _ _ (le_refl _)⟩
    · rw [prepareEffect_sine]; exact ⟨Memory.wf_ofTable _ _, bound _ _ _ (le_refl _)⟩
    · rw [prepareEffect_buf]; exact ⟨List.Pairwise.nil, fun p hp => by cases hp⟩
  · rw [prepareEffect_an]; exact Nat.two_pow_pos _
  · have hn : 0 < cfg.n := by rw [cfg_n]; decide
    constructor
    · rw [prepareEffect_sr]; decide
    · rw [prepareEffect_sr]; decide
    · rw [prepareEffect_mb]; decide
    · rw [prepareEffect_mb, cfg_bufcap]; decide
    · rw [prepareEffect_snap, hs]; decide
    · rw [prepareEffect_an]; exact hn
    · intro i hi; rw [prepareEffect_an]; dsimp only; rw [Memory.look_ofTable _ hi]; rfl
    · intro i hi; rw [prepareEffect_an]; dsimp only; rw [Memory.look_ofTable _ (by omega)]; rfl
    · left; rw [prepareEffect_an]
    · rw [prepareEffect_hann]
    · rw [prepareEffect_sine]
    · rw [prepareEffect_ramp0, prepareEffect_sr]; exact ⟨by decide, fun _ => .inl (by decide), rfl⟩
    · rw [prepareEffect_ramp1, prepareEffect_sr]; exact ⟨by decide, fun _ => .inl (by decide), rfl⟩
    · rw [prepareEffect_osc, cfg_t]; decide +kernel
    · rw [prepareEffect_gain, hs]; decide
    · rw [prepareEffect_gain, hs]; decide
  · have hp : (prepareEffect cfg configured).pending = [] := by rw [prepareEffect_pending]; rfl
    exact ⟨prepareEffect cfg configured, by unfold step stepFor performNext; rw [hp]⟩
theorem witness_EveryStepCompletes : State.reset.pending = [] := rfl
theorem witness_HostReadHasNoSideEffect :
    (withEvent (.hostRead 2#19) session).pending = .hostRead 2#19 :: [] ∧
    elemContent cfg session (hostElem cfg (2#19 : HostAddr).toNat) = some session.opa := ⟨rfl, rfl⟩
theorem witness_RegisterMapContents : session.lc = .prepared ∧ 4095 < 4096 ∧ 1023 < 1024 ∧
    16383 < 16384 ∧ (0x0D ≤ 0x0F ∧ 0x0F < 0x10) ∧ (0x3D ≤ 0xFFFF ∧ 0xFFFF < 0x10000) ∧
    (0x11000 ≤ 0x1FFFF ∧ 0x1FFFF < 0x20000) ∧ (0x20400 ≤ 0x20400 ∧ 0x20400 < 0x30000) ∧
    (0x31000 ≤ 0x31000 ∧ 0x31000 < 0x40000) ∧ 0x44000 ≤ 0x44000 := by decide
theorem witness_UnspecifiedReadsAreFreshDraws :
    (withEvent (.hostRead 0x20#19) State.reset).pending = .hostRead 0x20#19 :: [] ∧
    State.reset.lc = .uninitialized ∧ 0x20 ≤ (0x20#19 : HostAddr).toNat ∧
    (0x3C#19 : HostAddr).toNat ≤ 0x3C ∧ (0x10FFF#19 : HostAddr).toNat < 0x11000 ∧
    (0x203FF#19 : HostAddr).toNat < 0x20400 ∧ (0x30FFF#19 : HostAddr).toNat < 0x31000 := by decide
theorem witness_WriteThenReadBack :
    ({ session with pending := [.hostWrite 2#19 fOne {}, .hostRead 2#19] } : State).pending =
      .hostWrite 2#19 fOne {} :: .hostRead 2#19 :: [] ∧
    (2#19 : HostAddr).toNat = 2 ∧ (4#19 : HostAddr).toNat = 4 ∧ (5#19 : HostAddr).toNat = 5 ∧
    0x10 ≤ (0x10#19 : HostAddr).toNat ∧ (0x14#19 : HostAddr).toNat ≤ 0x14 ∧
    0x40000 ≤ (0x40000#19 : HostAddr).toNat ∧ (0x43FFF#19 : HostAddr).toNat < 0x44000 := by decide
theorem witness_ReadOnlyAndUnmappedWritesAreIgnored :
    (withEvent (.hostWrite 0x44000#19 fOne {}) session).pending =
      .hostWrite 0x44000#19 fOne {} :: [] ∧
    ∀ a ∈ [1, 3, 0x0F, 0x15, 0x3FFFF, 0x44000], a ≠ 0 ∧ a ≠ 2 ∧ a ≠ 4 ∧ a ≠ 5 ∧
      ¬ (0x10 ≤ a ∧ a ≤ 0x14) ∧ ¬ (0x40000 ≤ a ∧ a < 0x44000) := by decide
theorem witness_ControlPortReachesOnlyTheCells :
    (withEvent (.ctl (.write 4 fOne)) session).pending = .ctl (.write 4 fOne) :: [] ∧
    (withEvent (.ctl (.read 5)) session).pending = .ctl (.read 5) :: [] ∧ 4 < 5 ∧ 5 ≤ 5 := by decide
theorem witness_BusWrapperRefusesOtherAccesses :
    (withEvent (.busWrite 4#21 2 fOne {}) session).pending = .busWrite 4#21 2 fOne {} :: [] ∧
    (withEvent (.busRead 5#21 4) session).pending = .busRead 5#21 4 :: [] ∧ 2 ≠ 4 ∧
    (5#21 : ByteAddr).toNat % 4 ≠ 0 ∧ (0x1FFFFC#21 : ByteAddr).toNat % 4 = 0 ∧
    (withEvent (.busWrite 8#21 4 fOne {}) session).pending = .busWrite 8#21 4 fOne {} :: [] ∧
    (withEvent (.busRead 8#21 4) session).pending = .busRead 8#21 4 :: [] := by decide
theorem witness_ResetFromAnyState : (withEvent .reset session).pending = .reset :: [] := rfl

end Sys2Proof.Tests
end

section
/-! PROOFS. The scope's functions (`spec/00_scope.md`): the transform (R14), the tables (R11 to R13), `PMOD`
(R10), the clamps (R15), and the step of a command with no other agent acting (R17). -/

namespace Sys2Proof.Scope

open Sys2Proof.Machine Sys2Proof.Safety

/-! ## Quarter turns -/

theorem quarterCos_mod (i : Nat) : quarterCos (i % 4) = quarterCos i := by
  simp only [quarterCos, Nat.mod_mod]

theorem quarterSin_mod (i : Nat) : quarterSin (i % 4) = quarterSin i := by
  simp only [quarterSin, Nat.mod_mod]

/-- At every half turn the cosine alternates and the sine is 0. -/
theorem quarter_double (i : Nat) : quarterCos (2 * i) = (-1) ^ i ∧ quarterSin (2 * i) = 0 := by
  rcases Nat.even_or_odd i with h | h
  · have hm : 2 * i % 4 = 0 := by obtain ⟨j, rfl⟩ := h; omega
    simp [quarterCos, quarterSin, hm, h.neg_one_pow]
  · have hm : 2 * i % 4 = 2 := by obtain ⟨j, rfl⟩ := h; omega
    simp [quarterCos, quarterSin, hm, h.neg_one_pow]

theorem turn_mod (p d m : Nat) : turn p d (m % d) = turn p d m := by
  simp only [turn, Nat.mod_mod]

/-- The start of the turn is exact for every number of steps. -/
theorem turn_zero (p d : Nat) : turn p d 0 = (2 ^ p, 0) := by
  simp [turn]

/-- A multiple of a quarter turn is exact (R11). -/
theorem turn_quarter (p j : Nat) {q : Nat} (hq : 0 < q) :
    turn p (4 * q) (q * j) = (quarterCos j * 2 ^ p, quarterSin j * 2 ^ p) := by
  have hm : 4 * (q * j % (4 * q)) = j % 4 * (4 * q) := by
    rw [Nat.mul_comm 4 q, Nat.mul_mod_mul_left]; ring
  have hr : j % 4 * (4 * q) % (4 * q) = 0 := Nat.mul_mod_left _ _
  have hd : j % 4 * (4 * q) / (4 * q) = j % 4 := Nat.mul_div_cancel _ (by omega)
  unfold turn
  simp only [hm, hr, hd, if_true]
  have hj : j % 4 < 4 := Nat.mod_lt _ (by norm_num)
  rw [← quarterCos_mod j, ← quarterSin_mod j]
  interval_cases j % 4 <;> simp [quarterCos, quarterSin]

theorem turnTable_getD (p : Nat) {n m : Nat} (h : m < n) :
    (turnTable p n).getD m (0, 0) = turn p n m := by
  simp [turnTable, h]

/-! ## The sums of a bin -/

/-- The sums of silence are 0, whatever the table. -/
theorem dftSums_silent (trig : Array (Int × Int)) (n k : Nat) {ys : List Int} (h : ∀ y ∈ ys, y = 0)
    (i : Nat) : dftSums trig n k i ys = (0, 0, 0) := by
  induction ys generalizing i with
  | nil => rfl
  | cons y ys ih =>
    obtain ⟨hy, hys⟩ := List.forall_mem_cons.1 h
    simp [dftSums, hy, ih hys]

/-- The sums of an impulse at sample 0 are the impulse, in every bin: the angle of sample 0 is 0. -/
theorem dftSums_impulse (p k : Nat) {n : Nat} (hn : 0 < n) (y : Int) {ys : List Int}
    (h : ∀ y ∈ ys, y = 0) : dftSums (turnTable p n) n k 0 (y :: ys) = (y * 2 ^ p, 0 * 2 ^ p, 0) := by
  simp only [dftSums, dftSums_silent _ _ _ h, Nat.mul_zero, Nat.zero_mod, turnTable_getD p hn,
    turn_zero]
  simp

/-- In a bin at a multiple of a quarter of the sample rate every table entry is exact, and the sums are
those with the quarter-turn weights. -/
theorem dftSums_quarter (p a : Nat) {q : Nat} (hq : 0 < q) (ys : List Int) (i : Nat) :
    dftSums (turnTable p (4 * q)) (4 * q) (q * a) i ys =
      ((∑ j ∈ Finset.range ys.length, quarterCos (a * (i + j)) * ys.getD j 0) * 2 ^ p,
       (∑ j ∈ Finset.range ys.length, quarterSin (a * (i + j)) * ys.getD j 0) * 2 ^ p, 0) := by
  induction ys generalizing i with
  | nil => simp [dftSums]
  | cons y ys ih =>
    have hlt : q * a * i % (4 * q) < 4 * q := Nat.mod_lt _ (by omega)
    have hcs : (turnTable p (4 * q)).getD (q * a * i % (4 * q)) (0, 0) =
        (quarterCos (a * i) * 2 ^ p, quarterSin (a * i) * 2 ^ p) := by
      rw [turnTable_getD p hlt, turn_mod, Nat.mul_assoc, turn_quarter p _ hq]
    have hexact : 4 * (q * a * i % (4 * q)) % (4 * q) = 0 := by
      rw [Nat.mul_mod_mul_left, Nat.mul_assoc, Nat.mul_comm 4 q, Nat.mul_mod_mul_left,
        Nat.mul_mod_right]
    simp only [dftSums, hcs, hexact, ih, if_true, List.length_cons, Finset.sum_range_succ',
      List.getD_cons_succ, List.getD_cons_zero, Nat.add_zero,
      Nat.add_right_comm i 1, Nat.add_assoc i _ 1]
    refine Prod.ext ?_ (Prod.ext ?_ rfl) <;> simp only <;> ring

/-! ## The magnitude of a bin -/

theorem binMag_le (n k : Nat) (ys : List Int) (fuel p : Nat) (trig : Array (Int × Int)) :
    binMag n k ys fuel p trig ≤ infMag := by
  induction fuel generalizing p trig with
  | zero =>
    unfold binMag
    simp only []
    split <;> exact roundSqrt_le _ _
  | succ fuel ih =>
    unfold binMag
    simp only []
    split
    · exact roundSqrt_le _ _
    · exact ih _ _

/-- Where the sums are exact, both ends of the interval are, and the first precision decides. -/
theorem binMag_of_exact {n k p : Nat} {ys : List Int} {trig : Array (Int × Int)} {a b : Int}
    (h : dftSums trig n k 0 ys = (a * 2 ^ p, b * 2 ^ p, 0)) (fuel : Nat) :
    binMag n k ys fuel p trig = roundSqrt p ((a.natAbs ^ 2 + b.natAbs ^ 2) * 4 ^ p) := by
  have abs_shift : ∀ x : Int, (x * 2 ^ p).natAbs = x.natAbs * 2 ^ p := fun x => by
    simp [Int.natAbs_mul, Int.natAbs_pow]
  have square : ∀ x : Nat, x * 2 ^ p * (x * 2 ^ p) = x ^ 2 * 4 ^ p := fun x => by
    rw [show (4 : Nat) = 2 * 2 by norm_num, Nat.mul_pow]; ring
  have ends : binEnds trig p n k ys =
      (roundSqrt p ((a.natAbs ^ 2 + b.natAbs ^ 2) * 4 ^ p),
       roundSqrt p ((a.natAbs ^ 2 + b.natAbs ^ 2) * 4 ^ p)) := by
    simp only [binEnds, h, abs_shift, Nat.mul_zero, Nat.sub_zero, Nat.add_zero, square,
      ← Nat.add_mul]
  cases fuel <;> simp [binMag, ends]

/-- Where the sums are exact the bin is the rounded magnitude of their complex number. -/
theorem binMag_nearest {n k p : Nat} {ys : List Int} {trig : Array (Int × Int)} {a b : Int}
    (h : dftSums trig n k 0 ys = (a * 2 ^ p, b * 2 ^ p, 0)) (fuel : Nat) :
    NearestRoot (packF false (binMag n k ys fuel p trig)) (a ^ 2 + b ^ 2) := by
  have root := roundSqrt_nearest p (a.natAbs ^ 2 + b.natAbs ^ 2)
  push_cast at root
  rwa [sq_abs, sq_abs, ← binMag_of_exact h fuel] at root

/-! ## The rounded root of a square -/

/-- A finite magnitude is a whole number of the units of its binade. -/
theorem two_pow_binade_dvd (m : Nat) : 2 ^ binade (magUnits m) ∣ magUnits m := by
  rcases Nat.lt_or_ge (magUnits m) (2 ^ 24) with h | h
  · rw [binade_small h, pow_zero]; exact one_dvd _
  · exact magUnits_dvd (binade_spec h).1

/-- The rounded root of the square of a finite value is its magnitude. -/
theorem roundSqrt_sq (p : Nat) {m : Nat} (h : m < infMag) :
    roundSqrt p (magUnits m ^ 2 * 4 ^ p) = m := by
  have hround := roundMag_magUnits h
  have hdvd := two_pow_binade_dvd m
  rw [roundMag_one] at hround
  rw [roundSqrt_eq]
  generalize magUnits m = u at *
  have hp : 0 < 2 ^ binade u := Nat.two_pow_pos _
  have hnear : divNearest u (2 ^ binade u) = u / 2 ^ binade u := by
    simp [divNearest, Nat.mod_eq_zero_of_dvd hdvd]
  have hlow : 4 * u ^ 2 < ((2 * (u / 2 ^ binade u) + 1) * 2 ^ binade u) ^ 2 := by
    have hu := Nat.div_mul_cancel hdvd
    calc 4 * u ^ 2 = (2 * u) ^ 2 := by ring
      _ < (2 * u + 2 ^ binade u) ^ 2 := Nat.pow_lt_pow_left (by omega) (by norm_num)
      _ = _ := by rw [Nat.add_mul, Nat.mul_assoc, hu, Nat.one_mul]
  simp only [Nat.sqrt_eq', if_pos hlow]
  rw [← hnear, hround]

theorem natAbs_units (w : Word) : (units w).natAbs = magUnits (fMag w) := by
  unfold units
  split <;> simp

theorem units_of_fMag_zero {w : Word} (h : fMag w = 0) : units w = 0 := by
  rw [← Int.natAbs_eq_zero, natAbs_units, h]
  rfl

/-! ## The spectrum -/

/-- Bin `k` of a spectrum: computed up to the middle, a copy of its mirror above it (R14 P3). -/
theorem fftMag_getElem? (ys : List Word) {n k : Nat} (h : k < n) :
    (fftMag n ys)[k]? = some ((fftHalf n ys).getD (if k ≤ n / 2 then k else n - k) fZero) := by
  simp [fftMag, h]

theorem fftMag_mirror (ys : List Word) {n k : Nat} (h0 : 0 < k) (h1 : 2 * k < n) :
    (fftMag n ys)[n - k]? = (fftMag n ys)[k]? := by
  rw [fftMag_getElem? ys (by omega), fftMag_getElem? ys (by omega), if_neg (by omega),
    if_pos (by omega), Nat.sub_sub_self (by omega)]

/-- The bin of a finite frame, as it is computed. -/
theorem fftHalf_getD {ys : List Word} (hys : ∀ y ∈ ys, isFinite y = true) {n k : Nat}
    (h : k ≤ n / 2) : (fftHalf n ys).getD k fZero =
      packF false (binMag n k (ys.map units) binFuel 64 (turnTable 64 n)) := by
  have hk : k < n / 2 + 1 := by omega
  simp [fftHalf, List.all_eq_true.2 hys, hk]

/-- Every bin of the spectrum of a finite frame is computed for some `k` up to the middle. -/
theorem mem_fftMag {ys : List Word} (hys : ∀ y ∈ ys, isFinite y = true) {n : Nat} {v : Word}
    (h : v ∈ fftMag n ys) :
    ∃ k, v = packF false (binMag n k (ys.map units) binFuel 64 (turnTable 64 n)) := by
  obtain ⟨k, hk⟩ := List.mem_iff_getElem?.1 h
  have hlt : k < n := by
    have := (List.getElem?_eq_some_iff.1 hk).1
    rwa [fftMag_length] at this
  rw [fftMag_getElem? ys hlt, Option.some.injEq] at hk
  have hhalf : (if k ≤ n / 2 then k else n - k) ≤ n / 2 := by split <;> omega
  exact ⟨_, by rw [← hk, fftHalf_getD hys hhalf]⟩

/-- Bin `a N / 4` of a finite frame is the rounded magnitude of the sums with the quarter-turn
weights. -/
theorem fftMag_quarter_bin {ys : List Word} (hys : ∀ y ∈ ys, isFinite y = true) {q : Nat} (hq : 0 < q)
    {a : Nat} (ha : a ≤ 2) : ∃ v, (fftMag (4 * q) ys)[q * a]? = some v ∧
      NearestRoot v
        ((∑ j ∈ Finset.range ys.length, quarterCos (a * j) * units (ys.getD j 0#32)) ^ 2 +
         (∑ j ∈ Finset.range ys.length, quarterSin (a * j) * units (ys.getD j 0#32)) ^ 2) := by
  have hle : q * a ≤ 4 * q / 2 := by
    rw [show 4 * q / 2 = q * 2 by omega]; exact Nat.mul_le_mul_left q ha
  have hsums := dftSums_quarter 64 a hq (ys.map units) 0
  have hget : ∀ j, (ys.map units).getD j 0 = units (ys.getD j 0#32) := fun j =>
    List.getD_map ys 0#32 units
  simp only [List.length_map, hget, Nat.zero_add] at hsums
  refine ⟨_, fftMag_getElem? ys (by omega), ?_⟩
  rw [if_pos hle, fftHalf_getD hys hle]
  exact binMag_nearest hsums binFuel

/-- P2 of R14. -/
theorem fftMag_nonneg {ys : List Word} (hys : ∀ y ∈ ys, isFinite y = true) {n : Nat} {v : Word}
    (h : v ∈ fftMag n ys) : isNaN v = false ∧ fSign v = false := by
  obtain ⟨k, rfl⟩ := mem_fftMag hys h
  exact ⟨isNaN_packF (binMag_le _ _ _ _ _ _), fSign_packF _ _⟩

theorem isFinite_of_fMag_zero {w : Word} (h : fMag w = 0) : isFinite w = true := by
  simp [isFinite, h, infMag]

theorem units_map_zero {ys : List Word} (h : ∀ y ∈ ys, fMag y = 0) : ∀ u ∈ ys.map units, u = 0 := by
  intro u hu
  obtain ⟨y, hy, rfl⟩ := List.mem_map.1 hu
  exact units_of_fMag_zero (h y hy)

/-- P1 of R14. -/
theorem fftMag_silent {ys : List Word} (hys : ∀ y ∈ ys, fMag y = 0) {n : Nat} {v : Word}
    (h : v ∈ fftMag n ys) : v = 0#32 := by
  obtain ⟨k, rfl⟩ := mem_fftMag (fun y hy => isFinite_of_fMag_zero (hys y hy)) h
  have hsums : dftSums (turnTable 64 n) n k 0 (ys.map units) = (0 * 2 ^ 64, 0 * 2 ^ 64, 0) := by
    rw [dftSums_silent _ n k (units_map_zero hys), Int.zero_mul]
  have hroot : roundSqrt 64 (((0 : Int).natAbs ^ 2 + (0 : Int).natAbs ^ 2) * 4 ^ 64) = 0 :=
    roundSqrt_sq 64 (m := 0) (by decide)
  rw [binMag_of_exact hsums, hroot]
  rfl

/-- A frame whose only sample that is not zero is sample 0 has the magnitude of that sample in every
bin. -/
theorem fftMag_impulse {y : Word} {ys : List Word} (hy : isFinite y = true)
    (hys : ∀ x ∈ ys, fMag x = 0) {n : Nat} {v : Word} (h : v ∈ fftMag n (y :: ys)) :
    v = packF false (fMag y) := by
  have hfin : ∀ x ∈ y :: ys, isFinite x = true :=
    List.forall_mem_cons.2 ⟨hy, fun x hx => isFinite_of_fMag_zero (hys x hx)⟩
  have hn : 0 < n := by
    rw [← fftMag_length n (y :: ys)]; exact List.length_pos_of_mem h
  obtain ⟨k, rfl⟩ := mem_fftMag hfin h
  have hmag : fMag y < infMag := by simpa [isFinite] using hy
  rw [List.map_cons, binMag_of_exact (dftSums_impulse 64 k hn (units y) (units_map_zero hys)),
    natAbs_units, Int.natAbs_zero, Nat.zero_pow two_pos, Nat.add_zero, roundSqrt_sq 64 hmag]

/-- Bins 0, `N/4` and `N/2` of a finite frame of 4096 samples: the quarter-turn weights are all 1, those
of a quarter turn each sample, and alternating signs. -/
theorem fftMag_exact_bins {ys : List Word} (hys : ∀ y ∈ ys, isFinite y = true)
    (hlen : ys.length = 4096) :
    ∃ v0 v1 v2 : Word, (fftMag 4096 ys)[0]? = some v0 ∧ (fftMag 4096 ys)[1024]? = some v1 ∧
      (fftMag 4096 ys)[2048]? = some v2 ∧
      NearestRoot v0 (weightedSum (fun _ => 1) ys ^ 2) ∧
      NearestRoot v1 (weightedSum quarterCos ys ^ 2 + weightedSum quarterSin ys ^ 2) ∧
      NearestRoot v2 (weightedSum (fun i => (-1) ^ i) ys ^ 2) := by
  have bin := fun a (ha : a ≤ 2) => fftMag_quarter_bin hys (q := 1024) (by norm_num) ha
  simp only [hlen] at bin
  obtain ⟨v0, h0, r0⟩ := bin 0 (by norm_num)
  obtain ⟨v1, h1, r1⟩ := bin 1 (by norm_num)
  obtain ⟨v2, h2, r2⟩ := bin 2 (by norm_num)
  refine ⟨v0, v1, v2, h0, h1, h2, ?_, ?_, ?_⟩
  · simpa [weightedSum, quarterCos, quarterSin] using r0
  · simpa only [weightedSum, Nat.one_mul] using r1
  · simpa [weightedSum, quarter_double] using r2

/-- Settles O26: the mirrored bins are read from one list (R14 P3). -/
theorem spectrumIsMirrored : Obligations.SpectrumIsMirrored := by
  unfold Obligations.SpectrumIsMirrored
  rw [cfg_fftmag]
  exact fun ys => ⟨fftMag_length _ _, fun k h0 h1 => fftMag_mirror ys h0 (by omega)⟩

/-- Settles O27: P1 and P2 from the rounded root, the exact bins and the impulse from the table entries
that need no accuracy of a sine (R14). -/
theorem spectrumOfAFiniteFrame : Obligations.SpectrumOfAFiniteFrame := by
  unfold Obligations.SpectrumOfAFiniteFrame
  rw [cfg_fftmag]
  refine fun ys hfin => ⟨fun v hv => fftMag_nonneg hfin hv,
    fun hzero v hv => fftMag_silent hzero hv,
    fun hlen => ⟨fftMag_exact_bins hfin hlen, fun hzero v hv => ?_⟩⟩
  cases ys with
  | nil => simp at hlen
  | cons y ys =>
    refine fftMag_impulse (hfin y List.mem_cons_self) (fun x hx => ?_) hv
    obtain ⟨i, hi, rfl⟩ := List.mem_iff_getElem.1 hx
    rw [List.length_cons] at hlen
    simpa [hi] using hzero (i + 1) (by omega) (by omega)

/-! ## `PMOD` -/

/-- The exact remainder of a finite value modulo `t`, in units (R10). -/
def remUnits (t : Nat) (v : Word) : Nat := (units v % ((t * unitsPerOne : Nat) : Int)).toNat

theorem period_pos {t : Nat} (ht : 0 < t) : 0 < t * unitsPerOne :=
  Nat.mul_pos ht (Nat.two_pow_pos _)

theorem remUnits_eq {t : Nat} (ht : 0 < t) (v : Word) :
    (remUnits t v : Int) = units v % ((t * unitsPerOne : Nat) : Int) :=
  Int.toNat_of_nonneg (Int.emod_nonneg _ (by exact_mod_cast (period_pos ht).ne'))

theorem remUnits_lt {t : Nat} (ht : 0 < t) (v : Word) : remUnits t v < t * unitsPerOne := by
  have h := Int.emod_lt_of_pos (units v) (Int.natCast_pos.2 (period_pos ht))
  rw [← remUnits_eq ht v] at h
  exact_mod_cast h

theorem pmod_nonfinite (t : Nat) {v : Word} (h : isFinite v = false) : pmod t v = 0#32 := by
  simp [pmod, h, fZero]

theorem pmod_finite (t : Nat) {v : Word} (h : isFinite v = true) :
    pmod t v = if packF false (roundMag (remUnits t v) 1) = u2f t then 0#32
      else packF false (roundMag (remUnits t v) 1) := by
  simp [pmod, h, remUnits, fZero]

theorem roundMag_remUnits_lt {t : Nat} (ht : 0 < t) (ht' : t ≤ 65536) (v : Word) :
    roundMag (remUnits t v) 1 < infMag :=
  (roundMag_mono (remUnits_lt ht v).le).trans_lt (u2f_lt_inf ht')

theorem packF_even {neg : Bool} {m : Nat} (h : m < 2 ^ 31) (he : m % 2 = 0) :
    (packF neg m).getLsbD 0 = false := by
  rw [BitVec.getLsbD, packF_toNat neg h]
  cases neg <;> simp [Nat.testBit_zero] <;> omega

/-- A rounded number of units is the nearest value of `F`, an even pattern on a tie (R8). -/
theorem packF_roundMag_nearest {r : Nat} (h : roundMag r 1 < infMag) (q : Word) :
    |units (packF false (roundMag r 1)) - r| ≤ |units q - r| ∧
    (|units (packF false (roundMag r 1)) - r| = |units q - r| →
      units q = units (packF false (roundMag r 1)) ∨
        (packF false (roundMag r 1)).getLsbD 0 = false) := by
  rw [units_packF_false (roundMag_lt r 1)]
  obtain ⟨hle, htie⟩ := roundMag_nearest h q
  exact ⟨hle, fun e => (htie e).imp_right (packF_even (roundMag_lt r 1))⟩

/-- Where the remainder is a value of `F` it is the result: nothing is rounded. -/
theorem pmod_of_exact {t : Nat} {v p : Word} (ht : 0 < t) (hv : isFinite v = true)
    (hp : phaseInRange t p = true) (hs : fSign p = false)
    (hr : units p = units v % ((t * unitsPerOne : Nat) : Int)) : pmod t v = p := by
  simp only [phaseInRange, Bool.and_eq_true] at hp
  obtain ⟨⟨hfin, -⟩, hlt⟩ := hp
  have hunits : remUnits t v = magUnits (fMag p) := by
    rw [← remUnits_eq ht] at hr
    simp only [units, hs, Bool.false_eq_true, if_false] at hr
    exact_mod_cast hr.symm
  have hround : packF false (roundMag (remUnits t v) 1) = p := by
    rw [hunits, roundMag_magUnits (by simpa [isFinite] using hfin), ← hs, packF_eta]
  have hne : p ≠ u2f t := by
    intro e
    rw [flt_iff, ← e] at hlt
    exact lt_irrefl _ hlt.2.2
  rw [pmod_finite t hv, hround, if_neg hne]

/-- Settles O38: `PMOD` rounds the exact remainder, which is below `t`, once (R10). -/
theorem pmodIsTheFlooredModulo : Obligations.PmodIsTheFlooredModulo := by
  unfold Obligations.PmodIsTheFlooredModulo
  intro t v h2 ht
  have hpos : 0 < t := by omega
  have hlt := roundMag_remUnits_lt hpos ht v
  refine ⟨pmod_inRange v h2 ht, pmod_nonfinite t, fun hv => ?_,
    fun p hv hp hs hr => pmod_of_exact hpos hv hp hs hr⟩
  refine ⟨remUnits t v, _, remUnits_eq hpos v, rfl, ?_,
    fun q _ => (packF_roundMag_nearest hlt q).1, fun q _ => (packF_roundMag_nearest hlt q).2,
    pmod_finite t hv⟩
  simpa only [isFinite, fMag_packF false (roundMag_lt _ 1), decide_eq_true_eq] using hlt

/-- Settles O37: an `OSCNEXT` in a session leaves the phase that `PMOD` gives; a refused one does not
leave the state in Processing (R162, R214). -/
theorem phaseStaysInRange : Obligations.PhaseStaysInRange := by
  unfold Obligations.PhaseStaysInRange
  intro s t h hlc _
  rw [exec_oscnext] at h
  rcases streaming_cases h with ⟨hs, rfl⟩ | ⟨-, hb, -⟩ | ⟨-, -, rfl⟩
  · rw [recordFault_lc] at hlc
    simp [State.inSession, hlc] at hs
  · cases hb
  · exact pmod_inRange _ (by norm_num) (by norm_num)

/-! ## The clamps -/

theorem clampF_of_nan {x : Word} (lo hi : Word) (h : isNaN x = true) : clampF x lo hi = 0#32 := by
  simp [clampF, h, fZero]

theorem clampF_below {x lo : Word} (hi : Word) (h : flt x lo = true) : clampF x lo hi = lo := by
  have hx := ((flt_iff x lo).1 h).1
  simp [clampF, hx, h]

theorem clampF_above {x lo hi : Word} (hlohi : flt hi lo = false) (h : flt hi x = true) :
    clampF x lo hi = hi := by
  obtain ⟨hhi, hx, hgt⟩ := (flt_iff hi x).1 h
  have hnlt : flt x lo = false := by
    by_contra hlt
    obtain ⟨-, hlo, hlt⟩ := (flt_iff x lo).1 (by simpa using hlt)
    have := (flt_iff hi lo).2 ⟨hhi, hlo, hgt.trans hlt⟩
    simp [this] at hlohi
  simp [clampF, fgt, hx, hnlt, h]

theorem clampF_within {x lo hi : Word} (h : between lo hi x = true) : clampF x lo hi = x := by
  simp only [between, Bool.and_eq_true, Bool.not_eq_true'] at h
  obtain ⟨⟨hx, hlo⟩, hhi⟩ := h
  simp [clampF, fgt, hx, hlo, hhi]

theorem clampI_toInt {x lo hi : Word} (h : lo.toInt ≤ hi.toInt) :
    (clampI x lo hi).toInt = max lo.toInt (min hi.toInt x.toInt) := by
  unfold clampI
  simp only [BitVec.slt_iff_toInt_lt]
  split_ifs <;> omega

/-- Settles O21: `clampF` by its four branches, `clampI` by its three (R15). -/
theorem clampGivesTheNearestBound : Obligations.ClampGivesTheNearestBound := by
  unfold Obligations.ClampGivesTheNearestBound
  exact ⟨fun x lo hi _ _ hlohi => ⟨clampF_of_nan lo hi, clampF_below hi, clampF_above hlohi,
    clampF_within⟩, fun x lo hi h => clampI_toInt h⟩

/-! ## The tables -/

theorem roundFixed_zero (p : Nat) : roundFixed p 0 = 0#32 := by
  have h : roundMag 0 (2 ^ p) = 0 := by simp [roundMag, binade, divNearest]
  simp [roundFixed, h]
  rfl

/-- The sine table at a multiple of a quarter of its length (R11). -/
theorem sinTable_quarter (j : Nat) {q : Nat} (hq : 0 < q) :
    sinTable (4 * q) (q * j) = roundFixed tableBits (quarterSin j * 2 ^ tableBits) := by
  rw [sinTable, turn_quarter tableBits j hq]

/-- The window is 0 at both ends (R12). -/
theorem hannTable_ends (n : Nat) : hannTable n 0 = 0#32 ∧ hannTable n (n - 1) = 0#32 := by
  have h : roundFixed (tableBits + 1) (2 ^ tableBits - (turn tableBits (n - 1) 0).1) = 0#32 := by
    rw [turn_zero, Int.sub_self, roundFixed_zero]
  constructor
  · rw [hannTable, Nat.zero_min, h]
  · rw [hannTable, Nat.sub_self, Nat.min_zero, h]

/-- Settles O60: the exact entries of the tables (R11 to R13). -/
theorem tableFixedPoints : Obligations.TableFixedPoints := by
  unfold Obligations.TableFixedPoints
  have quarter := fun j => sinTable_quarter j (q := 256) (by norm_num)
  have hzero : roundFixed tableBits (0 * 2 ^ tableBits) = 0#32 := by
    rw [Int.zero_mul, roundFixed_zero]
  have hone : roundFixed tableBits (1 * 2 ^ tableBits) = 0x3F800000#32 := by decide
  have hminus : roundFixed tableBits (-1 * 2 ^ tableBits) = 0xBF800000#32 := by decide
  rw [cfg_sintab, cfg_hanntab, cfg_semipow]
  exact ⟨(quarter 0).trans hzero, (quarter 1).trans hone, (quarter 2).trans hzero,
    (quarter 3).trans hminus, (hannTable_ends 4096).1, (hannTable_ends 4096).2, rfl, rfl, rfl⟩

/-! ## A command with no other agent acting -/

theorem withRamp_race (s : State) (r : Nat) (x : Ramp) : (s.withRamp r x).race = s.race := by
  unfold State.withRamp
  split <;> rfl

theorem releaseEffect_race (c : Cfg) (s : State) : (releaseEffect c s).race = s.race := by
  unfold releaseEffect
  split <;> rfl

theorem streaming_race {i : Instr} {b : Bool} {f : State → State} {s t : State}
    (hf : ∀ x, (f x).race = x.race ∨ (f x).race = x.race.drop 5)
    (h : streaming i b f s = .next t) : t.race = s.race ∨ t.race = s.race.drop 5 := by
  rcases streaming_cases h with ⟨-, rfl⟩ | ⟨-, -, rfl⟩ | ⟨-, -, rfl⟩
  · exact .inl rfl
  · exact .inl rfl
  · exact hf { s with lc := .processing }

/-- A command lets at most the five groups of its latch complete (R70, R181). -/
theorem exec_race {i : Instr} {s t : State} (h : exec i s = .next t) :
    t.race = s.race ∨ t.race = s.race.drop 5 := by
  cases i with
  | nop => cases h; exact .inl rfl
  | prepare =>
    rw [exec_prepare] at h
    split at h
    · cases h; exact .inr (prepareEffect_race cfg s)
    · cases h; exact .inl rfl
  | release => cases h; exact .inl (releaseEffect_race cfg s)
  | process nch len =>
    rw [exec_process] at h
    refine streaming_race (fun x => .inr ?_) h
    rw [processBlock_frame]
  | latch => exact streaming_race (fun x => .inr (latchParams_race x)) h
  | push =>
    rw [exec_push] at h
    refine streaming_race (fun x => .inl ?_) h
    rw [analyzerPush_frame]
  | estimate =>
    rw [exec_estimate] at h
    exact streaming_race (fun x => .inl (setRes_race _ x)) h
  | rreset r =>
    rw [exec_rreset] at h
    exact streaming_race (fun x => .inl (withRamp_race x r _)) h
  | rset r =>
    rw [exec_rset] at h
    exact streaming_race (fun x => .inl (withRamp_race x r _)) h
  | rnext r =>
    rw [exec_rnext] at h
    refine streaming_race (fun x => .inl ?_) h
    rw [setRes_race, withRamp_race]
  | afreq =>
    rw [exec_afreq] at h
    exact streaming_race (fun x => .inl (setRes_race _ x)) h
  | oscnext =>
    rw [exec_oscnext] at h
    refine streaming_race (fun x => .inl ?_) h
    rw [setRes_race, oscAdvance_race]
  | sample =>
    rw [exec_sample] at h
    refine streaming_race (fun x => .inl ?_) h
    rw [setRes_race, sampleStep_frame]
  | gainstg len =>
    rw [exec_gainstg] at h
    refine streaming_race (fun x => .inl ?_) h
    rw [(gainStage_spec len x).1]

/-- The step of a legal word written to `CMD` runs its command between the begin and the end of a
command (R67, R68). -/
theorem step_of_command {s t : State} {w : Word} {m : Meanwhile} {rest : List Event} {i : Instr}
    (hp : s.pending = .hostWrite 0#19 w m :: rest) (hd : decode w = .ok i)
    (h : exec i (beginCommand m { s with pending := rest }) = .next t) :
    step s = .next (endCommand m (beginCommand m { s with pending := rest }) t) := by
  have run : step s = runCommand cfg w m { s with pending := rest } := by
    simp only [step, stepFor, performNext, hp]
    rfl
  rw [run]
  simp only [runCommand, executeWord, hd, execFor_cfg, h]

/-- Settles O6: the end of a command that left no control operation drops `BUSY` only (R67, R68). -/
theorem commandStepWithoutOtherAgents : Obligations.CommandStepWithoutOtherAgents := by
  unfold Obligations.CommandStepWithoutOtherAgents
  intro s t w rest i hp hd _ h
  have hrace : t.race = [] := (exec_race h).elim id id
  rw [step_of_command hp hd h, endCommand_quiet _ t hrace]

end Sys2Proof.Scope
end

section
/-! PROOFS. The state (`spec/10_state.md`): what a command does and what it leaves unchanged (R44). -/

namespace Sys2Proof.StateProofs

open Sys2Proof.Machine Sys2Proof.Safety

/-! ## What a command does -/

/-- The operands of a command are in range (R94), for `PREPARE` its register arguments (R211). -/
def operandsOk : Instr → State → Bool
  | .prepare, s => prepareArgsOk cfg s
  | .process nch len, s => channelsInRange cfg nch && lenInRange s len
  | .rreset r, _ => rampInRange r
  | .rset r, _ => rampInRange r
  | .rnext r, _ => rampInRange r
  | .gainstg len, s => lenInRange s len
  | _, _ => true

/-- The command passes the checks of R92. -/
def admits (i : Instr) (s : State) : Bool := (!i.isStreaming || s.inSession) && operandsOk i s

/-- The fault of a command that does not pass the checks of R92. -/
def refusalCause : Instr → State → Cause
  | .prepare, _ => .pfail
  | _, s => if s.inSession then .badoper else .cviol

/-- The state in which a streaming command has its effect (R214). -/
def running (s : State) : State := { s with lc := .processing }

/-- The effect of a command, a streaming one in Processing. -/
def body : Instr → State → State
  | .nop, s => s
  | .prepare, s => prepareEffect cfg s
  | .release, s => releaseEffect cfg s
  | .process nch len, s => processBlock cfg nch len s
  | .latch, s => latchParams s
  | .push, s => analyzerPush cfg s.opa s
  | .estimate, s => setRes (estimate cfg s.snap.tol s) s
  | .rreset r, s => s.withRamp r (Ramp.reset (durOf cfg r) s.sr (s.ramp r))
  | .rset r, s => s.withRamp r (Ramp.setTarget s.opa (s.ramp r))
  | .rnext r, s => setRes (s.ramp r).next.cur (s.withRamp r (s.ramp r).next)
  | .afreq, s => setRes (appliedFreq cfg s.opa s) s
  | .oscnext, s => setRes (oscOutput cfg s) (oscAdvance cfg s.opa s)
  | .sample, s => setRes (sampleStep cfg s.opa s).2 (sampleStep cfg s.opa s).1
  | .gainstg len, s => gainStage len s

/-- What a command does once it has passed the checks of R92. -/
def effect (i : Instr) (s : State) : State := body i (if i.isStreaming then running s else s)

theorem rampInRange_cases {r : Nat} (h : rampInRange r = true) : r = 0 ∨ r = 1 := by
  have := (rampInRange_iff r).1 h
  omega

theorem operandsOk_running (i : Instr) (s : State) : operandsOk i (running s) = operandsOk i s := by
  cases i <;> rfl

theorem streaming_eq (i : Instr) (b : Bool) (f : State → State) (s : State) :
    streaming i b f s = .next (if (s.inSession && b) = true then f (running s)
      else recordFault (if s.inSession = true then .badoper else .cviol) (encode i) s) := by
  unfold streaming
  cases s.inSession <;> cases b <;> rfl

theorem exec_streaming {i : Instr} (h : i.isStreaming = true) (s : State) :
    exec i s = streaming i (operandsOk i s) (body i) s := by
  cases i with
  | nop | prepare | release => cases h
  | process | latch | push | estimate | rreset | rset | rnext | afreq | oscnext | sample
  | gainstg => rfl

theorem refusalCause_streaming {i : Instr} (h : i.isStreaming = true) (s : State) :
    refusalCause i s = if s.inSession = true then .badoper else .cviol := by
  cases i with
  | prepare => cases h
  | _ => rfl

/-- Every command answers a next state: its effect, or the state with the fault recorded (R92, R219). -/
theorem exec_eq (i : Instr) (s : State) : exec i s = .next (if admits i s = true then effect i s
    else recordFault (refusalCause i s) (encode i) s) := by
  cases h : i.isStreaming with
  | true =>
    rw [exec_streaming h, streaming_eq, admits, effect, h, refusalCause_streaming h]
    rfl
  | false =>
    cases i with
    | nop | release => rfl
    | prepare => rw [exec_prepare]; exact (apply_ite Host.Outcome.next _ _ _).symm
    | _ => cases h

theorem exec_cases {i : Instr} {s t : State} (h : exec i s = .next t) :
    (admits i s = true ∧ t = effect i s) ∨ ∃ k, t = recordFault k (encode i) s := by
  rw [exec_eq, Host.Outcome.next.injEq] at h
  split at h
  · next ha => exact .inl ⟨ha, h.symm⟩
  · exact .inr ⟨_, h.symm⟩

theorem exec_of_admits {i : Instr} {s : State} (h : admits i s = true) :
    exec i s = .next (effect i s) := by
  rw [exec_eq, if_pos h]

theorem admits_iff (i : Instr) (s : State) : admits i s = true ↔
    (i.isStreaming = true → s.inSession = true) ∧ operandsOk i s = true := by
  simp only [admits, Bool.and_eq_true, Bool.or_eq_true, Bool.not_eq_true']
  cases i.isStreaming <;> simp

/-! ## What a command leaves unchanged -/

/-- The command that opens a session: it writes the latched configuration and the tables (R44). -/
def opensSession : Instr → Bool
  | .prepare => true
  | _ => false

/-- `s` with what the command `i`, no `RELEASE`, owns taken from `t` (R44). -/
def ownedFrom (i : Instr) (s t : State) : State :=
  { s with
    lc := if opensSession i then t.lc else s.lc
    res := if writesRes i then t.res else s.res
    buf := if writesBuf i then t.buf else s.buf
    cells := if latches i then t.cells else s.cells
    outputs := if latches i then t.outputs else s.outputs
    race := if latches i then t.race else s.race
    snap := if latches i then t.snap else s.snap
    sr := if opensSession i then t.sr else s.sr
    mb := if opensSession i then t.mb else s.mb
    sine := if opensSession i then t.sine else s.sine
    hann := if opensSession i then t.hann else s.hann
    an := if writesAnalyzer i then t.an else s.an
    ramp0 := if writesRamp 0 i then t.ramp0 else s.ramp0
    ramp1 := if writesRamp 1 i then t.ramp1 else s.ramp1
    osc := if writesOsc i then t.osc else s.osc
    gain := if writesGain i then t.gain else s.gain }

/-- Every command but `RELEASE`, on operands in range, changes only what it owns (R44). -/
theorem body_owned {i : Instr} {s : State} (hop : operandsOk i s = true) (hi : i ≠ .release) :
    body i s = ownedFrom i s (body i s) := by
  cases i with
  | nop => rfl
  | prepare =>
    rw [show body .prepare s = _ from (prepareEffect_spec cfg s).1]
    simp [ownedFrom, opensSession, writesRes, writesBuf, latches, writesAnalyzer, writesRamp,
      writesOsc, writesGain]
  | release => exact absurd rfl hi
  | process nch len =>
    rw [show body (.process nch len) s = _ from processBlock_frame cfg nch len s]
    rfl
  | latch =>
    rw [show body .latch s = _ from (latchParams_spec s).1]
    rfl
  | push => exact analyzerPush_frame cfg s.opa s
  | rreset r => obtain rfl | rfl := rampInRange_cases hop <;> rfl
  | rset r => obtain rfl | rfl := rampInRange_cases hop <;> rfl
  | rnext r => obtain rfl | rfl := rampInRange_cases hop <;> rfl
  | estimate | afreq | oscnext => rfl
  | sample => exact congrArg (setRes _) (sampleStep_frame cfg s.opa s)
  | gainstg len =>
    rw [show body (.gainstg len) s = _ from (gainStage_spec len s).1]
    rfl

theorem opensSession_iff (i : Instr) : opensSession i = true ↔ i = .prepare := by
  cases i <;> simp [opensSession]

theorem releaseEffect_frame (c : Cfg) (s : State) : releaseEffect c s = { s with
    lc := (releaseEffect c s).lc, sr := (releaseEffect c s).sr, mb := (releaseEffect c s).mb
    snap := (releaseEffect c s).snap, an := (releaseEffect c s).an, hann := (releaseEffect c s).hann
    ramp0 := (releaseEffect c s).ramp0, ramp1 := (releaseEffect c s).ramp1
    osc := (releaseEffect c s).osc, sine := (releaseEffect c s).sine
    gain := (releaseEffect c s).gain, draws := (releaseEffect c s).draws } := by
  unfold releaseEffect
  split <;> rfl

theorem effect_owned {i : Instr} {s : State} (ha : admits i s = true) (hi : i ≠ .release) :
    ∃ l, effect i s = ownedFrom i { s with lc := l } (effect i s) := by
  obtain ⟨-, hop⟩ := (admits_iff i s).1 ha
  unfold effect
  cases h : i.isStreaming with
  | true => exact ⟨.processing, body_owned ((operandsOk_running i s).trans hop) hi⟩
  | false => exact ⟨s.lc, body_owned hop hi⟩

/-- A streaming command neither opens nor closes a session (R214). -/
theorem streaming_keeps_session {i : Instr} (hi : i.isStreaming = true) :
    i ≠ .release ∧ opensSession i = false := by
  cases i with
  | nop | prepare | release => cases hi
  | _ => exact ⟨Instr.noConfusion, rfl⟩

/-- A streaming command that passes the checks leaves the state in Processing (R92 step 6). -/
theorem effect_lc {i : Instr} {s : State} (ha : admits i s = true) (hi : i.isStreaming = true) :
    (effect i s).lc = .processing := by
  obtain ⟨-, hop⟩ := (admits_iff i s).1 ha
  obtain ⟨hr, ho⟩ := streaming_keeps_session hi
  rw [effect, if_pos hi, body_owned ((operandsOk_running i s).trans hop) hr]
  simp [ownedFrom, ho, running]

/-- A streaming command leaves the latched block size (R26, R216). -/
theorem effect_mb {i : Instr} {s : State} (ha : admits i s = true) (hi : i.isStreaming = true) :
    (effect i s).mb = s.mb := by
  obtain ⟨hr, ho⟩ := streaming_keeps_session hi
  obtain ⟨l, e⟩ := effect_owned ha hr
  rw [e]
  simp [ownedFrom, ho]

/-- The effect of a command records no fault. -/
theorem effect_faults {i : Instr} {s : State} (ha : admits i s = true) :
    (effect i s).faults = s.faults := by
  by_cases hi : i = .release
  · subst hi
    rw [show effect .release s = _ from releaseEffect_frame cfg s]
  · obtain ⟨l, e⟩ := effect_owned ha hi
    rw [e]
    rfl

/-- A command that does not latch completes no control operation (R70). -/
theorem effect_of_no_latch {i : Instr} {s : State} (ha : admits i s = true)
    (hl : latches i = false) : (effect i s).cells = s.cells ∧ (effect i s).outputs = s.outputs ∧
      (effect i s).race = s.race := by
  by_cases hi : i = .release
  · subst hi
    rw [show effect .release s = _ from releaseEffect_frame cfg s]
    exact ⟨rfl, rfl, rfl⟩
  · obtain ⟨l, e⟩ := effect_owned ha hi
    rw [e]
    simp [ownedFrom, hl]

/-- With no control operation to come a command leaves the cells and the results as they are. -/
theorem effect_quiet {i : Instr} {s : State} (ha : admits i s = true) (h : s.race = []) :
    (effect i s).cells = s.cells ∧ (effect i s).outputs = s.outputs := by
  have latch : latchParams (running s) = _ := (latchParams_spec (running s)).2.2 h
  cases hl : latches i with
  | false =>
    obtain ⟨hc, ho, -⟩ := effect_of_no_latch ha hl
    exact ⟨hc, ho⟩
  | true =>
    cases i with
    | prepare => exact (prepareEffect_spec cfg s).2.2 h
    | process nch len =>
      rw [show effect (.process nch len) s = _ from processBlock_frame cfg nch len (running s), latch]
      exact ⟨rfl, rfl⟩
    | latch =>
      rw [show effect .latch s = _ from latch]
      exact ⟨rfl, rfl⟩
    | _ => cases hl

/-- Settles O46: a refused command has recorded a fault only, `RELEASE` discards the context, and every
other effect takes from its result what R44 lists for it. -/
theorem commandsWriteOnlyWhatTheyOwn : Obligations.CommandsWriteOnlyWhatTheyOwn := by
  unfold Obligations.CommandsWriteOnlyWhatTheyOwn
  intro i s t h
  obtain ⟨ha, rfl⟩ | ⟨k, rfl⟩ := exec_cases h
  · have hf := effect_faults ha
    have hq := effect_quiet ha
    by_cases hi : i = .release
    · subst hi
      have e : effect .release s = _ := releaseEffect_frame cfg s
      have hn := fun hl => effect_of_no_latch (i := .release) ha hl
      generalize effect .release s = t at *
      rw [e]
      simp
    · have hs : i ≠ .prepare → opensSession i = false := by
        simp [← opensSession_iff]
      obtain ⟨l, e⟩ := effect_owned ha hi
      generalize effect i s = t at *
      obtain ⟨u, rfl⟩ : ∃ u, t = ownedFrom i { s with lc := l } u := ⟨t, e⟩
      refine ⟨rfl, rfl, rfl, rfl, rfl, ?_, ?_, hq, ?_, ?_, fun _ => ⟨rfl, ?_, ?_, ?_, ?_, ?_, ?_⟩,
        fun hne => absurd hf hne⟩ <;> simp +contextual [ownedFrom, hs]
  · simp [recordFault]

end Sys2Proof.StateProofs
end

section
/-! PROOFS. The state: what a step does, the fault record (R24, R232), `STATUS` (R22, R23) and reset (R41,
R260). -/

namespace Sys2Proof.StateProofs

open Sys2Proof.Machine Sys2Proof.Safety

/-! ## What a step does -/

theorem step_cases {s t : State} (h : step s = .next t) :
    (s.pending = [] ∧ t = s) ∨
    ∃ e rest, s.pending = e :: rest ∧ perform cfg e { s with pending := rest } = .next t := by
  unfold step stepFor performNext at h
  cases hp : s.pending with
  | nil =>
    rw [hp] at h
    cases h
    exact .inl ⟨rfl, rfl⟩
  | cons e rest =>
    rw [hp] at h
    exact .inr ⟨e, rest, rfl, h⟩

theorem step_of_pending {s : State} {e : Event} {rest : List Event} (h : s.pending = e :: rest) :
    step s = perform cfg e { s with pending := rest } := by
  unfold step stepFor performNext
  rw [h]

theorem executeWord_cases {w : Word} {s t : State} (h : executeWord cfg w s = .next t) :
    (∃ i, admits i s = true ∧ t = effect i s) ∨ ∃ k w', t = recordFault k w' s := by
  unfold executeWord at h
  split at h
  · next i _ =>
    rw [execFor_cfg] at h
    exact (exec_cases h).imp (fun ha => ⟨i, ha⟩) (fun ⟨k, hk⟩ => ⟨k, _, hk⟩)
  · cases h
    exact .inr ⟨_, _, rfl⟩

theorem runCommand_cases {w : Word} {m : Meanwhile} {s t : State}
    (h : runCommand cfg w m s = .next t) : ∃ u, executeWord cfg w (beginCommand m s) = .next u ∧
      t = endCommand m (beginCommand m s) u := by
  unfold runCommand at h
  split at h
  · next u hu =>
    cases h
    exact ⟨u, hu, rfl⟩
  · cases h
  · cases h

/-- Control operations between commands change the cells and the results of reads only (R67). -/
theorem ctlOps_frame (ops : List CtlOp) (s : State) : ops.foldl ctlApply s = { s with
    cells := (ops.foldl ctlApply s).cells, outputs := (ops.foldl ctlApply s).outputs } :=
  (foldl_ctlApply ops s).1

theorem hostRead_frame (c : Cfg) (a : HostAddr) (s : State) : hostRead c a s = { s with
    outputs := (hostRead c a s).outputs, draws := (hostRead c a s).draws } := by
  unfold hostRead
  split <;> rfl

theorem writeElem_frame (e : HostElem) (v : Word) (s : State) : writeElem e v s = { s with
    opa := (writeElem e v s).opa, sampleRate := (writeElem e v s).sampleRate
    maxBlk := (writeElem e v s).maxBlk, cells := (writeElem e v s).cells
    buf := (writeElem e v s).buf } := by
  cases e <;> rfl

theorem writeElem_buf (e : HostElem) (v : Word) (s : State) :
    (writeElem e v s).buf = s.buf ∨ ∃ j, e = .buf j ∧ (writeElem e v s).buf = s.buf.put j v := by
  cases e with
  | buf j => exact .inr ⟨j, rfl, rfl⟩
  | _ => exact .inl rfl

theorem hostWrite_cases {a : HostAddr} {v : Word} {m : Meanwhile} {s t : State}
    (h : hostWrite cfg a v m s = .next t) : runCommand cfg v m s = .next t ∨
      t = m.ctl.flatten.foldl ctlApply (writeElem (hostElem cfg a.toNat) v s) := by
  unfold hostWrite at h
  split at h
  · exact .inl h
  · cases h
    exact .inr rfl

/-- `t` comes from `s` by the execution of a command word (R67, R68). -/
def RanCommand (s t : State) : Prop :=
  ∃ w m u, executeWord cfg w (beginCommand m s) = .next u ∧ t = endCommand m (beginCommand m s) u

/-- `t` comes from `s` by a write to an element other than `CMD`, after which control operations
complete (R67). -/
def WroteElement (s t : State) : Prop :=
  ∃ a v ops, t = List.foldl ctlApply (writeElem (hostElem cfg a) v s) ops

/-- `t` differs from `s` in what the control agent and the reads touch only. -/
def OnlyReads (s t : State) : Prop :=
  t = { s with cells := t.cells, outputs := t.outputs, draws := t.draws }

theorem onlyReads_ctlOps (ops : List CtlOp) (s : State) : OnlyReads s (ops.foldl ctlApply s) := by
  have h := ctlOps_frame ops s
  generalize ops.foldl ctlApply s = t at *
  rw [h]
  rfl

theorem hostWrite_does {a : HostAddr} {v : Word} {m : Meanwhile} {s t : State}
    (h : hostWrite cfg a v m s = .next t) : RanCommand s t ∨ WroteElement s t := by
  obtain h | rfl := hostWrite_cases h
  · obtain ⟨u, hu, rfl⟩ := runCommand_cases h
    exact .inl ⟨v, m, u, hu, rfl⟩
  · exact .inr ⟨_, v, _, rfl⟩

theorem onlyReads_hostRead (a : HostAddr) (s : State) : OnlyReads s (hostRead cfg a s) := by
  have h := hostRead_frame cfg a s
  generalize hostRead cfg a s = t at *
  rw [h]
  rfl

/-- What one operation from outside does. -/
theorem perform_cases {e : Event} {s t : State} (h : perform cfg e s = .next t) :
    (e = .reset ∧ t = resetEffect s) ∨ RanCommand s t ∨ WroteElement s t ∨ OnlyReads s t := by
  have write : ∀ {a v m}, hostWrite cfg a v m s = .next t →
      RanCommand s t ∨ WroteElement s t ∨ OnlyReads s t := fun h =>
    (hostWrite_does h).imp_right .inl
  cases e with
  | hostWrite a v m => exact .inr (write h)
  | hostRead a =>
    cases h
    exact .inr (.inr (.inr (onlyReads_hostRead a s)))
  | ctl op =>
    cases h
    exact .inr (.inr (.inr (onlyReads_ctlOps [op] s)))
  | busWrite addr size v m =>
    simp only [perform] at h
    split at h
    · exact .inr (write h)
    · cases h
      exact .inr (.inr (.inr (onlyReads_ctlOps _ s)))
  | busRead addr size =>
    simp only [perform] at h
    split at h
    · cases h
      exact .inr (.inr (.inr (onlyReads_hostRead _ s)))
    · cases h
      exact .inr (.inr (.inr rfl))
  | reset =>
    cases h
    exact .inl ⟨rfl, rfl⟩

/-! ## The fault record -/

/-- `g` is `f`, or `f` with one more fault recorded (R232). -/
def AtMostOneFault (f g : FaultRecord) : Prop := g = f ∨ ∃ k w, g = f.record k w

theorem ranCommand_faults {s t : State} (h : RanCommand s t) : AtMostOneFault s.faults t.faults := by
  obtain ⟨w, m, u, hu, rfl⟩ := h
  rw [endCommand_frame]
  obtain ⟨i, ha, rfl⟩ | ⟨k, w', rfl⟩ := executeWord_cases hu
  · exact .inl (effect_faults ha)
  · exact .inr ⟨k, w', rfl⟩

theorem wroteElement_faults {s t : State} (h : WroteElement s t) : t.faults = s.faults := by
  obtain ⟨a, v, ops, rfl⟩ := h
  rw [ctlOps_frame, writeElem_frame]

theorem perform_faults {e : Event} {s t : State} (h : perform cfg e s = .next t) (he : e ≠ .reset) :
    AtMostOneFault s.faults t.faults := by
  obtain ⟨rfl, -⟩ | h | h | h := perform_cases h
  · exact absurd rfl he
  · exact ranCommand_faults h
  · exact .inl (wroteElement_faults h)
  · rw [h]
    exact .inl rfl

/-- Settles O13: an operation other than a reset records at most one fault, which clears no sticky bit and
leaves the first fault in place (R24, R232). -/
theorem firstFaultIsKeptUntilReset : Obligations.FirstFaultIsKeptUntilReset := by
  unfold Obligations.FirstFaultIsKeptUntilReset
  intro s t e rest hp he h
  rw [step_of_pending hp] at h
  obtain hf | ⟨k, w, hf⟩ := perform_faults h he <;> rw [hf]
  · exact ⟨fun _ hk => hk, fun _ => ⟨rfl, rfl⟩⟩
  · exact ⟨fun k' hk => record_sticky_mono _ k k' w hk, record_later _ k w⟩

/-! ## `STATUS` -/

theorem bitAt_getLsbD (b : Bool) {k i : Nat} (hi : i < 32) :
    (bitAt b k).getLsbD i = (b && decide (i = k)) := by
  cases b
  · simp [bitAt]
  · rw [Bool.eq_iff_iff]
    simp only [bitAt, if_true, BitVec.getLsbD_shiftLeft, BitVec.getLsbD_one, Bool.and_eq_true,
      Bool.not_eq_true', decide_eq_true_eq, decide_eq_false_iff_not, true_and]
    omega

/-- `LC` takes bits 1:0 of `STATUS` only (R22). -/
theorem code_getLsbD (l : Lifecycle) {i : Nat} (hi : 2 ≤ i) : l.code.getLsbD i = false := by
  have h : l.code.toNat < 2 ^ 2 := by cases l <;> decide
  exact Nat.testBit_lt_two_pow (h.trans_le (Nat.pow_le_pow_right (by norm_num) hi))

/-- Every bit of `STATUS` (R23). -/
theorem statusWord_getLsbD (s : State) {i : Nat} (hi : i < 32) : (statusWord s).getLsbD i =
    (s.lc.code.getLsbD i || s.busy && decide (i = 2) || s.faults.illcmd && decide (i = 3) ||
      s.faults.badoper && decide (i = 4) || s.faults.cviol && decide (i = 5) ||
      s.faults.pfail && decide (i = 6)) := by
  simp only [statusWord, BitVec.getLsbD_or, bitAt_getLsbD _ hi]

/-- The sticky bit of a cause is `STATUS` bit `2 + code` (R231, R232). -/
theorem statusWord_sticky (s : State) (k : Cause) :
    (statusWord s).getLsbD (2 + k.code.toNat) = s.faults.sticky k := by
  rw [statusWord_getLsbD s (by cases k <;> decide), code_getLsbD _ (Nat.le_add_right 2 _)]
  cases k <;> simp [Cause.code, FaultRecord.sticky]

/-- Settles O12, bit by bit (R22, R23). -/
theorem statusWordLayout : Obligations.StatusWordLayout := by
  unfold Obligations.StatusWordLayout
  intro s
  refine ⟨?_, ?_, ?_, ?_, ?_, ?_, ?_⟩
  · have low : (statusWord s).extractLsb' 0 2 = s.lc.code.extractLsb' 0 2 := by
      refine BitVec.eq_of_getLsbD_eq fun i hi => ?_
      rw [BitVec.getLsbD_extractLsb', BitVec.getLsbD_extractLsb', statusWord_getLsbD s (by omega)]
      grind
    rw [low]
    cases s.lc <;> rfl
  · rw [statusWord_getLsbD s (by omega), code_getLsbD _ (le_refl 2)]
    simp
  · exact statusWord_sticky s .illcmd
  · exact statusWord_sticky s .badoper
  · exact statusWord_sticky s .cviol
  · exact statusWord_sticky s .pfail
  · refine BitVec.eq_of_getLsbD_eq fun i hi => ?_
    rw [BitVec.getLsbD_extractLsb', statusWord_getLsbD s (by omega), code_getLsbD _ (by omega)]
    grind

/-- Settles O8: the laws of the fault record (R24, R232). -/
theorem faultRecordKeepsTheFirstFault : Obligations.FaultRecordKeepsTheFirstFault := by
  unfold Obligations.FaultRecordKeepsTheFirstFault
  intro k w s
  refine ⟨rfl, ?_, fun k' hk => record_sticky_other _ w hk, record_first _ k w, record_later _ k w⟩
  rw [statusWord_sticky]
  exact record_sticky_self s.faults k w

/-! ## Reset -/

/-- Settles O59: the reset state, field by field (R41, R260). -/
theorem resetValues : Obligations.ResetValues := by
  unfold Obligations.ResetValues
  exact ⟨rfl, rfl, rfl, rfl, rfl, rfl, rfl, rfl, rfl, rfl, rfl, rfl, rfl⟩

theorem statusWord_resetEffect (s : State) : statusWord (resetEffect s) = 0#32 :=
  show statusWord State.reset = 0#32 from rfl

/-- Settles O58: a reset leaves the reset values whatever the state was (R260). -/
theorem resetFromAnyState : Obligations.ResetFromAnyState := by
  unfold Obligations.ResetFromAnyState
  intro s rest hp
  refine ⟨_, step_of_pending hp, rfl, statusWord_resetEffect _, rfl, rfl, rfl, rfl, rfl, rfl,
    fun k hk => ?_, rfl, rfl, fun j => ⟨rfl, rfl, rfl, rfl, rfl⟩⟩
  interval_cases k <;> rfl

end Sys2Proof.StateProofs
end

section
/-! PROOFS. The state: the register map (R62) and the reads of what is unspecified (R42). -/

namespace Sys2Proof.StateProofs

open Sys2Proof.Machine Sys2Proof.Safety

/-! ## The register map -/

theorem mem_debugIndices {a : Nat} : a ∈ debugIndices ↔ (0x20 ≤ a ∧ a ≤ 0x26) ∨
    (0x28 ≤ a ∧ a ≤ 0x2C) ∨ (0x30 ≤ a ∧ a ≤ 0x34) ∨ (0x38 ≤ a ∧ a ≤ 0x3C) := by
  simp only [debugIndices, List.mem_cons, List.not_mem_nil, or_false]
  omega

theorem hostElem_debug : ∀ a ∈ debugIndices, hostElem cfg a = .debug a := by decide

theorem hostElem_spec {k : Nat} (h : k < 4096) : hostElem cfg (0x10000 + k) = .spec k := by
  rw [hostElem_window _ (by omega),
    windowElem_spec (a := 0x10000 + k) (Nat.le_add_right _ k) (by rw [cfg_n, specBase]; omega),
    specBase, Nat.add_sub_cancel_left]

theorem hostElem_sine {i : Nat} (h : i < 1024) : hostElem cfg (0x20000 + i) = .sine i := by
  rw [hostElem_window _ (by omega), windowElem, if_neg, if_pos, sineBase, Nat.add_sub_cancel_left]
    <;> simp only [specBase, sineBase, cfg_n, cfg_t] <;> omega

theorem hostElem_hann {n : Nat} (h : n < 4096) : hostElem cfg (0x30000 + n) = .hann n := by
  rw [hostElem_window _ (by omega), windowElem, if_neg, if_neg, if_pos, hannBase,
      Nat.add_sub_cancel_left]
    <;> simp only [specBase, sineBase, hannBase, cfg_n, cfg_t] <;> omega

theorem hostElem_buf {j : Nat} (h : j < 16384) : hostElem cfg (0x40000 + j) = .buf j := by
  rw [hostElem_window _ (by omega), windowElem_buf (a := 0x40000 + j) (by rw [cfg_n]; omega)
    (by rw [cfg_t]; omega) (Nat.le_add_right _ j) (by rw [cfg_nchmax, cfg_bufcap, bufBase]; omega),
    bufBase, Nat.add_sub_cancel_left]

/-- An index of the map at which no element stands (R62, R69). -/
def unmappedIndex (a : Nat) : Prop :=
  (0x0D ≤ a ∧ a < 0x10) ∨ (0x15 ≤ a ∧ a < 0x20) ∨ a = 0x27 ∨ (0x2D ≤ a ∧ a < 0x30) ∨
    (0x35 ≤ a ∧ a < 0x38) ∨ (0x3D ≤ a ∧ a < 0x10000) ∨ (0x11000 ≤ a ∧ a < 0x20000) ∨
    (0x20400 ≤ a ∧ a < 0x30000) ∨ (0x31000 ≤ a ∧ a < 0x40000) ∨ 0x44000 ≤ a

/-- The gaps between the registers hold nothing (R62). -/
theorem hostElem_gap : ∀ a ∈ [0x0D, 0x0E, 0x0F, 0x15, 0x16, 0x17, 0x18, 0x19, 0x1A, 0x1B, 0x1C, 0x1D,
    0x1E, 0x1F, 0x27, 0x2D, 0x2E, 0x2F, 0x35, 0x36, 0x37], hostElem cfg a = .unmapped := by decide

theorem hostElem_unmapped {a : Nat} (h : unmappedIndex a) : hostElem cfg a = .unmapped := by
  unfold unmappedIndex at h
  by_cases ha : 0x3D ≤ a
  · rw [hostElem_window _ ha, windowElem, if_neg, if_neg, if_neg, if_neg] <;>
      simp only [specBase, sineBase, hannBase, bufBase, cfg_n, cfg_t, cfg_nchmax, cfg_bufcap] <;>
      omega
  · refine hostElem_gap a ?_
    simp only [List.mem_cons, List.not_mem_nil, or_false]
    omega

/-- The element is one of `BUF`. -/
def isBuf : HostElem → Bool
  | .buf _ => true
  | _ => false

theorem register_not_buf : ∀ a < 0x3D, isBuf (hostElem cfg a) = false := by decide

/-- The index of a populated `BUF` element lies within `BUF` (R62, R69). -/
theorem hostElem_buf_lt {a j : Nat} (h : hostElem cfg a = .buf j) : j < cfg.nchmax * cfg.bufcap := by
  have ha : 0x3D ≤ a := by
    by_contra hlt
    have := register_not_buf a (by omega)
    rw [h] at this
    cases this
  rw [hostElem_window _ ha] at h
  unfold windowElem at h
  by_cases hbuf : bufBase ≤ a ∧ a < bufBase + cfg.nchmax * cfg.bufcap
  · simp only [if_pos hbuf] at h
    split_ifs at h
    rw [HostElem.buf.injEq] at h
    omega
  · simp only [if_neg hbuf] at h
    split_ifs at h

theorem elemContent_debug {s : State} (hs : s.inSession = true) {a : Nat} (ha : a ∈ debugIndices) :
    elemContent cfg s (hostElem cfg a) = some (debugValue s a) := by
  rw [hostElem_debug a ha]
  exact if_pos hs

theorem sessionOnly_of_session {s : State} (hs : s.inSession = true) (v : Option Word) :
    sessionOnly s v = v := if_pos hs

theorem sessionOnly_of_no_session {s : State} (hs : s.inSession = false) (v : Option Word) :
    sessionOnly s v = none := by
  simp [sessionOnly, hs]

/-- Settles O52: every index of the map, by the element that stands there (R62, R66, R69). -/
theorem registerMapContents : Obligations.RegisterMapContents := by
  unfold Obligations.RegisterMapContents
  intro s
  refine ⟨rfl, rfl, rfl, rfl, rfl, rfl, rfl, rfl, rfl, rfl, rfl, rfl, rfl, rfl, rfl, rfl, rfl, rfl,
    fun hlc => ?_, fun j hj => ?_, fun a ha => ?_⟩
  · have hs := (inSession_iff s).2 hlc
    have reg := fun a (ha : a ∈ debugIndices) => elemContent_debug hs ha
    refine ⟨reg 0x20 ?_, reg 0x21 ?_, reg 0x22 ?_, reg 0x23 ?_, reg 0x24 ?_, reg 0x25 ?_, reg 0x26 ?_,
      reg 0x28 ?_, reg 0x29 ?_, reg 0x2A ?_, reg 0x2B ?_, reg 0x2C ?_, reg 0x30 ?_, reg 0x31 ?_,
      reg 0x32 ?_, reg 0x33 ?_, reg 0x34 ?_, reg 0x38 ?_, reg 0x39 ?_, reg 0x3A ?_, reg 0x3B ?_,
      reg 0x3C ?_, fun k hk => ?_, fun i hi => ?_, fun n hn => ?_⟩
    case refine_23 => rw [hostElem_spec hk]; exact sessionOnly_of_session hs _
    case refine_24 => rw [hostElem_sine hi]; exact sessionOnly_of_session hs _
    case refine_25 => rw [hostElem_hann hn]; exact sessionOnly_of_session hs _
    all_goals decide
  · rw [hostElem_buf hj]
    rfl
  · rw [hostElem_unmapped ha]
    rfl

/-- Outside a session the debug view shows nothing (R41, R42). -/
theorem elemContent_of_no_session {s : State} (hs : s.inSession = false) {a : Nat}
    (ha : a ∈ debugIndices ∨ (0x10000 ≤ a ∧ a < 0x11000) ∨ (0x20000 ≤ a ∧ a < 0x20400) ∨
      (0x30000 ≤ a ∧ a < 0x31000)) : elemContent cfg s (hostElem cfg a) = none := by
  obtain ha | ⟨h1, h2⟩ | ⟨h1, h2⟩ | ⟨h1, h2⟩ := ha
  · rw [hostElem_debug a ha]
    exact sessionOnly_of_no_session hs _
  · obtain ⟨k, rfl⟩ := Nat.exists_eq_add_of_le h1
    rw [hostElem_spec (by omega)]
    exact sessionOnly_of_no_session hs _
  · obtain ⟨i, rfl⟩ := Nat.exists_eq_add_of_le h1
    rw [hostElem_sine (by omega)]
    exact sessionOnly_of_no_session hs _
  · obtain ⟨n, rfl⟩ := Nat.exists_eq_add_of_le h1
    rw [hostElem_hann (by omega)]
    exact sessionOnly_of_no_session hs _

/-- Settles O53: what has no content outside a session shows a fresh draw (R42). -/
theorem unspecifiedReadsAreFreshDraws : Obligations.UnspecifiedReadsAreFreshDraws := by
  unfold Obligations.UnspecifiedReadsAreFreshDraws
  intro s a rest hp hlc ha
  have hs : ({ s with pending := rest } : State).inSession = false := (not_inSession_iff s).2 hlc
  have hc := elemContent_of_no_session hs (a := a.toNat) (by rw [mem_debugIndices]; omega)
  rw [step_of_pending hp]
  simp only [perform, hostRead, hc]

end Sys2Proof.StateProofs
end

section
/-! PROOFS. The state: the invariant of the machine (R26, R29, R30, R32, R34 to R39). -/

namespace Sys2Proof.StateProofs

open Sys2Proof.Machine Sys2Proof.Safety

/-! ## The estimate of a mirrored spectrum -/

/-- The value at `i` does not occur before `i`. -/
def FirstAt (l : List Word) (i : Nat) : Prop := ∃ v, l[i]? = some v ∧ v ∉ l.take i

theorem fgt_irrefl (v : Word) : fgt v v = false := by
  simp [fgt, flt]

theorem fgt_trans {a b c : Word} (hab : fgt a b = true) (hbc : fgt b c = true) : fgt a c = true := by
  obtain ⟨hb, ha, h1⟩ := (flt_iff b a).1 hab
  obtain ⟨hc, -, h2⟩ := (flt_iff c b).1 hbc
  exact (flt_iff c a).2 ⟨hc, ha, h2.trans h1⟩

/-- The scan only moves to a bin that no earlier bin equals: none of those is above the running
maximum (R131). -/
theorem scanBins_firstAt (vs pre : List Word) (idx : Nat) (mx : Word)
    (hmax : ∀ v ∈ pre, fgt v mx = false) (hidx : FirstAt (pre ++ vs) idx) :
    FirstAt (pre ++ vs) (scanBins vs pre.length idx mx).1 := by
  induction vs generalizing pre idx mx with
  | nil => exact hidx
  | cons v vs ih =>
    have hlen : pre.length + 1 = (pre ++ [v]).length := by simp
    rw [List.append_cons] at hidx ⊢
    unfold scanBins
    rw [hlen]
    split
    · next hv =>
      refine ih (pre ++ [v]) _ v (fun w hw => ?_) ⟨v, by simp, fun hmem => ?_⟩
      · obtain hw | hw := List.mem_append.1 hw
        · by_contra hgt
          have := fgt_trans (by simpa using hgt) hv
          rw [hmax w hw] at this
          cases this
        · rw [List.mem_singleton.1 hw, fgt_irrefl]
      · rw [List.append_assoc, List.take_left] at hmem
        simp [hmax v hmem] at hv
    · next hv =>
      refine ih (pre ++ [v]) idx mx (fun w hw => ?_) hidx
      obtain hw | hw := List.mem_append.1 hw
      · exact hmax w hw
      · rw [List.mem_singleton.1 hw]
        simpa using hv

theorem peakOf_firstAt {l : List Word} (h : l ≠ []) : FirstAt l (peakOf l).1 := by
  cases l with
  | nil => exact absurd rfl h
  | cons v vs =>
    refine scanBins_firstAt vs [v] 0 v (fun w hw => ?_) ⟨v, rfl, List.not_mem_nil⟩
    rw [List.mem_singleton.1 hw, fgt_irrefl]

/-- The winning bin of a mirrored spectrum is in the lower half: above it each bin repeats an earlier
one (R14 P3, R132). -/
theorem peakOf_le_half {l : List Word} {n : Nat} (hlen : l.length = n) (hn : 0 < n)
    (hmirror : ∀ k, 0 < k → 2 * k < n → l[n - k]? = l[k]?) : (peakOf l).1 ≤ n / 2 := by
  obtain ⟨v, hv, hnot⟩ := peakOf_firstAt (List.ne_nil_of_length_pos (hlen ▸ hn))
  by_contra hgt
  have hlt : (peakOf l).1 < n := by
    rw [← hlen]
    exact (List.getElem?_eq_some_iff.1 hv).1
  have hm := hmirror (n - (peakOf l).1) (by omega) (by omega)
  rw [Nat.sub_sub_self hlt.le, hv] at hm
  refine hnot (List.mem_of_getElem? (i := n - (peakOf l).1) ?_)
  rw [List.getElem?_take_of_lt (by omega), ← hm]

theorem roundMag_zero (d : Nat) : roundMag 0 d = 0 := by simp [roundMag, binade, divNearest]

theorem fSign_of_positive {a : Word} (h : fgt a fZero = true) : fSign a = false := by
  obtain ⟨-, -, hlt⟩ := (flt_iff fZero a).1 h
  have hz : orderKey fZero = 0 := by decide
  by_contra hs
  simp only [orderKey, Bool.eq_true_of_not_eq_false hs, if_true] at hlt hz
  omega

theorem fmul_zero_of_positive {a : Word} (hfin : isFinite a = true) (hpos : fgt a fZero = true) :
    fmul fZero a = fZero := by
  have hinf : isInf a = false := by
    simp only [isFinite, isInf, decide_eq_true_eq, decide_eq_false_iff_not] at *
    omega
  have hz : isNaN fZero = false ∧ isInf fZero = false ∧ fSign fZero = false ∧ magUnits (fMag fZero) = 0 ∧
      packF false 0 = fZero := by decide
  obtain ⟨hn, hi, hs, hm, hp⟩ := hz
  simp [fmul, mulCore, hn, hi, hs, hm, hp, hinf, isNaN_of_isFinite hfin, fSign_of_positive hpos,
    roundMag_zero]

/-- Bin 0 has the frequency `+0.0`. -/
theorem binFreq_zero {sr : Word} (hfin : isFinite sr = true) (hpos : fgt sr fZero = true) :
    binFreq cfg sr 0 = fZero := by
  have h : fdiv (u2f 0) (u2f (4096 - 1)) = fZero := by decide +kernel
  rw [binFreq, cfg_n, h, fmul_zero_of_positive hfin hpos]

/-- An estimate of a mirrored spectrum is `+0.0` or the frequency of a bin 1 to `N/2` (R32). -/
theorem estimateOn_range {sr tol : Word} {spec : List Word} (hfin : isFinite sr = true)
    (hpos : fgt sr fZero = true) (hlen : spec.length = cfg.n)
    (hmirror : ∀ k, 0 < k → 2 * k < cfg.n → spec[cfg.n - k]? = spec[k]?) :
    estimateOn cfg sr tol spec = fZero ∨
      ∃ k, 1 ≤ k ∧ k ≤ cfg.n / 2 ∧ estimateOn cfg sr tol spec = binFreq cfg sr k := by
  unfold estimateOn
  split
  · have hle := peakOf_le_half hlen (by rw [cfg_n]; omega) hmirror
    rcases Nat.eq_zero_or_pos (peakOf spec).1 with h0 | h0
    · rw [h0]
      exact .inl (binFreq_zero hfin hpos)
    · exact .inr ⟨_, h0, hle, rfl⟩
  · exact .inl rfl

theorem cfg_fftmag_length (ys : List Word) : (cfg.fftmag ys).length = cfg.n := by
  rw [cfg_fftmag, fftMag_length, cfg_n]

theorem cfg_fftmag_mirror (ys : List Word) {k : Nat} (h0 : 0 < k) (h1 : 2 * k < cfg.n) :
    (cfg.fftmag ys)[cfg.n - k]? = (cfg.fftmag ys)[k]? := by
  rw [cfg_n] at h1
  rw [cfg_fftmag, cfg_n]
  exact Scope.fftMag_mirror ys h0 h1

/-! ## The invariant of a session, element by element -/

/-- The analyzer in a session with sample rate `sr` (R30, R32). -/
structure AnalyzerOk (sr : Word) (a : Analyzer) : Prop where
  fifoWf : a.fifo.wf
  fifoBound : ∀ p ∈ a.fifo, p.1 < cfg.n
  fifoFull : ∀ i, i < cfg.n → (a.fifo.look i).isSome = true
  workWf : a.work.wf
  workBound : ∀ p ∈ a.work, p.1 < 2 * cfg.n
  specFull : ∀ k, k < cfg.n → (a.work.look k).isSome = true
  cursor : a.fifoIdx < cfg.n
  detFreq : a.detFreq = fZero ∨ ∃ k, 1 ≤ k ∧ k ≤ cfg.n / 2 ∧ a.detFreq = binFreq cfg sr k

/-- A block buffer in its canonical form and within its size (R40, R60). -/
def BufOk (m : Memory) : Prop := m.wf ∧ ∀ p ∈ m, p.1 < cfg.nchmax * cfg.bufcap

/-- What the invariant says of an open session. -/
structure Live (s : State) : Prop where
  memories : MemoriesWf cfg s
  session : SessionOk cfg s

/-- The elements of the state that the invariant of a session speaks of. -/
def contextOf (s : State) : State :=
  { State.reset with
    sr := s.sr, mb := s.mb, snap := s.snap, an := s.an, hann := s.hann, ramp0 := s.ramp0
    ramp1 := s.ramp1, osc := s.osc, sine := s.sine, gain := s.gain, buf := s.buf }

section
variable {s t : State}

theorem live_contextOf (s : State) : Live (contextOf s) ↔ Live s :=
  ⟨fun h => ⟨h.memories, { h.session with }⟩, fun h => ⟨h.memories, { h.session with }⟩⟩

theorem Live.congr (h : Live s) (e : contextOf t = contextOf s) : Live t := by
  rw [← live_contextOf, e, live_contextOf]
  exact h

theorem Live.analyzer (h : Live s) : AnalyzerOk s.sr s.an := by
  obtain ⟨⟨hf, hfb⟩, ⟨hw, hwb⟩, -⟩ := h.memories
  exact ⟨hf, hfb, h.session.fifoFull, hw, hwb, h.session.specFull, h.session.cursor,
    h.session.detFreq⟩

theorem Live.setAnalyzer (h : Live s) {a : Analyzer} (ha : AnalyzerOk s.sr a) :
    Live { s with an := a } := by
  obtain ⟨-, -, hrest⟩ := h.memories
  exact ⟨⟨⟨ha.fifoWf, ha.fifoBound⟩, ⟨ha.workWf, ha.workBound⟩, hrest⟩,
    { h.session with
      cursor := ha.cursor, fifoFull := ha.fifoFull, specFull := ha.specFull, detFreq := ha.detFreq }⟩

theorem Live.setSnap (h : Live s) {x : Snapshot} (hx : snapInRange x = true) :
    Live { s with snap := x } := ⟨h.memories, { h.session with snap := hx }⟩

theorem Live.setRamp0 (h : Live s) {x : Ramp} (hx : RampOk cfg.durFreq s.sr x) :
    Live { s with ramp0 := x } := ⟨h.memories, { h.session with ramp0 := hx }⟩

theorem Live.setRamp1 (h : Live s) {x : Ramp} (hx : RampOk cfg.durFb s.sr x) :
    Live { s with ramp1 := x } := ⟨h.memories, { h.session with ramp1 := hx }⟩

theorem Live.setOsc (h : Live s) {o : Oscillator} (ho : phaseInRange cfg.t o.phase = true) :
    Live { s with osc := o } := ⟨h.memories, { h.session with phase := ho }⟩

theorem Live.setGain (h : Live s) {g : Gain} (hc : between fZero fOne g.cur = true)
    (hp : between fZero fOne g.prev = true) : Live { s with gain := g } :=
  ⟨h.memories, { h.session with gainCur := hc, gainPrev := hp }⟩

theorem Live.bufOk (h : Live s) : BufOk s.buf := by
  obtain ⟨-, -, -, -, hb⟩ := h.memories
  exact hb

theorem Live.setBuf (h : Live s) {m : Memory} (hm : BufOk m) : Live { s with buf := m } := by
  obtain ⟨hf, hw, hh, hs, -⟩ := h.memories
  exact ⟨⟨hf, hw, hh, hs, hm⟩, { h.session with }⟩

theorem bufOk_put {m : Memory} (h : BufOk m) {j : Nat} (hj : j < cfg.nchmax * cfg.bufcap) (v : Word) :
    BufOk (m.put j v) := by
  refine ⟨Memory.wf_put j v h.1, fun p hp => ?_⟩
  obtain rfl | hp := Memory.mem_put hp
  · exact hj
  · exact h.2 p hp

theorem Live.putBuf (h : Live s) {j : Nat} (hj : j < cfg.nchmax * cfg.bufcap) (v : Word) :
    Live (Machine.setBuf j v s) := h.setBuf (bufOk_put h.bufOk hj v)

/-! ## The effects keep it -/

theorem between_unit (x : Word) : between fZero fOne (clampF x fZero fOne) = true :=
  clampF_between x (by decide) (by decide) (by decide) (by decide)

/-- Whatever the cells hold, the latched snapshot is in range (R29, R181). -/
theorem latchedSnapshot_inRange (s : State) : snapInRange (latchedSnapshot s) = true := by
  have hd := clampF_between (lo := fMinusFifty) (hi := fFifty) (loadedCell s 4) (by decide)
    (by decide) (by decide) (by decide)
  simp only [snapInRange, latchedSnapshot, between_unit, hd, Bool.true_and]
  exact decide_eq_true (clampI_le _)

theorem Live.latch (h : Live s) : Live (latchParams s) :=
  (h.setSnap (latchedSnapshot_inRange s)).congr (by rw [(latchParams_spec s).1]; rfl)

theorem feq_self_or_nan (v : Word) : feq v v = true ∨ (isNaN v = true ∧ isNaN v = true) := by
  cases h : isNaN v
  · exact .inl (feq_self h)
  · exact .inr ⟨rfl, rfl⟩

section
variable {dur sr : Word} {x : Ramp}

theorem rampOk_reset (dur sr : Word) (x : Ramp) : RampOk dur sr (Ramp.reset dur sr x) :=
  ⟨Nat.zero_le _, fun _ => feq_self_or_nan x.tgt, rfl⟩

theorem rampOk_setTarget (h : RampOk dur sr x) (v : Word) : RampOk dur sr (x.setTarget v) := by
  have ⟨_, _, hlen⟩ := h
  unfold Ramp.setTarget
  split_ifs with hsame hzero
  · exact h
  · exact ⟨Nat.zero_le _, fun _ => feq_self_or_nan v, hlen⟩
  · exact ⟨le_refl _, fun hrest => absurd hrest hzero, hlen⟩

theorem rampOk_next (h : RampOk dur sr x) : RampOk dur sr x.next := by
  obtain ⟨hrem, hrest, hlen⟩ := h
  obtain ⟨htgt, -, hlen', hrem', hcur⟩ := Ramp.next_spec x
  refine ⟨by rw [hrem', hlen']; omega, fun h0 => ?_, by rw [hlen', hlen]⟩
  rw [htgt, hcur]
  by_cases hx0 : x.rem = 0#32
  · rw [if_pos hx0]
    exact hrest hx0
  · have hx1 : x.rem = 1#32 := by
      rw [h0] at hrem'
      bv_omega
    rw [if_neg hx0, if_pos hx1]
    exact feq_self_or_nan x.tgt

end

theorem Live.rampsNext (h : Live s) : Live (Machine.rampsNext s) :=
  (h.setRamp0 (rampOk_next h.session.ramp0)).setRamp1 (rampOk_next h.session.ramp1)

theorem Live.oscAdvance (h : Live s) (fa : Word) : Live (Machine.oscAdvance cfg fa s) :=
  h.setOsc (pmod_inRange _ (by rw [cfg_t]; norm_num) (by rw [cfg_t]; norm_num))

theorem cursor_advance {idx : Nat} (h : idx < cfg.n) :
    (idx + 1) % 2 ^ (cfg.log2n + 1) = idx + 1 := by
  rw [cfg_n] at h
  rw [cfg_log2n, Nat.mod_eq_of_lt (by omega)]

theorem fifo_put_ok {sr : Word} {a : Analyzer} (h : AnalyzerOk sr a) (x : Word) :
    (a.fifo.put a.fifoIdx x).wf ∧ (∀ p ∈ a.fifo.put a.fifoIdx x, p.1 < cfg.n) ∧
      ∀ i, i < cfg.n → ((a.fifo.put a.fifoIdx x).look i).isSome = true := by
  refine ⟨Memory.wf_put _ x h.fifoWf, fun p hp => ?_, fun i hi => ?_⟩
  · obtain rfl | hp := Memory.mem_put hp
    · exact h.cursor
    · exact h.fifoBound p hp
  · rw [Memory.look_put]
    split
    · rfl
    · exact h.fifoFull i hi

/-- A stored sample that does not complete the frame (R111). -/
theorem Live.storeSample (h : Live s) (x : Word) (hc : s.an.fifoIdx + 1 ≠ cfg.n) :
    Live (Machine.storeSample cfg x s) := by
  obtain ⟨hwf, hbound, hfull⟩ := fifo_put_ok h.analyzer x
  have hlt : s.an.fifoIdx + 1 < cfg.n := Nat.lt_of_le_of_ne h.session.cursor hc
  exact h.setAnalyzer { h.analyzer with
    fifoWf := hwf, fifoBound := hbound, fifoFull := hfull
    cursor := (cursor_advance h.session.cursor).trans_lt hlt }

theorem frameAnalyzer_work (c : Cfg) (s : State) : (frameAnalyzer c s).work =
    Memory.ofWords 0 (c.fftmag (windowed c s)) := rfl

/-- The analyzer after a completed frame (R112, R113). -/
theorem Live.frameAnalyzer (h : Live s) (x : Word) :
    AnalyzerOk s.sr (Machine.frameAnalyzer cfg (Machine.storeSample cfg x s)) := by
  obtain ⟨hwf, hbound, hfull⟩ := fifo_put_ok h.analyzer x
  have hlen := cfg_fftmag_length (windowed cfg (Machine.storeSample cfg x s))
  refine ⟨hwf, hbound, hfull, ?_, fun p hp => ?_, fun k hk => ?_, ?_, ?_⟩
  · rw [frameAnalyzer_work]
    exact Memory.wf_ofWords _ _
  · rw [frameAnalyzer_work] at hp
    have := (Memory.mem_ofWords hp).2
    omega
  · rw [frameAnalyzer_work, Memory.look_ofWords_zero, List.getElem?_eq_getElem (by omega)]
    rfl
  · exact h.session.cursor.pos
  · simp only [Machine.frameAnalyzer, frameEstimate_eq cfg _ hlen]
    exact estimateOn_range h.session.srFinite h.session.srPositive hlen
      fun k h0 h1 => cfg_fftmag_mirror _ h0 h1

theorem Live.push (h : Live s) (x : Word) : Live (analyzerPush cfg x s) := by
  rw [analyzerPush_spec, cursor_advance h.session.cursor]
  split
  · rw [frameReady_spec]
    refine (h.setAnalyzer (h.frameAnalyzer x)).setRamp0 ?_
    split
    · exact h.session.ramp0
    · exact rampOk_setTarget h.session.ramp0 _
  · next hc => exact h.storeSample x hc

theorem Live.sampleStep (h : Live s) (x : Word) : Live (Machine.sampleStep cfg x s).1 :=
  (h.push x).rampsNext.oscAdvance _

end

/-! ## The loops over the block buffer -/

theorem Live.sampleLoop {k i : Nat} {s : State} (h : Live s) (hk : i + k ≤ cfg.nchmax * cfg.bufcap) :
    Live (Machine.sampleLoop cfg k i s) := by
  induction k generalizing i s with
  | zero => exact h
  | succ k ih => exact ih ((h.sampleStep _).putBuf (by omega) _) (by omega)

theorem Live.scaleFlat (g : Word) {k i : Nat} {s : State} (h : Live s)
    (hk : i + k ≤ cfg.nchmax * cfg.bufcap) : Live (Machine.scaleFlat g k i s) := by
  induction k generalizing i s with
  | zero => exact h
  | succ k ih => exact ih (h.putBuf (by omega) _) (by omega)

theorem Live.scaleRamp (inc : Word) {k i : Nat} {gg : Word} {s : State} (h : Live s)
    (hk : i + k ≤ cfg.nchmax * cfg.bufcap) : Live (Machine.scaleRamp inc k i gg s) := by
  induction k generalizing i gg s with
  | zero => exact h
  | succ k ih => exact ih (h.putBuf (by omega) _) (by omega)

theorem Live.clearRun {k j : Nat} {s : State} (h : Live s) (hk : j + k ≤ cfg.nchmax * cfg.bufcap) :
    Live (Machine.clearRun k j s) := by
  induction k generalizing j s with
  | zero => exact h
  | succ k ih => exact ih (h.putBuf (by omega) _) (by omega)

theorem Live.clearChannels {len k ch : Nat} {s : State} (h : Live s) (hlen : len ≤ cfg.bufcap)
    (hk : ch + k ≤ cfg.nchmax) : Live (Machine.clearChannels cfg len k ch s) := by
  induction k generalizing ch s with
  | zero => exact h
  | succ k ih =>
    have hend : (ch + 1) * cfg.bufcap ≤ cfg.nchmax * cfg.bufcap :=
      Nat.mul_le_mul_right _ (by omega)
    rw [Nat.succ_mul] at hend
    exact ih (h.clearRun (by omega)) (by omega)

theorem Live.gainStage {len : Nat} {s : State} (h : Live s) (hlen : len ≤ cfg.nchmax * cfg.bufcap) :
    Live (Machine.gainStage len s) := by
  have hg : between fZero fOne s.snap.gainOut = true := by
    have hsnap := h.session.snap
    simp only [snapInRange, Bool.and_eq_true] at hsnap
    obtain ⟨⟨⟨⟨hg, -⟩, -⟩, -⟩, -⟩ := hsnap
    exact hg
  have h1 : Live { s with gain := { s.gain with cur := s.snap.gainOut } } :=
    h.setGain hg h.session.gainPrev
  unfold Machine.gainStage
  dsimp only
  split_ifs
  · exact h1
  · exact h1.scaleFlat _ (by omega)
  · have h2 := h1.scaleRamp (fdiv (fsub s.snap.gainOut s.gain.prev) (u2f len)) (i := 0)
      (gg := s.gain.prev) (k := len) (by omega)
    exact h2.setGain h2.session.gainCur hg

theorem Live.len_le {s : State} (h : Live s) {len : Nat} (hl : lenInRange s len = true) :
    len ≤ cfg.bufcap := ((lenInRange_iff s len).1 hl).trans h.session.mbBound

theorem bufcap_le : cfg.bufcap ≤ cfg.nchmax * cfg.bufcap := by
  rw [cfg_nchmax, cfg_bufcap]
  norm_num

theorem Live.processBlock {nch len : Nat} {s : State} (h : Live s) (hnch : nch ≤ cfg.nchmax)
    (hlen : lenInRange s len = true) : Live (Machine.processBlock cfg nch len s) := by
  have hl := h.len_le hlen
  have hl' : len ≤ cfg.nchmax * cfg.bufcap := hl.trans bufcap_le
  have hstart : Live (blockStart s) := h.latch.setRamp1 (rampOk_setTarget h.latch.session.ramp1 _)
  have hloop : Live (Machine.sampleLoop cfg len 0 (blockStart s)) := hstart.sampleLoop (by omega)
  exact (hloop.gainStage hl').clearChannels hl (by rw [cfg_nchmax] at *; omega)

/-- A streaming command with operands in range keeps the session's invariant. -/
theorem Live.body {i : Instr} {s : State} (h : Live s) (hi : i.isStreaming = true)
    (hop : operandsOk i s = true) : Live (StateProofs.body i s) := by
  cases i with
  | nop | prepare | release => cases hi
  | process nch len =>
    obtain ⟨hnch, hlen⟩ := Bool.and_eq_true_iff.1 hop
    exact h.processBlock ((channelsInRange_iff cfg nch).1 hnch).2 hlen
  | latch => exact h.latch
  | push => exact h.push s.opa
  | estimate | afreq => exact h.congr rfl
  | rreset r =>
    obtain rfl | rfl := rampInRange_cases hop
    · exact h.setRamp0 (rampOk_reset _ _ _)
    · exact h.setRamp1 (rampOk_reset _ _ _)
  | rset r =>
    obtain rfl | rfl := rampInRange_cases hop
    · exact h.setRamp0 (rampOk_setTarget h.session.ramp0 _)
    · exact h.setRamp1 (rampOk_setTarget h.session.ramp1 _)
  | rnext r =>
    obtain rfl | rfl := rampInRange_cases hop
    · exact (h.setRamp0 (rampOk_next h.session.ramp0)).congr rfl
    · exact (h.setRamp1 (rampOk_next h.session.ramp1)).congr rfl
  | oscnext => exact (h.oscAdvance s.opa).congr rfl
  | sample => exact (h.sampleStep s.opa).congr rfl
  | gainstg len => exact h.gainStage ((h.len_le hop).trans bufcap_le)

/-! ## The invariant between two operations -/

/-- The part of the invariant that holds while a command executes too: that on the memories, the cursor
and an open session. -/
structure Kept (s : State) : Prop where
  memories : MemoriesWf cfg s
  cursorWidth : s.an.fifoIdx < 2 ^ (cfg.log2n + 1)
  session : s.inSession = true → SessionOk cfg s

section
variable {s t : State}

theorem Kept.live (h : Kept s) (hs : s.inSession = true) : Live s := ⟨h.memories, h.session hs⟩

theorem Live.kept (h : Live s) : Kept s := by
  refine ⟨h.memories, h.session.cursor.trans ?_, fun _ => h.session⟩
  exact Nat.pow_lt_pow_right (by norm_num) (Nat.lt_succ_self _)

theorem Kept.congr (h : Kept s) (e : contextOf t = contextOf s) (hlc : t.lc = s.lc) : Kept t := by
  have hs : t.inSession = s.inSession := by rw [State.inSession, State.inSession, hlc]
  refine ⟨?_, ?_, fun ht => (Live.congr (h.live (hs ▸ ht)) e).session⟩
  · show MemoriesWf cfg (contextOf t)
    rw [e]
    exact h.memories
  · show (contextOf t).an.fifoIdx < _
    rw [e]
    exact h.cursorWidth

theorem Kept.bufOk (h : Kept s) : BufOk s.buf := by
  obtain ⟨-, -, -, -, hb⟩ := h.memories
  exact hb

theorem Kept.setBuf (h : Kept s) {m : Memory} (hm : BufOk m) : Kept { s with buf := m } := by
  obtain ⟨hf, hw, hh, hs, -⟩ := h.memories
  exact ⟨⟨hf, hw, hh, hs, hm⟩, h.cursorWidth, fun hl => ((h.live hl).setBuf hm).session⟩

theorem table_ok {n m : Nat} (f : Nat → Word) (h : n ≤ m) :
    (Memory.ofTable n f).wf ∧ ∀ p ∈ Memory.ofTable n f, p.1 < m :=
  ⟨Memory.wf_ofTable n f, fun _ hp => (Memory.mem_ofTable hp).trans_le h⟩

theorem table_full {n m : Nat} (f : Nat → Word) (h : m ≤ n) (i : Nat) (hi : i < m) :
    ((Memory.ofTable n f).look i).isSome = true := by
  rw [Memory.look_ofTable f (hi.trans_le h)]
  rfl

theorem rampOk_prepared (dur sr : Word) : RampOk dur sr
    { cur := fZero, tgt := fZero, step := fZero, rem := 0#32, len := f2uFloorSat (fmul dur sr) } :=
  ⟨Nat.zero_le _, fun _ => feq_self_or_nan fZero, rfl⟩

/-- `PREPARE` opens a session in which the invariant holds (R211). -/
theorem live_prepare (hbuf : BufOk s.buf) (hargs : prepareArgsOk cfg s = true) :
    Live (prepareEffect cfg s) := by
  obtain ⟨hfin, hpos, hmb, hmb'⟩ := (prepareArgsOk_iff cfg s).1 hargs
  have hgain : between fZero fOne (latchedSnapshot s).gainOut = true := between_unit _
  have hn : 0 < cfg.n := by rw [cfg_n]; norm_num
  have hmem : MemoriesWf cfg (prepareEffect cfg s) := by
    unfold MemoriesWf
    rw [prepareEffect_an, prepareEffect_hann, prepareEffect_sine, prepareEffect_buf]
    dsimp only
    exact ⟨table_ok _ (le_refl _), table_ok _ (le_refl _), table_ok _ (le_refl _),
      table_ok _ (le_refl _), hbuf⟩
  have hphase : phaseInRange cfg.t fZero = true := by rw [cfg_t]; decide +kernel
  have hfifo := table_full (fun _ => fZero) (le_refl cfg.n)
  have hspec := table_full (fun _ => fZero) (Nat.le_mul_of_pos_left cfg.n two_pos)
  refine ⟨hmem, ?_⟩
  rw [(prepareEffect_spec cfg s).1]
  exact {
    srFinite := hfin
    srPositive := hpos
    mbPositive := hmb
    mbBound := hmb'
    snap := latchedSnapshot_inRange s
    cursor := hn
    fifoFull := by dsimp only; exact hfifo
    specFull := by dsimp only; exact hspec
    detFreq := .inl rfl
    hann := by dsimp only
    sine := by dsimp only
    ramp0 := rampOk_prepared _ _
    ramp1 := rampOk_prepared _ _
    phase := hphase
    gainCur := hgain
    gainPrev := hgain }

/-- A state without a session whose context lists nothing but `BUF`. -/
theorem kept_of_no_session (hs : s.inSession = false) (hfifo : s.an.fifo = [])
    (hwork : s.an.work = []) (hhann : s.hann = []) (hsine : s.sine = []) (hbuf : BufOk s.buf)
    (hcursor : s.an.fifoIdx < 2 ^ (cfg.log2n + 1)) : Kept s := by
  have empty : ∀ n, Memory.wf [] ∧ ∀ p ∈ ([] : Memory), p.1 < n := fun n =>
    ⟨List.Pairwise.nil, fun p hp => by cases hp⟩
  refine ⟨?_, hcursor, fun h => by rw [hs] at h; cases h⟩
  unfold MemoriesWf
  rw [hfifo, hwork, hhann, hsine]
  exact ⟨empty _, empty _, empty _, empty _, hbuf⟩

theorem Kept.release (h : Kept s) : Kept (releaseEffect cfg s) := by
  have discarded : Kept { discardContext cfg s with lc := .released } :=
    kept_of_no_session rfl rfl rfl rfl rfl h.bufOk (Nat.mod_lt _ (Nat.two_pow_pos _))
  unfold releaseEffect
  split
  · exact discarded
  · exact discarded
  · exact discarded
  · exact h

theorem Kept.effect {i : Instr} (h : Kept s) (ha : admits i s = true) :
    Kept (StateProofs.effect i s) := by
  obtain ⟨hs, hop⟩ := (admits_iff i s).1 ha
  cases hi : i.isStreaming with
  | true =>
    have hrun : Live (running s) := (h.live (hs hi)).congr rfl
    rw [StateProofs.effect, if_pos hi]
    exact (hrun.body hi ((operandsOk_running i s).trans hop)).kept
  | false =>
    cases i with
    | nop => exact h
    | prepare => exact (live_prepare h.bufOk hop).kept
    | release => exact h.release
    | _ => cases hi

theorem Kept.executeWord {w : Word} (h : Kept s) (hw : executeWord cfg w s = .next t) : Kept t := by
  obtain ⟨i, ha, rfl⟩ | ⟨k, w', rfl⟩ := executeWord_cases hw
  · exact h.effect ha
  · exact h.congr rfl rfl

theorem Kept.writeElem (h : Kept s) (a : Nat) (v : Word) :
    Kept (Machine.writeElem (hostElem cfg a) v s) := by
  have hbuf : BufOk (Machine.writeElem (hostElem cfg a) v s).buf := by
    obtain hb | ⟨j, hj, hb⟩ := writeElem_buf (hostElem cfg a) v s
    · rw [hb]
      exact h.bufOk
    · rw [hb]
      exact bufOk_put h.bufOk (hostElem_buf_lt hj) v
  exact (h.setBuf hbuf).congr (by rw [writeElem_frame]; rfl) (by rw [writeElem_frame])

/-! ## The steps keep the invariant -/

theorem inv_iff (s : State) : Inv cfg s ↔
    s.busy = false ∧ s.race = [] ∧ FaultsConsistent s.faults ∧ Kept s :=
  ⟨fun h => ⟨h.idle, h.noRace, h.faults, h.memories, h.cursorWidth, h.session⟩,
    fun ⟨hb, hr, hf, hk⟩ => ⟨hb, hr, hf, hk.memories, hk.cursorWidth, hk.session⟩⟩

theorem kept_resetEffect (s : State) : Kept (resetEffect s) :=
  kept_of_no_session rfl rfl rfl rfl rfl ⟨List.Pairwise.nil, fun p hp => by cases hp⟩
    (Nat.two_pow_pos _)

theorem noFaults_consistent : FaultsConsistent State.reset.faults :=
  .inl ⟨rfl, rfl, fun k => by cases k <;> rfl⟩

theorem inv_resetEffect (s : State) : Inv cfg (resetEffect s) :=
  (inv_iff _).2 ⟨rfl, rfl, noFaults_consistent, kept_resetEffect s⟩

/-- Settles O48: at reset nothing is listed, no session is open and no fault is recorded (R41). -/
theorem invariantHoldsAtReset : Obligations.InvariantHoldsAtReset := by
  unfold Obligations.InvariantHoldsAtReset
  exact (inv_iff _).2 ⟨rfl, rfl, noFaults_consistent, (kept_resetEffect State.reset).congr rfl rfl⟩

theorem atMostOneFault_consistent {f g : FaultRecord} (h : FaultsConsistent f)
    (hg : AtMostOneFault f g) : FaultsConsistent g := by
  obtain rfl | ⟨k, w, rfl⟩ := hg
  · exact h
  · exact record_ne f k w h

theorem inv_ranCommand (h : Inv cfg s) (ht : RanCommand s t) : Inv cfg t := by
  obtain ⟨-, -, hf, hk⟩ := (inv_iff s).1 h
  have hfaults := atMostOneFault_consistent hf (ranCommand_faults ht)
  obtain ⟨w, m, u, hu, rfl⟩ := ht
  have hstart : Kept (beginCommand m s) := hk.congr rfl rfl
  have hend := (hstart.executeWord hu).congr (t := endCommand m (beginCommand m s) u)
    (by rw [endCommand_frame]; rfl) (by rw [endCommand_frame])
  exact (inv_iff _).2 ⟨rfl, by rw [endCommand_frame], hfaults, hend⟩

theorem inv_wroteElement (h : Inv cfg s) (ht : WroteElement s t) : Inv cfg t := by
  obtain ⟨hb, hr, hf, hk⟩ := (inv_iff s).1 h
  have hfaults := wroteElement_faults ht
  obtain ⟨a, v, ops, rfl⟩ := ht
  have hend := (hk.writeElem a v).congr (t := ops.foldl ctlApply (writeElem (hostElem cfg a) v s))
    (by rw [ctlOps_frame]; rfl) (by rw [ctlOps_frame])
  refine (inv_iff _).2 ⟨?_, ?_, hfaults ▸ hf, hend⟩
  · rw [ctlOps_frame, writeElem_frame]
    exact hb
  · rw [ctlOps_frame, writeElem_frame]
    exact hr

theorem inv_onlyReads (h : Inv cfg s) (ht : OnlyReads s t) : Inv cfg t := by
  obtain ⟨hb, hr, hf, hk⟩ := (inv_iff s).1 h
  rw [ht]
  exact (inv_iff _).2 ⟨hb, hr, hf, hk.congr rfl rfl⟩

theorem inv_perform {e : Event} (h : Inv cfg s) (hp : perform cfg e s = .next t) : Inv cfg t := by
  obtain ⟨-, rfl⟩ | ht | ht | ht := perform_cases hp
  · exact inv_resetEffect s
  · exact inv_ranCommand h ht
  · exact inv_wroteElement h ht
  · exact inv_onlyReads h ht

end

/-- Settles O49: each kind of operation keeps the invariant; a command does so by its effect, element by
element (R24, R26, R29, R30, R32, R34 to R39). -/
theorem everyStepKeepsTheInvariant : Obligations.EveryStepKeepsTheInvariant := by
  unfold Obligations.EveryStepKeepsTheInvariant
  intro s t h hstep
  obtain ⟨-, rfl⟩ | ⟨e, rest, -, hp⟩ := step_cases hstep
  · exact h
  · obtain ⟨hb, hr, hf, hk⟩ := (inv_iff s).1 h
    have htaken : Inv cfg { s with pending := rest } :=
      (inv_iff _).2 ⟨hb, hr, hf, hk.congr rfl rfl⟩
    exact inv_perform htaken hp

end Sys2Proof.StateProofs
end

section
/-! PROOFS. The state: what `PREPARE` and the latch leave (R29, R211), and the cadence of the frames (R114). -/

namespace Sys2Proof.StateProofs

open Sys2Proof.Machine Sys2Proof.Safety

/-! ## The latch and `PREPARE` -/

theorem admits_of_session {i : Instr} {s : State} (hs : s.inSession = true)
    (hop : operandsOk i s = true) : admits i s = true :=
  (admits_iff i s).2 ⟨fun _ => hs, hop⟩

theorem process_operandsOk {nch len : Nat} {s : State} (h1 : 1 ≤ nch) (h2 : nch ≤ 2)
    (hlen : len ≤ s.mb.toNat) : operandsOk (.process nch len) s = true :=
  Bool.and_eq_true_iff.2 ⟨(channelsInRange_iff cfg nch).2 ⟨h1, h2⟩, (lenInRange_iff s len).2 hlen⟩

theorem admits_prepare {s : State} (hfin : isFinite s.sampleRate = true)
    (hpos : fgt s.sampleRate fZero = true) (h1 : 1 ≤ s.maxBlk.toNat) (h2 : s.maxBlk.toNat ≤ 8192) :
    admits .prepare s = true :=
  (prepareArgsOk_iff cfg s).2 ⟨hfin, hpos, h1, h2⟩

/-- Settles O20: each latching command leaves the snapshot that its latch took (R29, R181). -/
theorem latchedSnapshotIsInRange : Obligations.LatchedSnapshotIsInRange := by
  unfold Obligations.LatchedSnapshotIsInRange
  intro s
  refine ⟨fun hlc => ⟨⟨_, exec_of_admits (admits_of_session ?_ rfl), ?_⟩,
    fun nch len h1 h2 hlen => ⟨_, exec_of_admits (admits_of_session ?_ ?_), ?_⟩⟩,
    fun hfin hpos h1 h2 => ⟨_, exec_of_admits (admits_prepare hfin hpos h1 h2), ?_⟩⟩
  · exact (inSession_iff s).2 hlc
  · rw [show effect .latch s = latchParams (running s) from rfl, latchParams_snap]
    exact latchedSnapshot_inRange _
  · exact (inSession_iff s).2 hlc
  · exact process_operandsOk h1 h2 hlen
  · rw [show effect (.process nch len) s = processBlock cfg nch len (running s) from rfl,
      processBlock_frame]
    exact latchedSnapshot_inRange _
  · rw [show effect .prepare s = prepareEffect cfg s from rfl, prepareEffect_snap]
    exact latchedSnapshot_inRange _

/-- Settles O15: the frame of `PREPARE`, with the tables and memories read element by element (R43,
R211). -/
theorem prepareInitialisesTheSession : Obligations.PrepareInitialisesTheSession := by
  unfold Obligations.PrepareInitialisesTheSession
  intro s hfin hpos h1 h2
  obtain ⟨hframe, hcells, hquiet⟩ := prepareEffect_spec cfg s
  refine ⟨prepareEffect cfg s, exec_of_admits (admits_prepare hfin hpos h1 h2), ?_, fun i hi => ?_,
    fun n hn => ?_, fun n hn => ?_, fun n hn => ?_, hcells, fun h => (hquiet h).1⟩
  · conv_lhs => rw [hframe]
    simp [prepareEffect_outputs, fZero]
  · rw [prepareEffect_sine, cfg_sintab, Memory.look_ofTable _ (by rw [cfg_t]; exact hi)]
  · rw [prepareEffect_hann, cfg_hanntab, Memory.look_ofTable _ (by rw [cfg_n]; exact hn)]
  · rw [prepareEffect_an]
    dsimp only
    exact Memory.look_ofTable _ (by rw [cfg_n]; exact hn)
  · rw [prepareEffect_an]
    dsimp only
    exact Memory.look_ofTable _ (by rw [cfg_n]; omega)

/-! ## The cadence of the frames -/

/-- The analyzer after `M` samples since `PREPARE` (R114). -/
def AtSample (M : Nat) (a : Analyzer) : Prop :=
  a.fifoIdx = M % 4096 ∧ a.frameCnt = BitVec.ofNat 32 (M / 4096)

theorem atSample_push {M : Nat} {s : State} (h : AtSample M s.an) (x : Word) :
    AtSample (M + 1) (analyzerPush cfg x s).an := by
  obtain ⟨hidx, hcnt⟩ := h
  have hlt : s.an.fifoIdx < cfg.n := by rw [cfg_n]; omega
  rw [analyzerPush_spec, cursor_advance hlt, cfg_n]
  split
  · next hfull =>
    have hdiv : (M + 1) / 4096 = M / 4096 + 1 := by omega
    rw [frameReady_spec]
    refine ⟨show 0 = _ by omega, ?_⟩
    show s.an.frameCnt + 1#32 = _
    rw [hcnt, hdiv, BitVec.ofNat_add]
  · next hpart =>
    have hdiv : (M + 1) / 4096 = M / 4096 := by omega
    refine ⟨?_, by rw [hdiv]; exact hcnt⟩
    rw [storeSample_an]
    dsimp only
    rw [cursor_advance hlt]
    omega

theorem sampleStep_an (c : Cfg) (x : Word) (s : State) :
    (sampleStep c x s).1.an = (analyzerPush c x s).an := by
  simp only [sampleStep, oscAdvance_an, rampsNext_an]

theorem atSample_sampleLoop {M k i : Nat} {s : State} (h : AtSample M s.an) :
    AtSample (M + k) (sampleLoop cfg k i s).an := by
  induction k generalizing M i s with
  | zero => exact h
  | succ k ih =>
    rw [show M + (k + 1) = M + 1 + k by omega]
    refine ih (s := setBuf i (sampleStep cfg (bufElem s i) s).2 (sampleStep cfg (bufElem s i) s).1) ?_
    rw [setBuf_an, sampleStep_an]
    exact atSample_push h _

/-- The block works on the analyzer in its sample loop only. -/
theorem processBlock_an (c : Cfg) (nch len : Nat) (s : State) :
    (processBlock c nch len s).an = (sampleLoop c len 0 (blockStart s)).an := by
  rw [processBlock_eq, (clearExtra_spec c nch len _).1, (gainStage_spec len _).1]

theorem blockStart_an (s : State) : (blockStart s).an = s.an := by
  rw [blockStart_core]
  rfl

/-- A command that pushes samples, with the operands in range for the latched `MB` (R114). -/
def PushesSamples (mb : Word) (i : Instr) : Prop :=
  i = .push ∨ i = .sample ∨
    ∃ nch len, i = .process nch len ∧ 1 ≤ nch ∧ nch ≤ 2 ∧ len ≤ mb.toNat

/-- Such a command runs in a session, advances the cadence and keeps the session. -/
theorem pushesSamples_effect {i : Instr} {M : Nat} {s : State} (hi : PushesSamples s.mb i)
    (hs : s.inSession = true) (h : AtSample M s.an) : admits i s = true ∧
      (effect i s).inSession = true ∧ (effect i s).mb = s.mb ∧
      AtSample (M + samplesPushed i) (effect i s).an := by
  have hstream : i.isStreaming = true := by
    obtain rfl | rfl | ⟨nch, len, rfl, -⟩ := hi <;> rfl
  have hop : operandsOk i s = true := by
    obtain rfl | rfl | ⟨nch, len, rfl, h1, h2, hlen⟩ := hi
    · rfl
    · rfl
    · exact process_operandsOk h1 h2 hlen
  have ha := admits_of_session hs hop
  refine ⟨ha, (inSession_iff _).2 (.inr (effect_lc ha hstream)), effect_mb ha hstream, ?_⟩
  obtain rfl | rfl | ⟨nch, len, rfl, -⟩ := hi
  · exact atSample_push (s := running s) h _
  · rw [show effect .sample s = setRes (sampleStep cfg s.opa (running s)).2
      (sampleStep cfg s.opa (running s)).1 from rfl, setRes_an, sampleStep_an]
    exact atSample_push (s := running s) h _
  · rw [show effect (.process nch len) s = processBlock cfg nch len (running s) from rfl,
      processBlock_an]
    exact atSample_sampleLoop (by rw [blockStart_an]; exact h)

/-- A stream of such commands runs to its end. -/
theorem runFeeds_cadence {fs : List Feed} {M : Nat} {s : State} (hs : s.inSession = true)
    (h : AtSample M s.an) (hfs : ∀ f ∈ fs, PushesSamples s.mb f.cmd) :
    ∃ u, runFeeds fs s = .next u ∧ AtSample (M + samplesOf fs) u.an := by
  induction fs generalizing M s with
  | nil => exact ⟨s, rfl, h⟩
  | cons f fs ih =>
    obtain ⟨ha, hs', hmb, han⟩ := pushesSamples_effect
      (s := { s with opa := f.opa, buf := f.buf, race := f.race })
      (hfs f List.mem_cons_self) hs h
    obtain ⟨u, hu, hau⟩ := ih hs' han fun g hg => by
      rw [hmb]
      exact hfs g (List.mem_cons_of_mem f hg)
    refine ⟨u, ?_, ?_⟩
    · rw [runFeeds, exec_of_admits ha]
      exact hu
    · rw [samplesOf, List.map_cons, List.sum_cons, ← Nat.add_assoc]
      exact hau

/-- Settles O25: `PREPARE` leaves the analyzer at sample 0, and every pushing command advances it by the
samples it pushes (R112, R114). -/
theorem frameCadenceAfterPrepare : Obligations.FrameCadenceAfterPrepare := by
  unfold Obligations.FrameCadenceAfterPrepare
  intro s fs hfin hpos h1 h2 hfs
  have hstart : AtSample 0 (prepareEffect cfg s).an := by
    rw [prepareEffect_an]
    exact ⟨rfl, rfl⟩
  obtain ⟨u, hu, hidx, hcnt⟩ := runFeeds_cadence (s := prepareEffect cfg s) (fs := fs)
    ((inSession_iff _).2 (.inl (prepareEffect_lc cfg s))) hstart (by rw [prepareEffect_mb]; exact hfs)
  rw [Nat.zero_add] at hidx hcnt
  exact ⟨_, u, exec_of_admits (admits_prepare hfin hpos h1 h2), hu, hidx, hcnt⟩

end Sys2Proof.StateProofs
end

section
/-! PROOFS. The ports (`spec/20_memory.md`): host reads and writes (R65 to R69), the control port (R70,
R240) and the bus wrapper (R61, R64). -/

namespace Sys2Proof.MemoryProofs

open Sys2Proof.Machine Sys2Proof.Safety Sys2Proof.StateProofs

/-! ## Host reads -/

theorem hostRead_of_content {c : Cfg} {a : HostAddr} {s : State} {v : Word}
    (h : elemContent c s (hostElem c a.toNat) = some v) :
    hostRead c a s = { s with outputs := .host a v :: s.outputs } := by
  unfold hostRead
  rw [h]

theorem hostRead_of_no_content {c : Cfg} {a : HostAddr} {s : State}
    (h : elemContent c s (hostElem c a.toNat) = none) :
    hostRead c a s = { s with
      outputs := .host a (Config.unspecified s.draws a.toNat) :: s.outputs
      draws := s.draws + 1 } := by
  unfold hostRead
  rw [h]

/-- The queue is no element of the block: no content depends on it (R62). -/
theorem elemContent_pending (c : Cfg) (s : State) (e : HostElem) (p : List Event) :
    elemContent c { s with pending := p } e = elemContent c s e := by
  cases e <;> rfl

/-- Settles O51: the read shows the element's content, or a draw where it has none (R65, R66). -/
theorem hostReadHasNoSideEffect : Obligations.HostReadHasNoSideEffect := by
  unfold Obligations.HostReadHasNoSideEffect
  intro s a rest hp
  have content := elemContent_pending cfg s (hostElem cfg a.toNat) rest
  rw [step_of_pending hp, perform]
  cases hc : elemContent cfg s (hostElem cfg a.toNat) with
  | some x =>
    rw [hostRead_of_content (content.trans hc)]
    exact ⟨_, x, rfl, rfl, fun y hy => ⟨Option.some.inj hy, rfl⟩⟩
  | none =>
    rw [hostRead_of_no_content (content.trans hc)]
    exact ⟨_, _, rfl, rfl, fun y hy => nomatch hy⟩

/-! ## Host writes -/

theorem hostWrite_element {c : Cfg} {a : HostAddr} (h : hostElem c a.toNat ≠ .cmd) (v : Word)
    (m : Meanwhile) (s : State) : hostWrite c a v m s =
      .next (m.ctl.flatten.foldl ctlApply (writeElem (hostElem c a.toNat) v s)) := by
  unfold hostWrite
  split
  · next hcmd => exact absurd hcmd h
  · rfl

theorem writeElem_pending (e : HostElem) (v : Word) (s : State) :
    (writeElem e v s).pending = s.pending := by
  rw [writeElem_frame]

theorem writeElem_outputs (e : HostElem) (v : Word) (s : State) :
    (writeElem e v s).outputs = s.outputs := by
  rw [writeElem_frame]

/-- The step of a host write to an element other than `CMD`, with nothing happening meanwhile (R67). -/
theorem step_of_elementWrite {s : State} {a : HostAddr} {v : Word} {rest : List Event}
    (hp : s.pending = .hostWrite a v {} :: rest) (h : hostElem cfg a.toNat ≠ .cmd) :
    step s = .next (writeElem (hostElem cfg a.toNat) v { s with pending := rest }) := by
  rw [step_of_pending hp]
  exact hostWrite_element h v {} _

/-- The elements, `CMD` apart, at which a host write is ignored: read-only and unmapped (R67, R69). -/
def ignoresWrites : HostElem → Bool
  | .cmd | .opa | .sampleRate | .maxBlk | .cell _ | .buf _ => false
  | _ => true

theorem writeElem_of_ignored {e : HostElem} (h : ignoresWrites e = true) (v : Word) (s : State) :
    writeElem e v s = s := by
  cases e with
  | cmd | opa | sampleRate | maxBlk | cell | buf => cases h
  | _ => rfl

theorem ne_cmd_of_ignored {e : HostElem} (h : ignoresWrites e = true) : e ≠ .cmd := by
  rintro rfl
  cases h

theorem register_ignoresWrites : ∀ a < 0x3D, a ∉ [0, 2, 4, 5, 0x10, 0x11, 0x12, 0x13, 0x14] →
    ignoresWrites (hostElem cfg a) = true := by decide

/-- Of the windows only `BUF` takes host writes (R62, R67). -/
theorem window_ignoresWrites {a : Nat} (h : ¬ (0x40000 ≤ a ∧ a < 0x44000)) :
    ignoresWrites (windowElem cfg a) = true := by
  have hbuf : ¬ (bufBase ≤ a ∧ a < bufBase + cfg.nchmax * cfg.bufcap) := by
    rw [bufBase, cfg_nchmax, cfg_bufcap]
    exact h
  unfold windowElem
  rw [if_neg hbuf]
  split_ifs <;> rfl

/-- Settles O55: at every other index stands an element that ignores writes (R67, R69). -/
theorem readOnlyAndUnmappedWritesAreIgnored : Obligations.ReadOnlyAndUnmappedWritesAreIgnored := by
  unfold Obligations.ReadOnlyAndUnmappedWritesAreIgnored
  intro s a v rest hp h0 h2 h4 h5 hcell hbuf
  have hignored : ignoresWrites (hostElem cfg a.toNat) = true := by
    by_cases ha : a.toNat < 0x3D
    · refine register_ignoresWrites _ ha ?_
      simp only [List.mem_cons, List.not_mem_nil, or_false]
      omega
    · rw [hostElem_window _ (by omega)]
      exact window_ignoresWrites hbuf
  rw [step_of_elementWrite hp (ne_cmd_of_ignored hignored), writeElem_of_ignored hignored]

/-! ## The elements a host may write -/

/-- The RW elements with their word indices (R62). -/
inductive RwElem : Nat → HostElem → Prop
  | opa : RwElem 2 .opa
  | sampleRate : RwElem 4 .sampleRate
  | maxBlk : RwElem 5 .maxBlk
  | cell {c : Nat} (h : c < 5) : RwElem (0x10 + c) (.cell c)
  | buf {j : Nat} (h : j < 16384) : RwElem (0x40000 + j) (.buf j)

theorem hostElem_cell {c : Nat} (h : c < 5) : hostElem cfg (0x10 + c) = .cell c := by
  interval_cases c <;> rfl

theorem rwElem_hostElem {a : Nat} (h : a = 2 ∨ a = 4 ∨ a = 5 ∨ (0x10 ≤ a ∧ a ≤ 0x14) ∨
    (0x40000 ≤ a ∧ a < 0x44000)) : RwElem a (hostElem cfg a) := by
  obtain rfl | rfl | rfl | ⟨hlo, hhi⟩ | ⟨hlo, hhi⟩ := h
  · exact .opa
  · exact .sampleRate
  · exact .maxBlk
  · obtain ⟨c, rfl⟩ := Nat.exists_eq_add_of_le hlo
    rw [hostElem_cell (by omega)]
    exact .cell (by omega)
  · obtain ⟨j, rfl⟩ := Nat.exists_eq_add_of_le hlo
    rw [hostElem_buf (by omega)]
    exact .buf (by omega)

theorem RwElem.ne_cmd {a : Nat} {e : HostElem} (h : RwElem a e) : e ≠ .cmd := by
  cases h <;> exact HostElem.noConfusion

/-- What a write to an RW element leaves unchanged (R67). -/
theorem RwElem.write_frame {a : Nat} {e : HostElem} (h : RwElem a e) (v : Word) (s : State) :
    writeElem e v s = { s with
      opa := if a = 2 then v else s.opa
      sampleRate := if a = 4 then v else s.sampleRate
      maxBlk := if a = 5 then v else s.maxBlk
      cells := (writeElem e v s).cells
      buf := (writeElem e v s).buf } := by
  cases h with
  | opa | sampleRate | maxBlk => rfl
  | cell | buf => rw [if_neg (by omega), if_neg (by omega), if_neg (by omega)]; rfl

theorem RwElem.write_cells {a : Nat} {e : HostElem} (h : RwElem a e) (v : Word) (s : State) {k : Nat}
    (hk : k < 5) :
    (writeElem e v s).cells.read k = if a = 0x10 + k then v else s.cells.read k := by
  cases h with
  | opa | sampleRate | maxBlk | buf => rw [if_neg (by omega)]; rfl
  | cell => simp only [writeElem, Cells.read_write _ _ _ _ hk, Nat.add_left_cancel_iff]

theorem RwElem.write_buf {a : Nat} {e : HostElem} (h : RwElem a e) (v : Word) (s : State) (j : Nat) :
    (writeElem e v s).buf.look j = if a = 0x40000 + j then some v else s.buf.look j := by
  cases h with
  | opa | sampleRate | maxBlk | cell => rw [if_neg (by omega)]; rfl
  | buf => simp only [writeElem, setBuf_buf, Memory.look_put, Nat.add_left_cancel_iff, eq_comm]

/-- An RW element holds the pattern written to it (R65, R67). -/
theorem RwElem.content_write {a : Nat} {e : HostElem} (h : RwElem a e) (c : Cfg) (v : Word)
    (s : State) : elemContent c (writeElem e v s) e = some v := by
  cases h with
  | opa | sampleRate | maxBlk => rfl
  | cell hc => exact congrArg some ((Cells.read_write _ _ _ v hc).trans (if_pos rfl))
  | buf => exact Memory.look_put_self _ _ v

/-- Settles O54: the write sets the one element that stands at the index, which the read then shows
(R65, R67). -/
theorem writeThenReadBack : Obligations.WriteThenReadBack := by
  unfold Obligations.WriteThenReadBack
  intro s a v rest hp ha
  have hrw := rwElem_hostElem ha
  refine ⟨_, _, step_of_elementWrite hp hrw.ne_cmd, ?_, rfl, hrw.write_frame v _,
    fun k => hrw.write_cells v _, hrw.write_buf v _⟩
  rw [step_of_pending (writeElem_pending _ v _), perform,
    hostRead_of_content ((elemContent_pending cfg _ _ rest).trans (hrw.content_write cfg v _)),
    writeElem_outputs]

/-! ## The control port -/

theorem cells_read_none (x : Cells) {k : Nat} (h : 5 ≤ k) : x.read k = 0#32 := by
  obtain ⟨d, rfl⟩ := Nat.exists_eq_add_of_le' h
  rfl

theorem cells_read_write_other (x : Cells) {k j : Nat} (v : Word) (h : j ≠ k) :
    (x.write k v).read j = x.read j := by
  by_cases hj : j < 5
  · rw [Cells.read_write x k j v hj, if_neg h.symm]
  · rw [cells_read_none _ (by omega), cells_read_none _ (by omega)]

/-- The five cells by name, and nothing beyond them (R28, R67). -/
theorem cells_read_eq (x : Cells) (k : Nat) : x.read k = if k = 0 then x.gainOut
    else if k = 1 then x.fbGain else if k = 2 then x.offset else if k = 3 then x.tol
    else if k = 4 then x.detune else 0#32 := by
  by_cases hk : k < 5
  · interval_cases k <;> rfl
  · rw [cells_read_none x (by omega)]
    simp only [show k ≠ 0 ∧ k ≠ 1 ∧ k ≠ 2 ∧ k ≠ 3 ∧ k ≠ 4 by omega, if_false]

/-- Settles O56: a control write changes one cell at most, a control read adds its result (R67, R240). -/
theorem controlPortReachesOnlyTheCells : Obligations.ControlPortReachesOnlyTheCells := by
  unfold Obligations.ControlPortReachesOnlyTheCells
  intro s k v rest
  refine ⟨fun hp => ⟨s.cells.write k v, step_of_pending hp, fun j => cells_read_write_other s.cells v,
    fun hk => ?_, Cells.write_none s.cells v⟩, fun hp => ⟨_, step_of_pending hp, cells_read_eq _ k⟩⟩
  rw [Cells.read_write _ _ _ _ hk, if_pos rfl]

/-! ## The bus wrapper -/

theorem busForwards_iff (addr : ByteAddr) (size : Nat) :
    busForwards addr size = true ↔ size = 4 ∧ addr.toNat % 4 = 0 := by
  simp only [busForwards, Bool.and_eq_true, decide_eq_true_eq]

theorem busIndex_eq (addr : ByteAddr) : busIndex addr = BitVec.ofNat 19 (addr.toNat / 4) := by
  refine BitVec.eq_of_toNat_eq ?_
  simp only [busIndex, BitVec.extractLsb'_toNat, Nat.shiftRight_eq_div_pow, BitVec.toNat_ofNat]

/-- Settles O57: a forwarded access is the host access of its word, a refused one adds at most the result
0 (R61, R64). -/
theorem busWrapperRefusesOtherAccesses : Obligations.BusWrapperRefusesOtherAccesses := by
  unfold Obligations.BusWrapperRefusesOtherAccesses
  intro s addr size v m rest
  refine ⟨fun hsize halign => ?_, fun hother => ?_⟩
  · have hforward := (busForwards_iff addr size).2 ⟨hsize, halign⟩
    rw [← busIndex_eq]
    refine ⟨fun hp => ?_, fun hp => ?_⟩ <;> rw [step_of_pending hp, step_of_pending rfl] <;>
      exact if_pos hforward
  · have hrefuse : ¬ busForwards addr size = true := by
      rw [busForwards_iff]
      omega
    refine ⟨fun hp => ?_, fun hp => ?_⟩ <;> rw [step_of_pending hp] <;> exact if_neg hrefuse

end Sys2Proof.MemoryProofs
end

section
/-! PROOFS. The ports (`spec/20_memory.md`): a command and what other agents do while it executes (R67 to
R73). -/

namespace Sys2Proof.MemoryProofs

open Sys2Proof.Machine Sys2Proof.Safety Sys2Proof.StateProofs

/-! ## The step of a command -/

/-- Settles O5: the step is the command between its begin and its end, and the end changes the cells and
the results by what other agents still had to do (R67, R68, R70). -/
theorem stepRunsTheDecodedCommand : Obligations.StepRunsTheDecodedCommand := by
  unfold Obligations.StepRunsTheDecodedCommand
  intro s t w m rest i hp hd _ hexec
  have hframe := endCommand_frame m (beginCommand m { s with pending := rest }) t
  rw [endCommand_outputs] at hframe
  exact ⟨_, Scope.step_of_command hp hd hexec, hframe, fun k => endCommand_cells m _ t⟩

/-! ## A latch between two writes -/

/-- A session in which `P_GAINOUT` and `P_FBGAIN` hold 0.5 and the control agent writes 1.0 to both
between the first two loads of the latch. -/
def betweenLoads : State :=
  { State.reset with
    lc := .prepared
    cells := { State.reset.cells with gainOut := 0x3F000000#32, fbGain := 0x3F000000#32 }
    race := [[], [.write 0 0x3F800000#32, .write 1 0x3F800000#32]] }

/-- Settles O22: `LATCH` in `betweenLoads` has loaded the old `P_GAINOUT` and loads the new `P_FBGAIN`
(R70, R73). -/
theorem latchMayMixOldAndNewCells : Obligations.LatchMayMixOldAndNewCells := by
  unfold Obligations.LatchMayMixOldAndNewCells
  have hold : loadedCell (running betweenLoads) 0 = 0x3F000000#32 := rfl
  have hnew : loadedCell (running betweenLoads) 1 = 0x3F800000#32 := rfl
  refine ⟨betweenLoads, latchParams (running betweenLoads),
    exec_of_admits (admits_of_session rfl rfl), rfl, rfl, rfl, rfl, ?_, ?_⟩
  · rw [latchParams_snap, latchedSnapshot, hold]
    exact Scope.clampF_within (show between fZero fOne 0x3F000000#32 = true by decide)
  · rw [latchParams_snap, latchedSnapshot, hnew]
    exact Scope.clampF_within (show between fZero fOne 0x3F800000#32 = true by decide)

/-! ## Control operations after the latch -/

/-- `s` with further groups of control operations to come after those it has. -/
def withLater (later : List (List CtlOp)) (s : State) : State := { s with race := s.race ++ later }

theorem raceSlots_withLater {j : Nat} {s : State} (later : List (List CtlOp))
    (h : j ≤ s.race.length) : raceSlots j (withLater later s) = withLater later (raceSlots j s) := by
  simp only [raceSlots_eq, withLater, List.take_append_of_le_length h, List.drop_append_of_le_length h,
    foldl_ctlApply_race]

/-- Groups after the fifth stay to come during the latch and change nothing of it (R71, R181). -/
theorem latchParams_withLater {s : State} (later : List (List CtlOp)) (h : 5 ≤ s.race.length) :
    latchParams (withLater later s) = withLater later (latchParams s) := by
  have slots : ∀ j ≤ 5, raceSlots j (withLater later s) = withLater later (raceSlots j s) :=
    fun j hj => raceSlots_withLater later (hj.trans h)
  rw [latchParams_eq, latchParams_eq, slots 1 (by omega), slots 2 (by omega), slots 3 (by omega),
    slots 4 (by omega), slots 5 (by omega)]
  rfl

theorem blockStart_withLater {s : State} (later : List (List CtlOp)) (h : 5 ≤ s.race.length) :
    blockStart (withLater later s) = withLater later (blockStart s) := by
  unfold blockStart
  rw [latchParams_withLater later h]
  rfl

/-- `s` with `CURGAIN` taken from the snapshot (R186). -/
def takeGain (s : State) : State := { s with gain := { s.gain with cur := s.snap.gainOut } }

/-- `s` with `PREVGAIN` set (R186). -/
def setPrevGain (g : Word) (s : State) : State := { s with gain := { s.gain with prev := g } }

/-- The three branches of `GainStage` (R186). -/
theorem gainStage_eq (len : Nat) (s : State) : gainStage len s =
    if len = 0 then takeGain s
    else if feq s.snap.gainOut s.gain.prev then scaleFlat s.snap.gainOut len 0 (takeGain s)
    else setPrevGain s.snap.gainOut
      (scaleRamp (fdiv (fsub s.snap.gainOut s.gain.prev) (u2f len)) len 0 s.gain.prev
        (takeGain s)) := rfl

section
variable (later : List (List CtlOp))

/-- The groups to come lie outside the elements the sample step works on. -/
theorem sampleStep_withLater (c : Cfg) (x : Word) (s : State) : sampleStep c x (withLater later s) =
    (withLater later (sampleStep c x s).1, (sampleStep c x s).2) := by
  have hcore : coreOf (sampleStep c x s).1 (withLater later s) =
      withLater later (sampleStep c x s).1 := by
    rw [sampleStep_frame]
    rfl
  rw [← hcore]
  exact sampleStep_core c x s (withLater later s)

theorem sampleLoop_withLater (c : Cfg) (k i : Nat) (s : State) :
    sampleLoop c k i (withLater later s) = withLater later (sampleLoop c k i s) := by
  induction k generalizing i s with
  | zero => rfl
  | succ k ih =>
    have hread : bufElem (withLater later s) i = bufElem s i := rfl
    simp only [sampleLoop, hread, sampleStep_withLater]
    exact ih (i + 1) (setBuf i (sampleStep c (bufElem s i) s).2 (sampleStep c (bufElem s i) s).1)

theorem scaleFlat_withLater (g : Word) (k i : Nat) (s : State) :
    scaleFlat g k i (withLater later s) = withLater later (scaleFlat g k i s) := by
  induction k generalizing i s with
  | zero => rfl
  | succ k ih => exact ih (i + 1) (setBuf i (fmul (bufElem s i) g) s)

theorem scaleRamp_withLater (inc : Word) (k i : Nat) (gg : Word) (s : State) :
    scaleRamp inc k i gg (withLater later s) = withLater later (scaleRamp inc k i gg s) := by
  induction k generalizing i gg s with
  | zero => rfl
  | succ k ih => exact ih (i + 1) (fadd gg inc) (setBuf i (fmul (bufElem s i) gg) s)

theorem setPrevGain_withLater (g : Word) (s : State) :
    setPrevGain g (withLater later s) = withLater later (setPrevGain g s) := rfl

theorem gainStage_withLater (len : Nat) (s : State) :
    gainStage len (withLater later s) = withLater later (gainStage len s) := by
  rw [gainStage_eq, gainStage_eq, apply_ite (withLater later), apply_ite (withLater later),
    ← scaleFlat_withLater, ← setPrevGain_withLater, ← scaleRamp_withLater]
  rfl

theorem clearRun_withLater (k j : Nat) (s : State) :
    clearRun k j (withLater later s) = withLater later (clearRun k j s) := by
  induction k generalizing j s with
  | zero => rfl
  | succ k ih => exact ih (j + 1) (setBuf j fZero s)

theorem clearChannels_withLater (c : Cfg) (len k ch : Nat) (s : State) :
    clearChannels c len k ch (withLater later s) =
      withLater later (clearChannels c len k ch s) := by
  induction k generalizing ch s with
  | zero => rfl
  | succ k ih => rw [clearChannels, clearChannels, clearRun_withLater, ih]

theorem clearExtra_withLater (c : Cfg) (nch len : Nat) (s : State) :
    clearExtra c nch len (withLater later s) = withLater later (clearExtra c nch len s) :=
  clearChannels_withLater later c len (nch - 1) 1 s

end

/-- The block looks at no group after the five of its latch (R71, R189). -/
theorem processBlock_withLater (c : Cfg) (nch len : Nat) {s : State} (later : List (List CtlOp))
    (h : 5 ≤ s.race.length) :
    processBlock c nch len (withLater later s) = withLater later (processBlock c nch len s) := by
  rw [processBlock_eq, processBlock_eq, blockStart_withLater later h, sampleLoop_withLater,
    gainStage_withLater, clearExtra_withLater]

/-- Settles O45: the checks and the block look at the first five groups at most (R71, R189). -/
theorem controlWritesAfterTheLatchDoNotReachTheBlock :
    Obligations.ControlWritesAfterTheLatchDoNotReachTheBlock := by
  unfold Obligations.ControlWritesAfterTheLatchDoNotReachTheBlock
  intro s t nch len later hlen h
  have hrun : effect (.process nch len) (withLater later s) =
      withLater later (effect (.process nch len) s) :=
    processBlock_withLater cfg nch len (s := running s) later hlen
  rw [exec_eq, Host.Outcome.next.injEq] at h
  subst h
  show exec (.process nch len) (withLater later s) = .next (withLater later _)
  rw [exec_eq, hrun, apply_ite (withLater later)]
  rfl

end Sys2Proof.MemoryProofs
end

section
/-! PROOFS. The encoding (`spec/30_encoding.md`): decode and encode agree (R90 to R94), the rows of the
opcode table (R95), illegal words (R92 steps 1 and 2) and operands out of range (R231). -/

namespace Sys2Proof.EncodingProofs

open Sys2Proof.Machine Sys2Proof.StateProofs

/-! ## The fields of a command -/

/-- The opcode of a command (R93). -/
def opcodeOf : Instr → Nat
  | .nop => 0x00
  | .prepare => 0x01
  | .release => 0x02
  | .process _ _ => 0x03
  | .latch => 0x04
  | .push => 0x10
  | .estimate => 0x11
  | .rreset _ => 0x20
  | .rset _ => 0x21
  | .rnext _ => 0x22
  | .afreq => 0x30
  | .oscnext => 0x31
  | .sample => 0x40
  | .gainstg _ => 0x41

/-- The value a command's word holds in the selector field; 0 where the field must be zero (R94). -/
def selOf : Instr → Nat
  | .process nch _ => nch
  | .rreset r | .rset r | .rnext r => r
  | _ => 0

/-- The value a command's word holds in the immediate field; 0 where the field must be zero (R94). -/
def immOf : Instr → Nat
  | .process _ len | .gainstg len => len
  | _ => 0

theorem opcodeOf_lt (i : Instr) : opcodeOf i < 2 ^ 8 := by
  cases i <;> simp [opcodeOf]

theorem encode_eq_assemble (i : Instr) : encode i = assemble (opcodeOf i) (selOf i) (immOf i) := by
  cases i <;> rfl

theorem wellFormed_iff (i : Instr) : i.wellFormed = true ↔ selOf i < 2 ^ 4 ∧ immOf i < 2 ^ 20 := by
  cases i <;> simp [Instr.wellFormed, fitsSel, fitsImm, selOf, immOf]

/-! ## Decode and encode agree -/

theorem requireZero_eq_ok {b : Bool} {i j : Instr} : requireZero b i = .ok j ↔ b = true ∧ i = j := by
  cases b <;> simp [requireZero]

theorem decode_of_fields {w : Word} {i : Instr} (hop : opField w = opcodeOf i)
    (hsel : selField w = selOf i) (himm : immField w = immOf i) : decode w = .ok i := by
  unfold decode
  rw [hop, hsel, himm]
  cases i <;> rfl

theorem fields_of_decode {w : Word} {i : Instr} (h : decode w = .ok i) :
    opField w = opcodeOf i ∧ selField w = selOf i ∧ immField w = immOf i := by
  unfold decode at h
  split at h
  case h_4 hop =>
    cases h
    exact ⟨hop, rfl, rfl⟩
  case h_15 => cases h
  all_goals
    next hop =>
    obtain ⟨hzero, rfl⟩ := requireZero_eq_ok.1 h
    simpa [opcodeOf, selOf, immOf, hop] using hzero

/-- A word decodes to a command exactly when its three fields are those of the command (R92 to R94). -/
theorem decode_eq_ok_iff {w : Word} {i : Instr} : decode w = .ok i ↔
    opField w = opcodeOf i ∧ selField w = selOf i ∧ immField w = immOf i :=
  ⟨fields_of_decode, fun ⟨hop, hsel, himm⟩ => decode_of_fields hop hsel himm⟩

/-- Settles O1: the fields of the assembled word are those it was assembled from (R90). -/
theorem decodeOfEncodeIsTheInstruction : Obligations.DecodeOfEncodeIsTheInstruction := by
  unfold Obligations.DecodeOfEncodeIsTheInstruction
  intro i hwf
  obtain ⟨hsel, himm⟩ := (wellFormed_iff i).1 hwf
  rw [decode_eq_ok_iff, encode_eq_assemble]
  exact fields_of_assemble (opcodeOf_lt i) hsel himm

/-- Settles O2: the word assembled from the fields of a word is that word (R90). -/
theorem encodeOfDecodeIsTheWord : Obligations.EncodeOfDecodeIsTheWord := by
  unfold Obligations.EncodeOfDecodeIsTheWord
  intro w i h
  obtain ⟨hop, hsel, himm⟩ := decode_eq_ok_iff.1 h
  rw [wellFormed_iff, encode_eq_assemble, ← hop, ← hsel, ← himm]
  exact ⟨⟨selField_lt w, immField_lt w⟩, assemble_of_fields w⟩

/-- Settles O4, by evaluation of the decoder on each word. -/
theorem wordsOfTheEncodingDecode : Obligations.WordsOfTheEncodingDecode :=
  ⟨rfl, rfl, rfl, rfl, rfl, rfl, rfl, rfl, rfl, rfl, rfl, rfl, rfl, rfl, rfl⟩

/-! ## The rows of the opcode table -/

theorem row_mem (i : Instr) : (rowMask i, rowMatch i) ∈ opcodeRows := by
  cases i <;> simp [opcodeRows, rowMask, rowMatch]

theorem encode_matches_row {i : Instr} (hwf : i.wellFormed = true) :
    encode i &&& rowMask i = rowMatch i := by
  have h : Laws.RowMatch.Statement i := by
    cases i with
    | nop => exact Laws.RowMatch.nop
    | prepare => exact Laws.RowMatch.prepare
    | release => exact Laws.RowMatch.release
    | process nch len => exact Laws.RowMatch.process nch len
    | latch => exact Laws.RowMatch.latch
    | push => exact Laws.RowMatch.push
    | estimate => exact Laws.RowMatch.estimate
    | rreset r => exact Laws.RowMatch.rreset r
    | rset r => exact Laws.RowMatch.rset r
    | rnext r => exact Laws.RowMatch.rnext r
    | afreq => exact Laws.RowMatch.afreq
    | oscnext => exact Laws.RowMatch.oscnext
    | sample => exact Laws.RowMatch.sample
    | gainstg len => exact Laws.RowMatch.gainstg len
  exact h hwf

theorem opField_and (w m : Word) : opField (w &&& m) = opField w &&& opField m := by
  simp only [opField, BitVec.extractLsb'_and, BitVec.toNat_and]

theorem selField_and (w m : Word) : selField (w &&& m) = selField w &&& selField m := by
  simp only [selField, BitVec.extractLsb'_and, BitVec.toNat_and]

theorem immField_and (w m : Word) : immField (w &&& m) = immField w &&& immField m := by
  simp only [immField, BitVec.extractLsb'_and, BitVec.toNat_and]

theorem opField_lt (w : Word) : opField w < 2 ^ 8 := (w.extractLsb' 24 8).isLt

/-- The command has an operand in the selector field (R94). -/
def takesSel : Instr → Bool
  | .process _ _ | .rreset _ | .rset _ | .rnext _ => true
  | _ => false

/-- The command has an operand in the immediate field (R94). -/
def takesImm : Instr → Bool
  | .process _ _ | .gainstg _ => true
  | _ => false

theorem fields_of_rowMatch (i : Instr) : opField (rowMatch i) = opcodeOf i ∧
    selField (rowMatch i) = 0 ∧ immField (rowMatch i) = 0 := by
  cases i <;> simp [opField, selField, immField, rowMatch, opcodeOf]

/-- The mask of a row covers the opcode and every field in which the command has no operand (R95). -/
theorem fields_of_rowMask (i : Instr) : opField (rowMask i) = 2 ^ 8 - 1 ∧
    (takesSel i = false → selField (rowMask i) = 2 ^ 4 - 1) ∧
    (takesImm i = false → immField (rowMask i) = 2 ^ 20 - 1) := by
  cases i <;> simp [opField, selField, immField, rowMask, takesSel, takesImm]

section

variable {i : Instr} {w : Word}

theorem opField_of_row (h : w &&& rowMask i = rowMatch i) : opField w = opcodeOf i := by
  obtain ⟨hv, -, -⟩ := fields_of_rowMatch i
  obtain ⟨hm, -, -⟩ := fields_of_rowMask i
  rw [← hv, ← h, opField_and, hm, Nat.and_two_pow_sub_one_of_lt_two_pow (opField_lt w)]

theorem selField_of_row (h : w &&& rowMask i = rowMatch i) (hi : takesSel i = false) :
    selField w = 0 := by
  obtain ⟨-, hv, -⟩ := fields_of_rowMatch i
  obtain ⟨-, hm, -⟩ := fields_of_rowMask i
  rw [← hv, ← h, selField_and, hm hi, Nat.and_two_pow_sub_one_of_lt_two_pow (selField_lt w)]

theorem immField_of_row (h : w &&& rowMask i = rowMatch i) (hi : takesImm i = false) :
    immField w = 0 := by
  obtain ⟨-, -, hv⟩ := fields_of_rowMatch i
  obtain ⟨-, -, hm⟩ := fields_of_rowMask i
  rw [← hv, ← h, immField_and, hm hi, Nat.and_two_pow_sub_one_of_lt_two_pow (immField_lt w)]

/-- A word of a row decodes: to the row's command with the word's own operands (R95). -/
theorem decode_of_row (h : w &&& rowMask i = rowMatch i) : ∃ j, decode w = .ok j := by
  have hop : opField w = opcodeOf i := opField_of_row h
  have hsel := selField_of_row h
  have himm := immField_of_row h
  cases i with
  | process => exact ⟨.process (selField w) (immField w), decode_of_fields hop rfl rfl⟩
  | rreset => exact ⟨.rreset (selField w), decode_of_fields hop rfl (himm rfl)⟩
  | rset => exact ⟨.rset (selField w), decode_of_fields hop rfl (himm rfl)⟩
  | rnext => exact ⟨.rnext (selField w), decode_of_fields hop rfl (himm rfl)⟩
  | gainstg => exact ⟨.gainstg (immField w), decode_of_fields hop (hsel rfl) rfl⟩
  | nop | prepare | release | latch | push | estimate | afreq | oscnext | sample =>
    exact ⟨_, decode_of_fields hop (hsel rfl) (himm rfl)⟩

end

/-- The fourteen rows are exactly the legal words: the word of a command lies in its row, and a word of
a row decodes (R95). -/
theorem legal_iff_row (w : Word) :
    (∃ i, decode w = .ok i) ↔ ∃ r ∈ opcodeRows, w &&& r.1 = r.2 := by
  constructor
  · rintro ⟨i, h⟩
    obtain ⟨hwf, rfl⟩ := encodeOfDecodeIsTheWord w i h
    exact ⟨_, row_mem i, encode_matches_row hwf⟩
  · rintro ⟨r, hr, h⟩
    obtain ⟨i, -, rfl⟩ := List.mem_map.1 hr
    exact decode_of_row h

/-! ## Illegal words -/

theorem executeWord_illegal {w : Word} {e : DecodeError} (h : decode w = .error e) (c : Cfg)
    (s : State) : executeWord c w s = .next (recordFault .illcmd w s) := by
  simp only [executeWord, h]

/-- Settles O3: a word that is not legal decodes to an error, and the legal words are those of the rows
(R95). -/
theorem legalWordsAreTheTableRows : Obligations.LegalWordsAreTheTableRows := by
  unfold Obligations.LegalWordsAreTheTableRows
  refine ⟨fun w s hillegal => ?_, legal_iff_row⟩
  cases h : decode w with
  | ok i => exact absurd h (hillegal i)
  | error e => exact executeWord_illegal h cfg s

/-- Settles O7: the refusal leaves no control operation, so the end of the command drops `BUSY` only
(R92, R232). -/
theorem illegalWordOnlyRecordsIllcmd : Obligations.IllegalWordOnlyRecordsIllcmd := by
  unfold Obligations.IllegalWordOnlyRecordsIllcmd
  intro s w rest e hp h
  have hrun : step s = runCommand cfg w {} { s with pending := rest } := step_of_pending hp
  rw [hrun]
  simp only [runCommand, executeWord_illegal h]
  exact congrArg Host.Outcome.next (endCommand_quiet _ _ rfl)

/-! ## Operands out of range -/

/-- Step 4 of R92: in a session a streaming command with an operand out of range is refused. -/
theorem exec_badoper {i : Instr} {s : State} (hi : i.isStreaming = true)
    (hs : s.inSession = true) (hop : operandsOk i s = false) :
    exec i s = .next (recordFault .badoper (encode i) s) := by
  rw [exec_streaming hi]
  exact streaming_badoper hs hop

theorem channelsInRange_eq_false {nch : Nat} (h : nch = 0 ∨ 2 < nch) :
    channelsInRange cfg nch = false := by
  rw [Bool.eq_false_iff, Ne, channelsInRange_iff, cfg_nchmax]
  omega

theorem lenInRange_eq_false {s : State} {len : Nat} (h : s.mb.toNat < len) :
    lenInRange s len = false := by
  rw [Bool.eq_false_iff, Ne, lenInRange_iff]
  omega

theorem rampInRange_eq_false {r : Nat} (h : 1 < r) : rampInRange r = false := by
  rw [Bool.eq_false_iff, Ne, rampInRange_iff]
  omega

theorem process_operandsOk_eq_false {nch len : Nat} {s : State}
    (h : nch = 0 ∨ 2 < nch ∨ s.mb.toNat < len) : operandsOk (.process nch len) s = false := by
  rw [← or_assoc] at h
  exact Bool.and_eq_false_iff.2 (h.imp channelsInRange_eq_false lenInRange_eq_false)

/-- Settles O10: each of these operands fails the range check of its command (R94, R231). -/
theorem operandOutOfRangeIsBadoper : Obligations.OperandOutOfRangeIsBadoper := by
  unfold Obligations.OperandOutOfRangeIsBadoper
  intro s hlc
  have hs : s.inSession = true := (inSession_iff s).2 hlc
  refine ⟨fun nch len h => ?_, fun len h => ?_, fun r h => ?_⟩
  · exact exec_badoper rfl hs (process_operandsOk_eq_false h)
  · exact exec_badoper rfl hs (lenInRange_eq_false h)
  · have hr : rampInRange r = false := rampInRange_eq_false h
    exact ⟨exec_badoper rfl hs hr, exec_badoper rfl hs hr, exec_badoper rfl hs hr⟩

end Sys2Proof.EncodingProofs
end

section
/-! PROOFS. The analyzer (`spec/41_analyzer.md`): what `PUSH` leaves, with the frame incomplete (R111) and
with the frame complete (R112, R113). -/

namespace Sys2Proof.AnalyzerProofs

open Sys2Proof.Machine Sys2Proof.StateProofs

/-! ## The windowed frame -/

theorem windowed_length (c : Cfg) (s : State) : (windowed c s).length = c.n := by
  rw [windowed, List.length_map, List.length_range]

theorem elemOf_of_look {s : State} {m : Memory} {i : Nat} {v : Word} (h : m.look i = some v)
    (base : Nat) : elemOf s m base i = v := by
  rw [elemOf, h, Option.getD_some]

/-- A listed sample and a listed window element give their product (R113 steps 1 and 2). -/
theorem windowed_getElem? {c : Cfg} {s : State} {n : Nat} {x h : Word}
    (hx : s.an.fifo.look n = some x) (hh : s.hann.look n = some h) (hn : n < c.n) :
    (windowed c s)[n]? = some (fmul x h) := by
  rw [windowed, List.getElem?_map, List.getElem?_range hn, Option.map_some, elemOf_of_look hx,
    elemOf_of_look hh]

/-! ## A completed frame -/

theorem frameReady_an (c : Cfg) (s : State) : (frameReady c s).an = frameAnalyzer c s := by
  rw [frameReady_spec]

theorem frameReady_work_look (c : Cfg) (s : State) (k : Nat) :
    (frameReady c s).an.work.look k = (c.fftmag (windowed c s))[k]? := by
  rw [frameReady_an, frameAnalyzer_work, Memory.look_ofWords_zero]

/-- `DETFREQ` is estimated from the magnitudes just written, with the snapshot tolerance (R112). -/
theorem frameReady_detFreq (s : State) : (frameReady cfg s).an.detFreq =
    estimateOn cfg s.sr s.snap.tol (cfg.fftmag (windowed cfg s)) := by
  rw [frameReady_an, ← frameEstimate_eq cfg s (cfg_fftmag_length _), frameAnalyzer]

/-- Besides the spectrum and `DETFREQ`, a completed frame resets the cursor, counts itself and may
retarget ramp 0 (R112). -/
theorem frameReady_frame (c : Cfg) (s : State) : frameReady c s = { s with
    an := { s.an with
      fifoIdx := 0, work := (frameReady c s).an.work, detFreq := (frameReady c s).an.detFreq
      frameCnt := s.an.frameCnt + 1#32 }
    ramp0 := if feq (frameReady c s).an.detFreq fZero then s.ramp0
      else s.ramp0.setTarget (frameReady c s).an.detFreq } := by
  rw [frameReady_an]
  exact frameReady_spec c s

/-! ## The two branches of a push -/

theorem analyzerPush_of_partial {s : State} (h : s.an.fifoIdx + 1 < cfg.n) (x : Word) :
    analyzerPush cfg x s = { s with an := { s.an with
      fifo := s.an.fifo.put s.an.fifoIdx x, fifoIdx := s.an.fifoIdx + 1 } } := by
  have hcursor := cursor_advance (idx := s.an.fifoIdx) (by omega)
  rw [analyzerPush_spec, hcursor, if_neg h.ne, storeSample, hcursor]

theorem analyzerPush_of_full {s : State} (h : s.an.fifoIdx + 1 = cfg.n) (x : Word) :
    analyzerPush cfg x s = frameReady cfg (storeSample cfg x s) := by
  rw [analyzerPush_spec, cursor_advance (by omega), if_pos h]

/-- In a session `PUSH` runs the analyzer on `OPA` (R115, R214). -/
theorem exec_push_of_session {s : State} (hlc : s.lc = .prepared ∨ s.lc = .processing) :
    exec .push s = .next (analyzerPush cfg s.opa (running s)) :=
  exec_of_admits (admits_of_session ((inSession_iff s).2 hlc) rfl)

/-! ## `PUSH` -/

/-- Settles O23: below the end of the frame the cursor does not wrap (R111, R115). -/
theorem pushStoresTheSample : Obligations.PushStoresTheSample := by
  unfold Obligations.PushStoresTheSample
  intro s hlc hidx
  have hpart : (running s).an.fifoIdx + 1 < cfg.n := cfg_n.symm ▸ hidx
  rw [exec_push_of_session hlc, analyzerPush_of_partial hpart]
  rfl

/-- Settles O24: the frame is the windowed frame of the state with the last sample stored (R111 to R113,
R115). -/
theorem pushCompletesTheFrame : Obligations.PushCompletesTheFrame := by
  unfold Obligations.PushCompletesTheFrame
  intro s hlc hidx
  have hfull : (running s).an.fifoIdx + 1 = cfg.n := cfg_n.symm ▸ hidx
  have hlast : s.an.fifoIdx = 4095 := by omega
  rw [← cfg_fftmag, ← hlast]
  refine ⟨windowed cfg (storeSample cfg s.opa (running s)),
    frameReady cfg (storeSample cfg s.opa (running s)), ?_, ?_, fun n x h hx hh hn => ?_,
    frameReady_work_look cfg _, frameReady_detFreq _, frameReady_frame cfg _⟩
  · rw [exec_push_of_session hlc, analyzerPush_of_full hfull]
  · rw [windowed_length, cfg_n]
  · exact windowed_getElem? hx hh (cfg_n.symm ▸ hn)

end Sys2Proof.AnalyzerProofs
end

section
/-! PROOFS. The estimator (`spec/42_estimator.md`): the bin that the scan of R131 returns, and what
`ESTIMATE` leaves (R133). -/

namespace Sys2Proof.EstimatorProofs

open Sys2Proof.Machine Sys2Proof.StateProofs

/-! ## The first of the greatest bins -/

theorem not_isNaN_of_fgt {a b : Word} (h : fgt a b = true) : isNaN a = false :=
  ((flt_iff b a).1 h).2.1

theorem fgt_eq_false_of_isNaN {a b : Word} (h : isNaN a = true ∨ isNaN b = true) :
    fgt a b = false := by
  obtain h | h := h <;> simp [fgt, flt, h]

/-- What does not exceed `b` and is no NaN is below whatever exceeds `b`. -/
theorem fgt_of_fgt_of_not_fgt {a b c : Word} (hab : fgt a b = true) (hcb : fgt c b = false)
    (hc : isNaN c = false) : fgt a c = true := by
  obtain ⟨hb, ha, hlt⟩ := (flt_iff b a).1 hab
  have hle : orderKey c ≤ orderKey b := by
    rw [Bool.eq_false_iff, ne_eq, fgt, flt_iff] at hcb
    simpa [hb, hc] using hcb
  exact (flt_iff c a).2 ⟨hc, ha, hle.trans_lt hlt⟩

/-- Bin `idx` holds `mx`, no bin exceeds it and every earlier bin is below it, NaN bins aside (R131). -/
structure FirstMax (l : List Word) (idx : Nat) (mx : Word) : Prop where
  bin : l[idx]? = some mx
  notNaN : isNaN mx = false
  greatest : ∀ v ∈ l, fgt v mx = false
  first : ∀ v ∈ l.take idx, isNaN v = true ∨ fgt mx v = true

theorem FirstMax.singleton {v : Word} (h : isNaN v = false) : FirstMax [v] 0 v where
  bin := rfl
  notNaN := h
  greatest w hw := by rw [List.mem_singleton.1 hw, fgt_irrefl]
  first _ hw := absurd hw List.not_mem_nil

section
variable {l : List Word} {idx : Nat} {mx : Word} (h : FirstMax l idx mx)
include h

theorem FirstMax.index_lt : idx < l.length := (List.getElem?_eq_some_iff.1 h.bin).1

/-- The update test of the scan fails: the running maximum stays. -/
theorem FirstMax.append_of_not_fgt {v : Word} (hv : fgt v mx = false) :
    FirstMax (l ++ [v]) idx mx where
  bin := (List.getElem?_append_left h.index_lt).trans h.bin
  notNaN := h.notNaN
  greatest w hw := by
    obtain hw | hw := List.mem_append.1 hw
    · exact h.greatest w hw
    · rwa [List.mem_singleton.1 hw]
  first := by
    rw [List.take_append_of_le_length h.index_lt.le]
    exact h.first

/-- The update test of the scan succeeds: the new bin is above every bin before it. -/
theorem FirstMax.append_of_fgt {v : Word} (hv : fgt v mx = true) :
    FirstMax (l ++ [v]) l.length v where
  bin := List.getElem?_concat_length
  notNaN := not_isNaN_of_fgt hv
  greatest w hw := by
    obtain hw | hw := List.mem_append.1 hw
    · by_contra hgt
      have habove := fgt_trans (eq_true_of_ne_false hgt) hv
      rw [h.greatest w hw] at habove
      cases habove
    · rw [List.mem_singleton.1 hw, fgt_irrefl]
  first w hw := by
    rw [List.take_left] at hw
    cases hnan : isNaN w with
    | true => exact .inl rfl
    | false => exact .inr (fgt_of_fgt_of_not_fgt hv (h.greatest w hw) hnan)

theorem FirstMax.getD (d : Word) : l.getD idx d = mx := by
  rw [List.getD_eq_getElem?_getD, h.bin, Option.getD_some]

theorem FirstMax.not_fgt_getD {j : Nat} (hj : j < l.length) (d : Word) :
    fgt (l.getD j d) mx = false := by
  rw [List.getD_eq_getElem _ _ hj]
  exact h.greatest _ (List.getElem_mem hj)

theorem FirstMax.getD_below {j : Nat} (hj : j < idx) (d : Word) :
    isNaN (l.getD j d) = true ∨ fgt mx (l.getD j d) = true := by
  have hlen : j < l.length := hj.trans h.index_lt
  rw [List.getD_eq_getElem _ _ hlen]
  exact h.first _ (List.mem_take_iff_getElem.2 ⟨j, lt_min hj hlen, rfl⟩)

end

/-! ## The scan -/

/-- The scan keeps the first of the greatest bins among those it has passed (R131). -/
theorem scanBins_firstMax (vs pre : List Word) (idx : Nat) (mx : Word) (h : FirstMax pre idx mx) :
    FirstMax (pre ++ vs) (scanBins vs pre.length idx mx).1 (scanBins vs pre.length idx mx).2 := by
  induction vs generalizing pre idx mx with
  | nil => rwa [List.append_nil]
  | cons v vs ih =>
    have hlen : pre.length + 1 = (pre ++ [v]).length := by simp
    rw [List.append_cons, scanBins, hlen]
    split
    · next hv => exact ih _ _ _ (h.append_of_fgt hv)
    · next hv => exact ih _ _ _ (h.append_of_not_fgt (eq_false_of_ne_true hv))

/-- No bin is above a NaN, so a NaN in bin 0 stays the running maximum (R131). -/
theorem scanBins_of_isNaN (vs : List Word) (k idx : Nat) {mx : Word} (h : isNaN mx = true) :
    scanBins vs k idx mx = (idx, mx) := by
  induction vs generalizing k with
  | nil => rfl
  | cons v vs ih => rw [scanBins, fgt_eq_false_of_isNaN (.inr h), if_neg Bool.false_ne_true, ih]

theorem peakOf_firstMax {v : Word} (vs : List Word) (h : isNaN v = false) :
    FirstMax (v :: vs) (peakOf (v :: vs)).1 (peakOf (v :: vs)).2 :=
  scanBins_firstMax vs [v] 0 v (.singleton h)

theorem estimateOn_of_isNaN {v : Word} (h : isNaN v = true) (c : Cfg) (sr tol : Word)
    (vs : List Word) : estimateOn c sr tol (v :: vs) = fZero := by
  have hpeak : peakOf (v :: vs) = (0, v) := scanBins_of_isNaN vs 1 0 h
  rw [estimateOn, hpeak, fgt_eq_false_of_isNaN (.inl h), if_neg Bool.false_ne_true]

/-! ## The statements -/

/-- Settles O29: the winning bin and its magnitude are those that the scan returns (R131). -/
theorem estimateTakesTheFirstMaximum : Obligations.EstimateTakesTheFirstMaximum := by
  unfold Obligations.EstimateTakesTheFirstMaximum
  intro sr tol spec hlen
  cases spec with
  | nil => cases hlen
  | cons v vs =>
    rw [List.getD_cons_zero]
    refine ⟨fun hnan => estimateOn_of_isNaN hnan cfg sr tol vs, fun hnan => ?_⟩
    have hpeak := peakOf_firstMax vs hnan
    refine ⟨(peakOf (v :: vs)).1, hlen ▸ hpeak.index_lt, ?_⟩
    rw [hpeak.getD]
    refine ⟨hpeak.notNaN, fun j hj => hpeak.not_fgt_getD (hlen.symm ▸ hj) _,
      fun j hj => hpeak.getD_below hj _, ?_⟩
    rw [estimateOn, binFreq, cfg_n, cfg_tolscale]
    rfl

/-- Settles O30: the mirror half never wins, since each of its bins repeats an earlier one (R132). -/
theorem winningBinIsInTheLowerHalf : Obligations.WinningBinIsInTheLowerHalf := by
  unfold Obligations.WinningBinIsInTheLowerHalf
  intro spec hlen hmirror
  exact peakOf_le_half hlen (by decide) fun k h0 h1 => hmirror k h0 (by omega)

/-! ## `ESTIMATE` -/

theorem specBins_length (c : Cfg) (s : State) : (specBins c s).length = c.n := by
  rw [specBins, elemsOf, List.length_map, List.length_range]

/-- A listed bin is read as its content (R31). -/
theorem specBins_getElem? {c : Cfg} {s : State} {k : Nat} {v : Word} (hk : k < c.n)
    (hv : s.an.work.look k = some v) : (specBins c s)[k]? = some v := by
  rw [specBins, elemsOf, List.getElem?_map, List.getElem?_range hk, Option.map_some,
    AnalyzerProofs.elemOf_of_look hv]

/-- Settles O28: the spectrum is the list of bins as the command reads them (R131, R133). -/
theorem estimateWritesOnlyTheResult : Obligations.EstimateWritesOnlyTheResult := by
  unfold Obligations.EstimateWritesOnlyTheResult
  intro s hlc
  refine ⟨specBins cfg s, (specBins_length cfg s).trans cfg_n,
    fun k v hk hv => specBins_getElem? (cfg_n.symm ▸ hk) hv, ?_⟩
  have hadm : admits .estimate s = true := admits_of_session ((inSession_iff s).2 hlc) rfl
  rw [exec_of_admits hadm]
  rfl

end Sys2Proof.EstimatorProofs
end

section
/-! PROOFS. The ramps (`spec/43_ramp.md`): what `RRESET`, `RSET` and `RNEXT` leave in a session (R141 to
R143), and where a started ramp arrives (R144). -/

namespace Sys2Proof.RampProofs

open Sys2Proof.Machine Sys2Proof.Safety Sys2Proof.StateProofs

/-! ## The ramp a selector names -/

theorem ramp_withRamp (s : State) (r : Nat) (x : Ramp) : (s.withRamp r x).ramp r = x := by
  unfold State.withRamp State.ramp
  split <;> rfl

theorem withRamp_lc (s : State) (r : Nat) (x : Ramp) : (s.withRamp r x).lc = s.lc := by
  unfold State.withRamp
  split <;> rfl

/-! ## A new target -/

theorem setTarget_of_len_eq_zero {v : Word} {x : Ramp} (hv : feq v x.tgt = false)
    (hlen : x.len = 0#32) :
    x.setTarget v = { cur := v, tgt := v, step := 0#32, rem := 0#32, len := x.len } := by
  rw [Ramp.setTarget, hv, if_neg Bool.false_ne_true, if_pos hlen]
  rfl

/-- R142: a full-length ramp from wherever the value is. -/
theorem setTarget_of_len_ne_zero {v : Word} {x : Ramp} (hv : feq v x.tgt = false)
    (hlen : x.len ≠ 0#32) :
    x.setTarget v = { cur := x.cur, tgt := v, step := fdiv (fsub v x.cur) (u2f x.len.toNat),
                      rem := x.len, len := x.len } := by
  rw [Ramp.setTarget, hv, if_neg Bool.false_ne_true, if_neg hlen]

/-! ## The ramp after `j` advances (R143) -/

theorem next_rem (x : Ramp) : x.next.rem.toNat = x.rem.toNat - 1 := by
  obtain ⟨-, -, -, hrem, -⟩ := Ramp.next_spec x
  exact hrem

theorem next_cur (x : Ramp) : x.next.cur = if x.rem.toNat = 0 then x.cur
    else if x.rem.toNat = 1 then x.tgt else fadd x.cur x.step := by
  obtain ⟨-, -, -, -, hcur⟩ := Ramp.next_spec x
  simpa only [BitVec.toNat_eq, BitVec.toNat_ofNat] using hcur

section
variable (x : Ramp) (j : Nat)

theorem iterate_next_rem : (Ramp.next^[j] x).rem.toNat = x.rem.toNat - j := by
  induction j with
  | zero => rfl
  | succ j ih => rw [Function.iterate_succ_apply', next_rem, ih, Nat.sub_sub]

theorem iterate_next_keeps :
    (Ramp.next^[j] x).tgt = x.tgt ∧ (Ramp.next^[j] x).step = x.step := by
  induction j with
  | zero => exact ⟨rfl, rfl⟩
  | succ j ih =>
    obtain ⟨htgt, hstep, -⟩ := Ramp.next_spec (Ramp.next^[j] x)
    rw [Function.iterate_succ_apply', htgt, hstep]
    exact ih

theorem iterate_next_cur_succ : (Ramp.next^[j + 1] x).cur =
    if x.rem.toNat - j = 0 then (Ramp.next^[j] x).cur
    else if x.rem.toNat - j = 1 then x.tgt else fadd (Ramp.next^[j] x).cur x.step := by
  obtain ⟨htgt, hstep⟩ := iterate_next_keeps x j
  rw [Function.iterate_succ_apply', next_cur, iterate_next_rem, htgt, hstep]

end

/-- R144 (a): before the last step the value is the start value with the step added `j` times. -/
theorem iterate_next_cur_of_lt {x : Ramp} {j : Nat} (h : j < x.rem.toNat) :
    (Ramp.next^[j] x).cur = rampAt x j := by
  induction j with
  | zero => rfl
  | succ j ih =>
    rw [iterate_next_cur_succ, if_neg (by omega), if_neg (by omega), ih (by omega)]
    rfl

/-- R144 (a), (b): the last step lands on the target, where the ramp then rests. -/
theorem iterate_next_cur_of_le {x : Ramp} {j : Nat} (hrem : 0 < x.rem.toNat)
    (h : x.rem.toNat ≤ j) : (Ramp.next^[j] x).cur = x.tgt := by
  induction j with
  | zero => omega
  | succ j ih =>
    rw [iterate_next_cur_succ]
    obtain hle | hlast := Nat.le_or_eq_of_le_succ h
    · rw [if_pos (by omega), ih hle]
    · rw [if_neg (by omega), if_pos (by omega)]

/-! ## The commands -/

theorem exec_rreset_session {s : State} {r : Nat} (hs : s.inSession = true) (hr : r ≤ 1) :
    exec (.rreset r) s =
      .next ((running s).withRamp r (Ramp.reset (durOf cfg r) s.sr (s.ramp r))) :=
  exec_of_admits (admits_of_session hs ((rampInRange_iff r).2 hr))

theorem exec_rset_session {s : State} {r : Nat} (hs : s.inSession = true) (hr : r ≤ 1) :
    exec (.rset r) s = .next ((running s).withRamp r ((s.ramp r).setTarget s.opa)) :=
  exec_of_admits (admits_of_session hs ((rampInRange_iff r).2 hr))

theorem exec_rnext_session {s : State} {r : Nat} (hs : s.inSession = true) (hr : r ≤ 1) :
    exec (.rnext r) s =
      .next (setRes (s.ramp r).next.cur ((running s).withRamp r (s.ramp r).next)) :=
  exec_of_admits (admits_of_session hs ((rampInRange_iff r).2 hr))

theorem inSession_withRamp_running (s : State) (r : Nat) (x : Ramp) :
    ((running s).withRamp r x).inSession = true :=
  (inSession_iff _).2 (.inr (withRamp_lc (running s) r x))

theorem exec_rnext_advances {s : State} {r : Nat} (hs : s.inSession = true) (hr : r ≤ 1) :
    ∃ t, exec (.rnext r) s = .next t ∧ t.inSession = true ∧ t.ramp r = (s.ramp r).next ∧
      t.res = (t.ramp r).cur := by
  have hramp := ramp_withRamp (running s) r (s.ramp r).next
  exact ⟨_, exec_rnext_session hs hr, inSession_withRamp_running s r _, hramp,
    congrArg Ramp.cur hramp.symm⟩

theorem runTimes_succ {i : Instr} {s t : State} (h : exec i s = .next t) (k : Nat) :
    runTimes i (k + 1) s = runTimes i k t := by
  rw [runTimes, h]

/-- `RNEXT` executed once or more leaves the ramp advanced as often, and its value in `RES` (R148). -/
theorem runTimes_rnext {r : Nat} (hr : r ≤ 1) (j : Nat) {s : State} (hs : s.inSession = true) :
    ∃ t, runTimes (.rnext r) (j + 1) s = .next t ∧
      t.ramp r = Ramp.next^[j + 1] (s.ramp r) ∧ t.res = (t.ramp r).cur := by
  obtain ⟨u, hstep, hu, hramp, hres⟩ := exec_rnext_advances hs hr
  rw [runTimes_succ hstep, Function.iterate_succ_apply, ← hramp]
  cases j with
  | zero => exact ⟨u, rfl, rfl, hres⟩
  | succ j => exact runTimes_rnext hr j hu

/-! ## The statements -/

/-- Settles O34: after `RSET` the ramp has its full length to go, `RNEXT` advances it, and the advances
are counted down to the landing (R142 to R144). -/
theorem rampReachesItsTargetExactly : Obligations.RampReachesItsTargetExactly := by
  unfold Obligations.RampReachesItsTargetExactly
  intro s r hlc hr hnew hlen
  have hs := (inSession_iff s).2 hlc
  refine ⟨_, exec_rset_session hs hr, fun j hj => ?_⟩
  rw [ramp_withRamp]
  obtain ⟨k, rfl⟩ := Nat.exists_eq_add_of_le' hj
  obtain ⟨t, hrun, ht, hres⟩ := runTimes_rnext hr k
    (inSession_withRamp_running s r ((s.ramp r).setTarget s.opa))
  rw [ramp_withRamp] at ht
  have hstart := setTarget_of_len_ne_zero hnew hlen
  have hrem : ((s.ramp r).setTarget s.opa).rem = (s.ramp r).len := by rw [hstart]
  have htgt : ((s.ramp r).setTarget s.opa).tgt = s.opa := by rw [hstart]
  have hleft : (t.ramp r).rem.toNat = (s.ramp r).len.toNat - (k + 1) := by
    rw [ht, iterate_next_rem, hrem]
  refine ⟨t, hrun, fun hlt => ⟨?_, hleft⟩, fun hle => ?_⟩
  · rw [hres, ht, iterate_next_cur_of_lt (by rwa [hrem])]
  · have hpos : 0 < (s.ramp r).len.toNat := Nat.pos_of_ne_zero ((BitVec.toNat_ne).1 hlen)
    have hcur : (t.ramp r).cur = s.opa := by
      rw [ht, iterate_next_cur_of_le (by rwa [hrem]) (by rwa [hrem]), htgt]
    exact ⟨hres.trans hcur, hcur, BitVec.eq_of_toNat_eq (hleft.trans (Nat.sub_eq_zero_of_le hle))⟩

/-- Settles O31: `RRESET` on each selector, with the ramp's own duration (R141, R146). -/
theorem rresetEndsTheRamp : Obligations.RresetEndsTheRamp := by
  unfold Obligations.RresetEndsTheRamp
  intro s hlc
  have hs := (inSession_iff s).2 hlc
  exact ⟨exec_rreset_session hs (Nat.zero_le 1), exec_rreset_session hs (Nat.le_refl 1)⟩

/-- Settles O32, along the three branches of R142. -/
theorem rsetStartsARampFromTheCurrentValue : Obligations.RsetStartsARampFromTheCurrentValue := by
  unfold Obligations.RsetStartsARampFromTheCurrentValue
  intro s r hlc hr
  refine ⟨_, exec_rset_session ((inSession_iff s).2 hlc) hr, ?_⟩
  split
  case isTrue hsame => exact Ramp.setTarget_same hsame
  case isFalse hnew =>
    rw [Bool.not_eq_true] at hnew
    split
    case isTrue hlen => exact setTarget_of_len_eq_zero hnew hlen
    case isFalse hlen => exact setTarget_of_len_ne_zero hnew hlen

/-- Settles O33: the advanced ramp is `Ramp.next`, whose fields `Ramp.next_spec` states (R143). -/
theorem rnextAdvancesTheRamp : Obligations.RnextAdvancesTheRamp := by
  unfold Obligations.RnextAdvancesTheRamp
  intro s r hlc hr
  exact ⟨(s.ramp r).next, exec_rnext_session ((inSession_iff s).2 hlc) hr, Ramp.next_spec _⟩

end Sys2Proof.RampProofs
end

section
/-! PROOFS. The oscillator (`spec/44_oscillator.md`): the pitch formula of `AFREQ` (R161, R163), and the
interpolated value and the advanced phase of `OSCNEXT` (R162, R164). -/

namespace Sys2Proof.OscillatorProofs

open Sys2Proof.Machine Sys2Proof.StateProofs

/-! ## The pitch formula and the table read in the canonical configuration -/

/-- Product first, then the detune (R161). -/
theorem appliedFreq_eq (f : Word) (s : State) : appliedFreq cfg f s =
    fadd (fmul f (semiPow s.snap.offset.toNat)) s.snap.detune := by
  rw [appliedFreq, cfg_semipow]

theorem phaseIncrement_eq (sr fa : Word) :
    phaseIncrement cfg sr fa = fdiv (fmul fa (u2f 1024)) sr := by
  rw [phaseIncrement, cfg_t]

/-- The element of the sine table at `i`, as the oscillator reads it. -/
def sineAt (s : State) (i : Nat) : Word := elemOf s s.sine sineBase i

theorem sineAt_of_look {s : State} {i : Nat} {v : Word} (h : s.sine.look i = some v) :
    sineAt s i = v :=
  AnalyzerProofs.elemOf_of_look h sineBase

/-- The index of the table element at or below the phase (R162). -/
def phaseIndex (s : State) : Nat := f2u (ffloor s.osc.phase)

/-- The value interpolated between the element below the phase and its neighbour, which wraps round the
table (R162, R166). -/
theorem oscOutput_eq (s : State) : oscOutput cfg s =
    fadd (sineAt s (phaseIndex s)) (fmul (fsub s.osc.phase (ffloor s.osc.phase))
      (fsub (sineAt s ((phaseIndex s + 1) % 1024)) (sineAt s (phaseIndex s)))) := by
  rw [oscOutput, cfg_interp, if_pos rfl, cfg_t]
  rfl

/-! ## The commands in a session -/

/-- In a session `AFREQ` runs the pitch formula on `OPA` (R163, R214). -/
theorem exec_afreq_of_session {s : State} (hlc : s.lc = .prepared ∨ s.lc = .processing) :
    exec .afreq s = .next (setRes (appliedFreq cfg s.opa s) (running s)) :=
  exec_of_admits (admits_of_session ((inSession_iff s).2 hlc) rfl)

/-- In a session `OSCNEXT` returns the value at the phase before the advance by `OPA` (R164, R214). -/
theorem exec_oscnext_of_session {s : State} (hlc : s.lc = .prepared ∨ s.lc = .processing) :
    exec .oscnext s = .next (setRes (oscOutput cfg s) (oscAdvance cfg s.opa (running s))) :=
  exec_of_admits (admits_of_session ((inSession_iff s).2 hlc) rfl)

/-! ## `AFREQ` and `OSCNEXT` -/

/-- Settles O35: `RES` takes the pitch formula of `OPA` (R161, R163). -/
theorem afreqAppliesThePitchFormula : Obligations.AfreqAppliesThePitchFormula := by
  unfold Obligations.AfreqAppliesThePitchFormula
  intro s hlc
  rw [exec_afreq_of_session hlc, appliedFreq_eq]
  rfl

/-- Settles O36: the two elements are those the table shows at the old phase, listed or not (R162,
R164). -/
theorem oscnextReadsThenAdvances : Obligations.OscnextReadsThenAdvances := by
  unfold Obligations.OscnextReadsThenAdvances
  intro s hlc
  refine ⟨sineAt s (phaseIndex s), sineAt s ((phaseIndex s + 1) % 1024),
    fun x hx => sineAt_of_look hx, fun x hx => sineAt_of_look hx, ?_⟩
  rw [exec_oscnext_of_session hlc, oscOutput_eq, oscAdvance, phaseIncrement_eq, cfg_t]
  rfl

end Sys2Proof.OscillatorProofs
end

section
/-! PROOFS. The block processor (`spec/45_block.md`): what `LATCH`, `SAMPLE`, `GAINSTG` and `PROCESS` leave
in a session (R181 to R189), the settled gain (R190), and streams of samples (R185, R189). -/

namespace Sys2Proof.BlockProofs

open Sys2Proof.Machine Sys2Proof.Safety Sys2Proof.StateProofs

/-! ## The commands in a session -/

section
variable {s : State} (hlc : s.lc = .prepared ∨ s.lc = .processing)
include hlc

theorem exec_latch_of_session : exec .latch s = .next (latchParams (running s)) :=
  exec_of_admits (admits_of_session ((inSession_iff s).2 hlc) rfl)

theorem exec_sample_of_session : exec .sample s = .next
    (setRes (sampleStep cfg s.opa (running s)).2 (sampleStep cfg s.opa (running s)).1) :=
  exec_of_admits (admits_of_session ((inSession_iff s).2 hlc) rfl)

theorem exec_gainstg_of_session {len : Nat} (hlen : len ≤ s.mb.toNat) :
    exec (.gainstg len) s = .next (gainStage len (running s)) :=
  exec_of_admits (admits_of_session ((inSession_iff s).2 hlc) ((lenInRange_iff s len).2 hlen))

theorem exec_process_of_session {nch len : Nat} (h1 : 1 ≤ nch) (h2 : nch ≤ 2)
    (hlen : len ≤ s.mb.toNat) :
    exec (.process nch len) s = .next (processBlock cfg nch len (running s)) :=
  exec_of_admits
    (admits_of_session ((inSession_iff s).2 hlc) (process_operandsOk h1 h2 hlen))

end

/-- A listed element of `BUF` is what a command reads there (R42). -/
theorem bufElem_of_look {s : State} {i : Nat} {x : Word} (h : s.buf.look i = some x) :
    bufElem s i = x :=
  AnalyzerProofs.elemOf_of_look h bufBase

/-! ## `LATCH` -/

/-- Settles O19: the frame of the latch, with the results of the control reads written out (R181,
R182). -/
theorem latchTakesTheSnapshot : Obligations.LatchTakesTheSnapshot := by
  unfold Obligations.LatchTakesTheSnapshot
  intro s hlc
  obtain ⟨hframe, hcells, hquiet⟩ := latchParams_spec (running s)
  refine ⟨latchParams (running s), exec_latch_of_session hlc, ?_, hcells, fun h => ?_⟩
  · conv_lhs => rw [hframe, latchParams_outputs]
    rfl
  · rw [hquiet h]
    rfl

/-! ## `SAMPLE` -/

/-- The increment of the oscillator in the sample step of `x` (R162, R184): the pitch formula is applied to
ramp 0 as it stands after the push and one advance. -/
def stepIncrement (c : Cfg) (x : Word) (s : State) : Word :=
  phaseIncrement c s.sr (appliedFreq c (analyzerPush c x s).ramp0.next.cur s)

/-- The sample step from the state that the push leaves: snapshot and oscillator stand as before the push
(R184). -/
theorem sampleStep_eq (c : Cfg) (x : Word) (s : State) : sampleStep c x s =
    ({ analyzerPush c x s with
        ramp0 := (analyzerPush c x s).ramp0.next
        ramp1 := (analyzerPush c x s).ramp1.next
        osc := { phase := pmod c.t (fadd s.osc.phase (stepIncrement c x s))
                 phaseInc := stepIncrement c x s } },
      mix x (oscOutput c s) (analyzerPush c x s).ramp1.next.cur) := by
  have hframe := analyzerPush_frame c x s
  unfold sampleStep stepIncrement
  generalize analyzerPush c x s = p at *
  rw [hframe]
  rfl

/-- Settles O39: the push, then the two ramps, the pitch formula and the oscillator on what it left
(R183, R184). -/
theorem sampleRunsTheFourSteps : Obligations.SampleRunsTheFourSteps := by
  unfold Obligations.SampleRunsTheFourSteps
  intro s hlc
  refine ⟨analyzerPush cfg s.opa (running s), _, _, _, _,
    AnalyzerProofs.exec_push_of_session hlc, rfl, rfl, rfl, rfl, ?_⟩
  rw [exec_sample_of_session hlc, sampleStep_eq, stepIncrement,
    OscillatorProofs.phaseIncrement_eq, OscillatorProofs.appliedFreq_eq, cfg_t]
  rfl

/-! ## Streams of `SAMPLE` -/

/-- `s` with what a `SAMPLE` of input `x` and output `y` writes outside the stream's own elements. -/
def withSample (x y : Word) (s : State) : State :=
  { s with lc := .processing, opa := x, res := y }

/-- What `SAMPLE` writes outside the stream's own elements does not reach the sample steps. -/
theorem runSamples_withSample (c : Cfg) (xs : List Word) (x y : Word) (s : State) :
    runSamples c xs (withSample x y s) =
      (withSample x y (runSamples c xs s).1, (runSamples c xs s).2) := by
  have hcore : coreOf (runSamples c xs s).1 (withSample x y s) =
      withSample x y (runSamples c xs s).1 := by
    rw [runSamples_frame]
    rfl
  rw [← hcore]
  exact runSamples_core c xs s (withSample x y s)

/-- One `SAMPLE` after the host has written `x` to `OPA` is one sample step (R185). -/
theorem exec_sample_withOpa {s : State} (hlc : s.lc = .prepared ∨ s.lc = .processing) (x : Word) :
    exec .sample { s with opa := x } =
      .next (withSample x (sampleStep cfg x s).2 (sampleStep cfg x s).1) := by
  have hstep := sampleStep_core cfg x s (withSample x s.res s)
  rw [exec_sample_of_session (s := { s with opa := x }) hlc]
  show Host.Outcome.next (setRes (sampleStep cfg x (coreOf s (withSample x s.res s))).2
    (sampleStep cfg x (coreOf s (withSample x s.res s))).1) = _
  rw [hstep, sampleStep_frame]
  rfl

/-- A sequence of `SAMPLE` commands runs to its end and leaves the state of the sample steps of the
stream, with the last output in `RES` (R185). -/
theorem runWithOpa_sample (xs : List Word) {s : State}
    (hlc : s.lc = .prepared ∨ s.lc = .processing) :
    ∃ t, runWithOpa .sample xs s = .next t ∧
      t = { (runSamples cfg xs s).1 with lc := t.lc, opa := t.opa, res := t.res } ∧
      t.res = (runSamples cfg xs s).2.getLast?.getD s.res := by
  induction xs generalizing s with
  | nil => exact ⟨s, rfl, rfl, rfl⟩
  | cons x xs ih =>
    obtain ⟨t, hrun, hframe, hres⟩ :=
      ih (s := withSample x (sampleStep cfg x s).2 (sampleStep cfg x s).1) (.inr rfl)
    rw [runSamples_withSample] at hframe hres
    refine ⟨t, ?_, hframe, ?_⟩
    · rw [runWithOpa, exec_sample_withOpa hlc]
      exact hrun
    · rw [hres, runSamples, List.getLast?_cons, Option.getD_some]
      rfl

/-- Settles O40: the frame of the sample steps says which elements the stream leaves as before
(R185). -/
theorem samplesAreTheStepsOfTheStream : Obligations.SamplesAreTheStepsOfTheStream := by
  unfold Obligations.SamplesAreTheStepsOfTheStream
  intro xs s hlc
  obtain ⟨t, hrun, hframe, hres⟩ := runWithOpa_sample xs hlc
  rw [runSamples_frame] at hframe
  exact ⟨t, hrun, by rw [hframe], by rw [hframe], by rw [hframe], by rw [hframe],
    fun y hy => by rw [hres, hy, Option.getD_some],
    by rw [hframe], by rw [hframe], by rw [hframe], by rw [hframe]⟩

/-! ## `GAINSTG` -/

/-- Settles O41: the gain stage on `BUF` as listed (R186, R187). -/
theorem gainstgScalesTheBlock : Obligations.GainstgScalesTheBlock := by
  unfold Obligations.GainstgScalesTheBlock
  intro s len hlc hlen
  obtain ⟨hframe, hscaled, hrest⟩ := gainStage_spec len (running s)
  refine ⟨_, exec_gainstg_of_session hlc hlen, hframe, fun i x hi hx => ?_, fun i hi => ?_, hrest⟩
  · rw [hscaled i hi, bufElem_of_look (s := running s) hx]
    rfl
  · rw [hscaled i hi, Option.isSome_some]

/-- A non-empty block leaves a previous gain equal to the snapshot gain (R190). -/
theorem gainStage_settles {len : Nat} {s : State} (hlen : 0 < len)
    (hgain : isNaN s.snap.gainOut = false) :
    feq s.snap.gainOut (gainStage len s).gain.prev = true := by
  rw [(gainStage_spec len s).1]
  by_cases hflat : feq s.snap.gainOut s.gain.prev = true
  · rwa [if_pos (.inr hflat)]
  · rw [if_neg (not_or.2 ⟨hlen.ne', hflat⟩)]
    exact feq_self hgain

/-- With a settled gain the stage keeps `PREVGAIN` and multiplies flat (R186). -/
theorem gainStage_of_settled {len : Nat} {s : State}
    (h : feq s.snap.gainOut s.gain.prev = true) :
    (gainStage len s).gain.prev = s.gain.prev ∧
      ∀ i < len, (gainStage len s).buf.look i = some (fmul (bufElem s i) s.snap.gainOut) := by
  obtain ⟨hframe, hscaled, -⟩ := gainStage_spec len s
  refine ⟨?_, fun i hi => ?_⟩
  · rw [hframe, if_pos (.inr h)]
  · rw [hscaled i hi, stageGain, if_pos h]

/-- Settles O42: the first block settles the gain, the second multiplies by the settled gain (R190). -/
theorem gainSettlesInOneBlock : Obligations.GainSettlesInOneBlock := by
  unfold Obligations.GainSettlesInOneBlock
  intro s t u len len' hpos hgain hlc hlen hlen' ht hu
  rw [exec_gainstg_of_session hlc hlen, Host.Outcome.next.injEq] at ht
  have hsettled := gainStage_settles (s := running s) hpos hgain
  have hframe := (gainStage_spec len (running s)).1
  rw [ht] at hsettled hframe
  have hsnap : t.snap = s.snap := by rw [hframe]; rfl
  have htlc : t.lc = .processing := by rw [hframe]; rfl
  have hmb : t.mb = s.mb := by rw [hframe]; rfl
  rw [exec_gainstg_of_session (.inr htlc) (by rwa [hmb]), Host.Outcome.next.injEq] at hu
  have hflat : feq t.snap.gainOut t.gain.prev = true := by rw [hsnap]; exact hsettled
  obtain ⟨hprev, hscaled⟩ := gainStage_of_settled (len := len') (s := running t) hflat
  rw [hu] at hprev hscaled
  refine ⟨hprev, hflat, fun i x hi hx => ?_⟩
  rw [hscaled i hi, bufElem_of_look (s := running t) hx, ← hsnap]
  rfl

/-! ## `PROCESS` -/

/-- `s` with the snapshot latched and ramp 1 retargeted to its feedback gain, as the sample steps of
`PROCESS` find it (R189). -/
def tuned (s : State) : State :=
  { s with snap := latchedSnapshot s
           ramp1 := Ramp.setTarget (latchedSnapshot s).fbGain s.ramp1 }

/-- The samples `BUF[0..len)` as a command reads them. -/
def inputs (len : Nat) (s : State) : List Word := elemsOf s s.buf bufBase len

theorem inputs_length (len : Nat) (s : State) : (inputs len s).length = len := by
  rw [inputs, elemsOf, List.length_map, List.length_range]

theorem inputs_getElem? {len j : Nat} (hj : j < len) (s : State) :
    (inputs len s)[j]? = some (bufElem s j) := by
  rw [inputs, elemsOf, List.getElem?_map, List.getElem?_range hj, Option.map_some]
  rfl

/-- The samples are those of the list that `BUF` holds. -/
theorem inputs_of_look {s : State} {xs : List Word}
    (h : ∀ i, i < xs.length → s.buf.look i = xs[i]?) : inputs xs.length s = xs := by
  refine List.ext_getElem? fun j => ?_
  by_cases hj : j < xs.length
  · have hlook := h j hj
    rw [List.getElem?_eq_getElem hj] at hlook ⊢
    rw [inputs_getElem? hj, bufElem_of_look hlook]
  · rw [List.getElem?_eq_none (by rw [inputs_length]; omega), List.getElem?_eq_none (by omega)]

/-- The sample steps of `PROCESS`: their state and their outputs (R189). -/
def blockRun (c : Cfg) (len : Nat) (s : State) : State × List Word :=
  runSamples c (inputs len s) (tuned s)

theorem blockRun_length (c : Cfg) (len : Nat) (s : State) : (blockRun c len s).2.length = len := by
  rw [blockRun, runSamples_length, inputs_length]

/-- The state after the sample steps of `PROCESS`, with a given gain state and `BUF` (R189): the elements of
the sample steps come from their run, what the control agent may reach from the latch. -/
def blockState (c : Cfg) (len : Nat) (s : State) (g : Gain) (m : Memory) : State :=
  { s with
    snap := latchedSnapshot s
    an := (blockRun c len s).1.an
    ramp0 := (blockRun c len s).1.ramp0
    ramp1 := (blockRun c len s).1.ramp1
    osc := (blockRun c len s).1.osc
    gain := g
    buf := m
    cells := (latchParams s).cells
    race := s.race.drop 5
    outputs := ctlResults s.cells (s.race.take 5).flatten ++ s.outputs }

/-- The latch leaves `BUF` to the sample loop as it was. -/
theorem blockStart_buf (s : State) : (blockStart s).buf = s.buf := by
  rw [blockStart_core, coreOf_buf, (latchParams_spec s).1]

theorem bufElem_blockStart (s : State) (j : Nat) : bufElem (blockStart s) j = bufElem s j := by
  rw [bufElem, bufElem, elemOf, elemOf, blockStart_buf, blockStart_core]
  rfl

/-- The sample steps from where the sample loop starts are those from the tuned state. -/
theorem runSamples_blockStart (c : Cfg) (len : Nat) (s : State) :
    runSamples c (inputs len s) (blockStart s) =
      (coreOf (blockRun c len s).1 (latchParams s), (blockRun c len s).2) := by
  rw [blockStart_core]
  exact runSamples_core c (inputs len s) (tuned s) (latchParams s)

/-- The sample loop of `PROCESS` runs the sample steps and puts their outputs in place of the samples
(R189). -/
theorem sampleLoop_blockStart (c : Cfg) (len : Nat) (s : State) :
    sampleLoop c len 0 (blockStart s) =
      blockState c len s s.gain (sampleLoop c len 0 (blockStart s)).buf ∧
    (∀ i y, (blockRun c len s).2[i]? = some y →
      (sampleLoop c len 0 (blockStart s)).buf.look i = some y) ∧
    ∀ j, len ≤ j → (sampleLoop c len 0 (blockStart s)).buf.look j = s.buf.look j := by
  obtain ⟨hframe, hout, hrest⟩ := sampleLoop_spec c (inputs len s) 0 (blockStart s) fun j hj => by
    rw [Nat.zero_add, bufElem_blockStart, inputs_getElem? (by rwa [inputs_length] at hj)]
  simp only [inputs_length, runSamples_blockStart, Nat.zero_add, blockStart_buf]
    at hframe hout hrest
  refine ⟨?_, hout, fun j hj => hrest j (.inr hj)⟩
  have hlatch := (latchParams_spec s).1
  have hsteps := runSamples_frame c (inputs len s) (tuned s)
  rw [latchParams_outputs] at hlatch
  generalize sampleLoop c len 0 (blockStart s) = l at *
  rw [hframe, blockState, blockRun, hsteps, hlatch]
  rfl

/-- What `PROCESS` leaves: the state after the sample steps, with the gain state of the gain stage
(R189). -/
theorem processBlock_spec (c : Cfg) (nch len : Nat) (s : State) :
    processBlock c nch len s = blockState c len s
      { cur := (latchedSnapshot s).gainOut
        prev := if len = 0 ∨ feq (latchedSnapshot s).gainOut s.gain.prev = true
          then s.gain.prev else (latchedSnapshot s).gainOut }
      (processBlock c nch len s).buf := by
  obtain ⟨hloop, -⟩ := sampleLoop_blockStart c len s
  rw [processBlock_eq]
  generalize sampleLoop c len 0 (blockStart s) = l at *
  obtain ⟨hclear, -⟩ := clearExtra_spec c nch len (gainStage len l)
  obtain ⟨hgain, -⟩ := gainStage_spec len l
  generalize clearExtra c nch len (gainStage len l) = t at *
  generalize gainStage len l = g at *
  rw [hclear, hgain, hloop]
  rfl

section
variable {c : Cfg} {nch len : Nat} {s : State}

/-- Below the length of a block lies no element of a channel that is cleared. -/
theorem ne_extra_of_lt (hcap : len ≤ c.bufcap) {a : Nat} (ha : a < len) (d i : Nat) (hd : 1 ≤ d) :
    a ≠ d * c.bufcap + i := by
  have : 1 * c.bufcap ≤ d * c.bufcap := Nat.mul_le_mul_right _ hd
  omega

/-- Each output times its gain is stored in place of its sample (R186, R189). -/
theorem processBlock_look_output (hcap : len ≤ c.bufcap) {i : Nat} {y : Word} (hi : i < len)
    (hy : (blockRun c len s).2[i]? = some y) :
    (processBlock c nch len s).buf.look i = some (fmul y (stageGain (tuned s) len i)) := by
  obtain ⟨hloop, hout, -⟩ := sampleLoop_blockStart c len s
  have hy' := bufElem_of_look (hout i y hy)
  obtain ⟨-, -, hkept⟩ := clearExtra_spec c nch len
    (gainStage len (sampleLoop c len 0 (blockStart s)))
  obtain ⟨-, hscaled, -⟩ := gainStage_spec len (sampleLoop c len 0 (blockStart s))
  rw [processBlock_eq, hkept i fun d j hd _ _ => ne_extra_of_lt hcap hi d j hd, hscaled i hi, hy',
    hloop]
  rfl

/-- The extra channels are cleared (R188). -/
theorem processBlock_look_cleared (hcap : len ≤ c.bufcap) {ch i : Nat} (h1 : 1 ≤ ch) (h2 : ch < nch)
    (hi : i < len) : (processBlock c nch len s).buf.look (ch * c.bufcap + i) = some fZero := by
  obtain ⟨-, hzero, -⟩ := clearExtra_spec c nch len
    (gainStage len (sampleLoop c len 0 (blockStart s)))
  exact hzero ch i h1 h2 hi (by omega)

/-- Every other element of `BUF` is as before (R186, R188, R189). -/
theorem processBlock_look_other {j : Nat} (hj : len ≤ j)
    (hne : ∀ ch i, 1 ≤ ch → ch < nch → i < len → j ≠ ch * c.bufcap + i) :
    (processBlock c nch len s).buf.look j = s.buf.look j := by
  obtain ⟨-, -, hloop⟩ := sampleLoop_blockStart c len s
  obtain ⟨-, -, hclear⟩ := clearExtra_spec c nch len
    (gainStage len (sampleLoop c len 0 (blockStart s)))
  obtain ⟨-, -, hgain⟩ := gainStage_spec len (sampleLoop c len 0 (blockStart s))
  rw [processBlock_eq, hclear j hne, hgain j hj, hloop j hj]

end

/-- Settles O43: the run of the sample steps is that of the elements `BUF` shows, and `BUF` is read in
three parts (R181, R186, R188, R189). -/
theorem processRunsTheBlock : Obligations.ProcessRunsTheBlock := by
  unfold Obligations.ProcessRunsTheBlock
  intro s nch len hlc h1 h2 hlen hmb
  have hcap : len ≤ cfg.bufcap := by rw [cfg_bufcap]; omega
  have hframe := processBlock_spec cfg nch len (running s)
  obtain ⟨-, hcells, hquiet⟩ := latchParams_spec (running s)
  have hc : (processBlock cfg nch len (running s)).cells = (latchParams (running s)).cells := by
    rw [hframe]
    rfl
  refine ⟨processBlock cfg nch len (running s), tuned (running s), inputs len (running s),
    exec_process_of_session hlc h1 h2 hlen, inputs_length _ _, fun i x hi hx => ?_, rfl, ?_,
    fun i y hi hy => processBlock_look_output hcap hi hy, blockRun_length _ _ _,
    fun ch i hch1 hch2 hi => processBlock_look_cleared hcap hch1 hch2 hi,
    fun j hj hne => processBlock_look_other hj hne, fun k hk => ?_, fun hrace => ?_⟩
  · rw [inputs_getElem? hi, bufElem_of_look (s := running s) hx]
  · rw [hc]
    exact hframe
  · rw [hc]
    exact hcells k hk
  · rw [hc, hquiet hrace]
    rfl

/-! ## Two blocks and one -/

/-- The elements that block boundaries do not show in (R189). -/
def streamOf (s : State) : Analyzer × Ramp × Ramp × Oscillator := (s.an, s.ramp0, s.ramp1, s.osc)

/-- `PROCESS` on samples that `BUF` lists leaves the analyzer, ramps and oscillator of their sample steps
(R189). -/
theorem streamOf_processBlock (c : Cfg) (nch : Nat) {xs : List Word} {s : State}
    (h : ∀ i, i < xs.length → s.buf.look i = xs[i]?) :
    streamOf (processBlock c nch xs.length s) = streamOf (runSamples c xs (tuned s)).1 := by
  rw [processBlock_spec, ← inputs_of_look h, inputs_length]
  rfl

/-- The sample steps never retarget ramp 1 (R143, R184). -/
theorem runSamples_ramp1_tgt (c : Cfg) (xs : List Word) (s : State) :
    (runSamples c xs s).1.ramp1.tgt = s.ramp1.tgt := by
  induction xs generalizing s with
  | nil => rfl
  | cons x xs ih =>
    obtain ⟨htgt, -⟩ := Ramp.next_spec (analyzerPush c x s).ramp1
    rw [runSamples, ih, sampleStep_eq]
    refine htgt.trans ?_
    rw [analyzerPush_frame]

theorem latchedSnapshot_fbGain_not_nan (s : State) : isNaN (latchedSnapshot s).fbGain = false :=
  ((between_iff fZero fOne _ (by decide) (by decide)).1 (between_unit (loadedCell s 1))).1

/-- A `PROCESS` with the cells unchanged starts its sample steps where those of the block before ended: it
latches the same snapshot, and ramp 1 has the target it would get (R142, R181). -/
theorem tuned_blockState (c : Cfg) (len : Nat) {s : State} (hrace : s.race = []) (g : Gain)
    (m : Memory) : tuned (blockState c len s g m) =
      coreOf (blockRun c len s).1 (blockState c len s g m) := by
  obtain ⟨-, -, hquiet⟩ := latchParams_spec s
  have hsnap : latchedSnapshot (blockState c len s g m) = latchedSnapshot s :=
    latchedSnapshot_congr (by rw [blockState, hquiet hrace]) (by rw [blockState, hrace]; rfl)
  have htgt : (blockRun c len s).1.ramp1.tgt = (tuned s).ramp1.tgt := runSamples_ramp1_tgt c _ _
  have hramp : Ramp.setTarget (latchedSnapshot s).fbGain (blockState c len s g m).ramp1 =
      (blockRun c len s).1.ramp1 := by
    refine Ramp.setTarget_same (x := (blockRun c len s).1.ramp1) ?_
    rw [htgt]
    exact Ramp.setTarget_tgt s.ramp1 (latchedSnapshot_fbGain_not_nan s)
  have hsteps := runSamples_frame c (inputs len s) (tuned s)
  rw [tuned, hsnap, hramp, blockState, blockRun, hsteps]
  rfl

/-- The sample steps do not look beyond the elements they work on. -/
theorem streamOf_runSamples_coreOf (c : Cfg) (xs : List Word) (s o : State) :
    streamOf (runSamples c xs (coreOf s o)).1 = streamOf (runSamples c xs s).1 := by
  rw [runSamples_core]
  rfl

/-- Two blocks with the cells unchanged leave the analyzer, ramps and oscillator of one block of all their
samples (R189). -/
theorem streamOf_two_blocks (c : Cfg) (nch : Nat) {xs ys : List Word} {s : State}
    {b1 b2 b3 : Memory} (hrace : s.race = [])
    (h1 : ∀ i, i < xs.length → b1.look i = xs[i]?) (h2 : ∀ i, i < ys.length → b2.look i = ys[i]?)
    (h3 : ∀ i, i < (xs ++ ys).length → b3.look i = (xs ++ ys)[i]?) :
    streamOf (processBlock c nch ys.length
      { processBlock c nch xs.length { s with buf := b1 } with buf := b2 }) =
    streamOf (processBlock c nch (xs ++ ys).length { s with buf := b3 }) := by
  have hfirst : ∀ g, streamOf (processBlock c nch ys.length
      (blockState c xs.length { s with buf := b1 } g b2)) =
      streamOf (runSamples c ys (blockRun c xs.length { s with buf := b1 }).1).1 := fun g => by
    rw [streamOf_processBlock c nch (s := blockState c xs.length { s with buf := b1 } g b2) h2,
      tuned_blockState c xs.length (s := { s with buf := b1 }) hrace, streamOf_runSamples_coreOf]
  have hrun : blockRun c xs.length { s with buf := b1 } =
      runSamples c xs (tuned { s with buf := b1 }) := by
    rw [blockRun, inputs_of_look (s := { s with buf := b1 }) h1]
  calc _ = streamOf (runSamples c ys (blockRun c xs.length { s with buf := b1 }).1).1 := by
        rw [processBlock_spec c nch xs.length]
        exact hfirst _
    _ = streamOf (runSamples c (xs ++ ys) (tuned { s with buf := b1 })).1 := by
        obtain ⟨happend, -⟩ := runSamples_append c xs ys (tuned { s with buf := b1 })
        rw [hrun, happend]
    _ = streamOf (runSamples c (xs ++ ys) (tuned { s with buf := b3 })).1 :=
        (streamOf_runSamples_coreOf c (xs ++ ys) (tuned { s with buf := b1 })
          (tuned { s with buf := b3 })).symm
    _ = _ := (streamOf_processBlock c nch (s := { s with buf := b3 }) h3).symm

theorem running_of_processing {s : State} (h : s.lc = .processing) : running s = s := by
  rw [running, ← h]

/-- Settles O44: `PROCESS` keeps the session and its block size, so the three commands run, and the two
blocks are one (R189). -/
theorem blockBoundariesAreInvisible : Obligations.BlockBoundariesAreInvisible := by
  unfold Obligations.BlockBoundariesAreInvisible
  intro s t1 t2 u nch xs ys b1 b2 b3 hrace hlc hn1 hn2 hlen _ h1 h2 h3 ht1 ht2 hu
  rw [← List.length_append] at h3 hlen hu
  have hsum := List.length_append (as := xs) (bs := ys)
  rw [exec_process_of_session (s := { s with buf := b1 }) hlc hn1 hn2
    (show xs.length ≤ s.mb.toNat by omega), Host.Outcome.next.injEq] at ht1
  have hframe := processBlock_spec cfg nch xs.length (running { s with buf := b1 })
  have hlc1 : t1.lc = .processing := by rw [← ht1, hframe]; rfl
  have hmb1 : t1.mb = s.mb := by rw [← ht1, hframe]; rfl
  rw [exec_process_of_session (s := { t1 with buf := b2 }) (.inr hlc1) hn1 hn2
    (show ys.length ≤ t1.mb.toNat by rw [hmb1]; omega),
    running_of_processing (s := { t1 with buf := b2 }) hlc1, Host.Outcome.next.injEq] at ht2
  rw [exec_process_of_session (s := { s with buf := b3 }) hlc hn1 hn2 hlen,
    Host.Outcome.next.injEq] at hu
  have hstream : streamOf t2 = streamOf u := by
    rw [← ht2, ← hu, ← ht1]
    exact streamOf_two_blocks cfg nch (s := running s) hrace h1 h2 h3
  simpa only [streamOf, Prod.mk.injEq] using hstream

end Sys2Proof.BlockProofs
end

section
/-! PROOFS. The lifecycle (`spec/46_lifecycle.md`): `NOP`, `PREPARE` and `RELEASE` (R210 to R213), the
transition table (R214, R215), what a session keeps (R216), and that nothing stops the machine (R219). -/

namespace Sys2Proof.LifecycleProofs

open Sys2Proof.Machine Sys2Proof.StateProofs

/-! ## `NOP` -/

theorem exec_nop (s : State) : exec .nop s = .next s := rfl

theorem executeWord_of_decode {w : Word} {i : Instr} (h : decode w = .ok i) (s : State) :
    executeWord cfg w s = exec i s := by
  simp only [executeWord, h, execFor_cfg]

/-- `NOP` is the only command with opcode 0 (R93). -/
theorem eq_nop_of_opcodeOf {i : Instr} (h : EncodingProofs.opcodeOf i = 0) : i = .nop := by
  cases i with
  | nop => rfl
  | _ => cases h

theorem opField_of_lt {w : Word} (h : w.toNat < 2 ^ 24) : opField w = 0 := by
  rw [opField, BitVec.extractLsb'_toNat, Nat.shiftRight_eq_div_pow, Nat.div_eq_of_lt h, Nat.zero_mod]

/-- A word with opcode 0 that decodes is the word of `NOP` (R93, R95). -/
theorem eq_zero_of_decode {w : Word} {i : Instr} (hw : w.toNat < 2 ^ 24) (h : decode w = .ok i) :
    w = 0x00000000#32 := by
  obtain ⟨hop, -, -⟩ := EncodingProofs.fields_of_decode h
  obtain rfl : i = .nop := eq_nop_of_opcodeOf (hop.symm.trans (opField_of_lt hw))
  obtain ⟨-, henc⟩ := EncodingProofs.encodeOfDecodeIsTheWord w .nop h
  exact henc.symm

/-- Settles O14: with opcode 0 the only legal word is that of `NOP` (R210). -/
theorem nopChangesNothing : Obligations.NopChangesNothing := by
  unfold Obligations.NopChangesNothing
  refine ⟨exec_nop, rfl, fun s => executeWord_of_decode (i := .nop) rfl s, fun w s hw hne => ?_⟩
  cases h : decode w with
  | ok i => exact absurd (eq_zero_of_decode hw h) hne
  | error e => exact EncodingProofs.executeWord_illegal h cfg s

/-! ## `PREPARE` -/

/-- A refused `PREPARE` (R211, R231). -/
theorem exec_pfail {s : State} (h : prepareArgsOk cfg s = false) :
    exec .prepare s = .next (recordFault .pfail (encode .prepare) s) := by
  rw [exec_prepare, h, if_neg Bool.false_ne_true]

theorem prepareArgsOk_eq_false {s : State} (h : isFinite s.sampleRate = false ∨
    fgt s.sampleRate fZero = false ∨ s.maxBlk = 0#32 ∨ 8192 < s.maxBlk.toNat) :
    prepareArgsOk cfg s = false := by
  rw [Bool.eq_false_iff, Ne, prepareArgsOk_iff, cfg_bufcap]
  rintro ⟨hfin, hpos, hmin, hmax⟩
  obtain h | h | h | h := h
  · exact Bool.false_ne_true (h.symm.trans hfin)
  · exact Bool.false_ne_true (h.symm.trans hpos)
  · rw [h] at hmin
    exact absurd hmin (by decide)
  · omega

/-- Settles O11: each of the four conditions fails a check of R211. -/
theorem prepareWithUnusableArgumentsIsPfail :
    Obligations.PrepareWithUnusableArgumentsIsPfail := by
  unfold Obligations.PrepareWithUnusableArgumentsIsPfail
  exact fun s h => exec_pfail (prepareArgsOk_eq_false h)

/-- The checks of `PREPARE` look at `SAMPLERATE` and `MAXBLK` only (R211). -/
theorem prepareArgsOk_congr {c : Cfg} {s t : State} (hr : t.sampleRate = s.sampleRate)
    (hm : t.maxBlk = s.maxBlk) : prepareArgsOk c t = prepareArgsOk c s := by
  rw [prepareArgsOk, prepareArgsOk, hr, hm]

/-- With no control operation meanwhile the effect of `PREPARE` depends only on what it keeps. -/
theorem prepareEffect_idem (c : Cfg) {s : State} (h : s.race = []) :
    prepareEffect c (prepareEffect c s) = prepareEffect c s := by
  obtain ⟨hfirst, -, hquiet⟩ := prepareEffect_spec c s
  obtain ⟨hcells, houtputs⟩ := hquiet h
  have hrace : (prepareEffect c s).race = [] := by rw [prepareEffect_race, h, List.drop_nil]
  have hsnap := latchedSnapshot_congr hcells (hrace.trans h.symm)
  obtain ⟨hsecond, -, hquiet'⟩ := prepareEffect_spec c (prepareEffect c s)
  obtain ⟨hcells', houtputs'⟩ := hquiet' hrace
  rw [hcells', houtputs', hsnap] at hsecond
  rw [hsecond]
  conv_rhs => rw [hfirst]
  simp [h]

theorem recordFault_idem (k : Cause) (w : Word) (s : State) :
    recordFault k w (recordFault k w s) = recordFault k w s :=
  congrArg (fun f => { s with faults := f }) (record_record s.faults k w)

/-- Settles O16: the second `PREPARE` passes or fails the same checks, and neither the effect nor the
fault adds anything to what the first one left (R211). -/
theorem prepareTwiceIsPrepareOnce : Obligations.PrepareTwiceIsPrepareOnce := by
  unfold Obligations.PrepareTwiceIsPrepareOnce
  intro s t hrace h
  rw [exec_prepare] at h
  split at h
  · next hok =>
    cases h
    have hok' : prepareArgsOk cfg (prepareEffect cfg s) = true :=
      (prepareArgsOk_congr (prepareEffect_sampleRate cfg s) (prepareEffect_maxBlk cfg s)).trans hok
    rw [exec_prepare, if_pos hok', prepareEffect_idem cfg hrace]
  · next hbad =>
    cases h
    rw [Bool.not_eq_true] at hbad
    have hbad' : prepareArgsOk cfg (recordFault .pfail (encode .prepare) s) = false :=
      (prepareArgsOk_congr rfl rfl).trans hbad
    rw [exec_pfail hbad', recordFault_idem]

/-! ## `RELEASE` -/

theorem releaseEffect_of_released (c : Cfg) {s : State} (h : s.lc = .released) :
    releaseEffect c s = s := by
  rw [releaseEffect, h]

theorem releaseEffect_of_not_released (c : Cfg) {s : State} (h : s.lc ≠ .released) :
    releaseEffect c s = { discardContext c s with lc := .released } := by
  unfold releaseEffect
  split
  · rfl
  · rfl
  · rfl
  · next hlc => exact absurd hlc h

theorem releaseEffect_lc (c : Cfg) (s : State) : (releaseEffect c s).lc = .released := by
  by_cases h : s.lc = .released
  · rw [releaseEffect_of_released c h, h]
  · rw [releaseEffect_of_not_released c h]

theorem releaseEffect_faults (c : Cfg) (s : State) : (releaseEffect c s).faults = s.faults := by
  rw [releaseEffect_frame]

/-- Settles O17: what `RELEASE` keeps lies in its frame; what it empties are the memories of the
discarded context (R213). -/
theorem releaseDiscardsTheContext : Obligations.ReleaseDiscardsTheContext := by
  unfold Obligations.ReleaseDiscardsTheContext
  intro s
  refine ⟨releaseEffect cfg s, exec_release s, releaseEffect_lc cfg s, releaseEffect_faults cfg s,
    ?_, ?_, ?_, ?_, ?_, ?_, ?_, ?_, ?_, ?_, fun h => ?_, releaseEffect_of_released cfg⟩
  case refine_11 =>
    rw [releaseEffect_of_not_released cfg h]
    exact ⟨rfl, rfl, rfl, rfl⟩
  all_goals rw [releaseEffect_frame]

/-! ## The transition table -/

/-- Step 3 of R92: outside a session a streaming command is refused. -/
theorem exec_cviol {i : Instr} {s : State} (hi : i.isStreaming = true)
    (hs : s.inSession = false) : exec i s = .next (recordFault .cviol (encode i) s) := by
  rw [exec_streaming hi]
  exact streaming_cviol hs

/-- Settles O9: the lifecycle check comes before that of the operands (R214, R233). -/
theorem streamingOutsideASessionIsCviol : Obligations.StreamingOutsideASessionIsCviol := by
  unfold Obligations.StreamingOutsideASessionIsCviol
  exact fun i s hi hlc => exec_cviol hi ((not_inSession_iff s).2 hlc)

/-- The row of `PREPARE` in the table of R215. -/
theorem prepare_transition {s t : State} (h : exec .prepare s = .next t) :
    if prepareArgsOk cfg s = true then t.lc = .prepared ∧ t.faults = s.faults
    else t.lc = s.lc ∧ t.faults = s.faults.record .pfail (encode .prepare) := by
  rw [exec_prepare] at h
  split at h
  · next hok =>
    cases h
    rw [if_pos hok]
    exact ⟨prepareEffect_lc cfg s, prepareEffect_faults cfg s⟩
  · next hbad =>
    cases h
    rw [if_neg hbad]
    exact ⟨rfl, rfl⟩

/-- The rows of the streaming commands in the table of R215. -/
theorem streaming_transition {i : Instr} {s t : State} (hi : i.isStreaming = true)
    (h : exec i s = .next t) :
    if s.inSession = true then (t.lc = .processing ∧ t.faults = s.faults) ∨
      (t.lc = s.lc ∧ t.faults = s.faults.record .badoper (encode i))
    else t.lc = s.lc ∧ t.faults = s.faults.record .cviol (encode i) := by
  cases hs : s.inSession with
  | false =>
    rw [exec_cviol hi hs] at h
    cases h
    exact ⟨rfl, rfl⟩
  | true =>
    rw [if_pos rfl]
    cases hop : operandsOk i s with
    | false =>
      rw [EncodingProofs.exec_badoper hi hs hop] at h
      cases h
      exact .inr ⟨rfl, rfl⟩
    | true =>
      have ha := admits_of_session hs hop
      rw [exec_of_admits ha] at h
      cases h
      exact .inl ⟨effect_lc ha hi, effect_faults ha⟩

/-- Settles O18, row by row of the table of R215. -/
theorem lifecycleTransitionTable : Obligations.LifecycleTransitionTable := by
  unfold Obligations.LifecycleTransitionTable
  intro i s t h
  refine ⟨?_, ?_, ?_, fun hi => ?_⟩
  · rintro rfl
    cases h
    exact ⟨rfl, rfl⟩
  · rintro rfl
    cases h
    exact ⟨releaseEffect_lc cfg s, releaseEffect_faults cfg s⟩
  · rintro rfl
    simpa only [prepareArgsOk_iff, cfg_bufcap] using prepare_transition h
  · simpa only [inSession_iff] using streaming_transition hi h

/-! ## The constants of a session -/

/-- The lengths of the two ramps (R141). -/
def rampLens (s : State) : Word × Word := (s.ramp0.len, s.ramp1.len)

theorem rampLens_withRamp {s : State} {r : Nat} {x : Ramp} (h : x.len = (s.ramp r).len) :
    rampLens (s.withRamp r x) = rampLens s := by
  unfold State.withRamp
  unfold State.ramp at h
  split
  · next hr =>
    rw [if_pos hr] at h
    rw [rampLens, h]
    rfl
  · next hr =>
    rw [if_neg hr] at h
    rw [rampLens, h]
    rfl

theorem next_len (x : Ramp) : x.next.len = x.len := by
  obtain ⟨-, -, hlen, -⟩ := Ramp.next_spec x
  exact hlen

theorem rampLens_rampsNext (s : State) : rampLens (rampsNext s) = rampLens s := by
  rw [rampLens, rampsNext_ramp0, rampsNext_ramp1, next_len, next_len]
  rfl

theorem rampLens_analyzerPush (c : Cfg) (x : Word) (s : State) :
    rampLens (analyzerPush c x s) = rampLens s := by
  rw [analyzerPush_spec]
  split
  · rw [frameReady_spec, rampLens]
    dsimp only
    split
    · rfl
    · rw [Ramp.setTarget_len]
      rfl
  · rfl

theorem rampLens_sampleStep (c : Cfg) (x : Word) (s : State) :
    rampLens (sampleStep c x s).1 = rampLens s :=
  calc rampLens (sampleStep c x s).1
    _ = rampLens (rampsNext (analyzerPush c x s)) := rfl
    _ = rampLens (analyzerPush c x s) := rampLens_rampsNext _
    _ = rampLens s := rampLens_analyzerPush c x s

theorem rampLens_sampleLoop (c : Cfg) (k i : Nat) (s : State) :
    rampLens (sampleLoop c k i s) = rampLens s := by
  induction k generalizing i s with
  | zero => rfl
  | succ k ih => exact (ih (i + 1) _).trans (rampLens_sampleStep c (bufElem s i) s)

theorem rampLens_blockStart (s : State) : rampLens (blockStart s) = rampLens s := by
  rw [blockStart_core]
  exact congrArg (Prod.mk s.ramp0.len) (Ramp.setTarget_len _ s.ramp1)

theorem rampLens_gainStage (len : Nat) (s : State) : rampLens (gainStage len s) = rampLens s := by
  rw [(gainStage_spec len s).1]
  rfl

theorem rampLens_clearExtra (c : Cfg) (nch len : Nat) (s : State) :
    rampLens (clearExtra c nch len s) = rampLens s := by
  rw [(clearExtra_spec c nch len s).1]
  rfl

theorem rampLens_processBlock (c : Cfg) (nch len : Nat) (s : State) :
    rampLens (processBlock c nch len s) = rampLens s := by
  rw [processBlock_eq, rampLens_clearExtra, rampLens_gainStage, rampLens_sampleLoop,
    rampLens_blockStart]

/-- The ramps have the lengths that the latched sample rate gives them (R141). -/
def LensOfRate (s : State) : Prop :=
  ∀ r, (s.ramp r).len = f2uFloorSat (fmul (durOf cfg r) s.sr)

theorem lensOfRate_of_ramps {s : State}
    (h0 : s.ramp0.len = f2uFloorSat (fmul 0x3CCCCCCD#32 s.sr))
    (h1 : s.ramp1.len = f2uFloorSat (fmul 0x3BA3D70A#32 s.sr)) : LensOfRate s := by
  intro r
  unfold State.ramp durOf
  split
  · exact h0
  · exact h1

/-- A streaming command keeps the lengths of the ramps: `RRESET` computes the same length again, every
other one leaves it (R141 to R143, R216). -/
theorem rampLens_body {i : Instr} {s : State} (hi : i.isStreaming = true) (hs : LensOfRate s) :
    rampLens (body i s) = rampLens s := by
  cases i with
  | nop | prepare | release => cases hi
  | process nch len => exact rampLens_processBlock cfg nch len s
  | latch =>
    rw [show body .latch s = _ from (latchParams_spec s).1]
    rfl
  | push => exact rampLens_analyzerPush cfg s.opa s
  | estimate | afreq | oscnext => rfl
  | rreset r => exact rampLens_withRamp (hs r).symm
  | rset r => exact rampLens_withRamp (Ramp.setTarget_len s.opa _)
  | rnext r => exact rampLens_withRamp (next_len _)
  | sample => exact rampLens_sampleStep cfg s.opa s
  | gainstg len => exact rampLens_gainStage len s

theorem rampLens_exec {i : Instr} {s t : State} (hi : i.isStreaming = true) (hs : LensOfRate s)
    (h : exec i s = .next t) : rampLens t = rampLens s := by
  obtain ⟨-, rfl⟩ | ⟨k, rfl⟩ := exec_cases h
  · rw [effect, if_pos hi]
    exact rampLens_body (s := running s) hi hs
  · rfl

/-- Settles O47: a streaming command does not own `SR`, `MB` or the tables (R44), and it keeps the
lengths of the ramps (R216). -/
theorem sessionConstantsAreKept : Obligations.SessionConstantsAreKept := by
  unfold Obligations.SessionConstantsAreKept
  intro i s t hi h h0 h1
  have hlifecycle : i ≠ .prepare ∧ i ≠ .release := by
    constructor <;> rintro rfl <;> cases hi
  obtain ⟨-, -, -, -, -, -, -, -, -, howned, -⟩ := commandsWriteOnlyWhatTheyOwn i s t h
  obtain ⟨hsr, hmb, hsine, hhann⟩ := howned hlifecycle
  obtain ⟨hlen0, hlen1⟩ := Prod.ext_iff.1 (rampLens_exec hi (lensOfRate_of_ramps h0 h1) h)
  exact ⟨hsr, hmb, hsine, hhann, hlen0, hlen1⟩

/-! ## Nothing stops the machine -/

theorem executeWord_completes (w : Word) (s : State) : ∃ t, executeWord cfg w s = .next t := by
  cases h : decode w with
  | ok i =>
    rw [executeWord_of_decode h]
    exact ⟨_, exec_eq i s⟩
  | error e => exact ⟨_, EncodingProofs.executeWord_illegal h cfg s⟩

theorem runCommand_completes (w : Word) (m : Meanwhile) (s : State) :
    ∃ t, runCommand cfg w m s = .next t := by
  obtain ⟨u, hu⟩ := executeWord_completes w (beginCommand m s)
  rw [runCommand, hu]
  exact ⟨_, rfl⟩

theorem hostWrite_completes (a : HostAddr) (v : Word) (m : Meanwhile) (s : State) :
    ∃ t, hostWrite cfg a v m s = .next t := by
  unfold hostWrite
  split
  · exact runCommand_completes v m s
  · exact ⟨_, rfl⟩

theorem perform_completes (e : Event) (s : State) : ∃ t, perform cfg e s = .next t := by
  cases e with
  | hostWrite a v m => exact hostWrite_completes a v m s
  | busWrite addr size v m =>
    rw [perform]
    split
    · exact hostWrite_completes _ v m s
    · exact ⟨_, rfl⟩
  | busRead addr size =>
    rw [perform]
    split
    · exact ⟨_, rfl⟩
    · exact ⟨_, rfl⟩
  | hostRead | ctl | reset => exact ⟨_, rfl⟩

theorem step_of_idle {s : State} (h : s.pending = []) : step s = .next s := by
  rw [step, stepFor, performNext, h]

/-- Settles O50: every operation from outside answers a next state, and with none to come the state
stays (R219, R230, R244). -/
theorem everyStepCompletes : Obligations.EveryStepCompletes := by
  unfold Obligations.EveryStepCompletes
  intro s
  refine ⟨?_, step_of_idle⟩
  cases hp : s.pending with
  | nil => exact ⟨s, step_of_idle hp⟩
  | cons e rest =>
    rw [step_of_pending hp]
    exact perform_completes e { s with pending := rest }

end Sys2Proof.LifecycleProofs
end
